-- ==== Sys2Proof/Word.lean ====
section
/-! DEFINITION. The word and byte types of the SIB. -/

namespace Sys2Proof

/-- A 32-bit register value or command word (00_scope R12, 10_state R30). -/
abbrev Word := BitVec 32

/-- One byte of a buffer (10_state R61, R62). -/
abbrev Byte := BitVec 8

end Sys2Proof
end

