-- ==== Sys2Proof/Config.lean ====
section
/-! DEFINITION. The parameters of 00_scope section 4 at this hardware's values, the constants of the algorithms,
the two platform parameters left open, and the free values. -/

namespace Sys2Proof.Config

/-- BUF_BYTES: size of the message buffer MSG (00_scope R5). -/
def bufBytes : Nat := 4096

/-- KEY_BUF_BYTES: size of the key buffer KEY (00_scope R6). -/
def keyBufBytes : Nat := 128

/-- XPORT_MASK: what the XOR variant XORs into the port (00_scope R7; 90_conflicts C4). The shared operations of the
address masker take the mask as an argument; only the meanings fix it at this value (log 9). -/
def xportMask : BitVec 16 := 0xA442

/-- ID_VALUE (00_scope R9). -/
def idValue : Word := 0x53494201

/-- COOKIE, the magic cookie; not a parameter (00_scope R8). -/
def cookie : Word := 0x2112A442

/-- FP_XOR; not a parameter (00_scope R10). -/
def fpXor : Word := 0x5354554E

/-- P_BASE, where the SIB's window sits in the host's address map: left to the platform (00_scope R11, log 8). -/
opaque pBase : Nat

/-- P_IRQ, which platform interrupt input IRQ drives: left to the platform (00_scope R11, log 8). -/
opaque pIrq : Nat

/-- FREE VALUE. The byte of MSG at an offset, after the given number of hardware resets, as long as nothing has written
it since (70_reset R262, log 5). -/
opaque unwrittenMsg : (resets offset : Nat) → Byte

/-- FREE VALUE. The byte of KEY at an index, after the given number of hardware resets, as long as nothing has written
it since (70_reset R262, log 5). -/
opaque unwrittenKey : (resets index : Nat) → Byte

end Sys2Proof.Config
end

