-- ==== Sys2Proof/Syntax.lean ====
section
/-! DEFINITION. The syntax: the ten commands of SIB-CMD version 1, the three fields of a command word, and the
statements of a host script. -/

namespace Sys2Proof

/-- The ten commands (30_encoding R112), one constructor per row of spec/opcode_table.json. X is the only operand field
of a command word (30_encoding R117); it is an argument exactly where it may be 1 (30_encoding R114). -/
inductive Instr where
  /-- NOP (44_control R220). -/
  | nop
  /-- SRST, soft reset (44_control R221). -/
  | srst
  /-- XA.MASK, mask the address registers (40_xor_address R146). -/
  | xaMask
  /-- XA.ENC, and XA.ENC.X where x (40_xor_address R147). -/
  | xaEnc (x : Bool)
  /-- XA.DEC, and XA.DEC.X where x (40_xor_address R148). -/
  | xaDec (x : Bool)
  /-- FP.GEN, append FINGERPRINT (41_fingerprint R163). -/
  | fpGen
  /-- FP.CHK, verify FINGERPRINT (41_fingerprint R164). -/
  | fpChk
  /-- MI.GEN, append MESSAGE-INTEGRITY (42_message_integrity R186). -/
  | miGen
  /-- MI.CHK, verify MESSAGE-INTEGRITY (42_message_integrity R187). -/
  | miChk
  /-- LOCATE, find an attribute (43_locate R210). -/
  | locate
  deriving DecidableEq, Repr

/-- The three fields of format "C" (30_encoding R110), before any check of them. -/
structure CmdWord where
  /-- OP, bits 7:0. -/
  op : BitVec 8
  /-- X, bit 8. -/
  x : Bool
  /-- RSVD, bits 31:9. -/
  rsvd : BitVec 23
  deriving DecidableEq, Repr

/-- The conditions of the host branches (30_encoding R130), on the value of the last read. -/
inductive BranchCond where
  /-- BNZ0: bit 0 is 1. -/
  | bnz0
  /-- BMATCH: bit 3 is 1. -/
  | bmatch
  /-- BNMATCH: bit 3 is 0. -/
  | bnmatch
  /-- BERR: bit 2 is 1. -/
  | berr
  deriving DecidableEq, Repr

/-- One statement of a host script: a host step (00_scope R22), a host branch or HALT (30_encoding R130). A label is the
index of the statement it marks (log 3). An address is an offset in the SIB's 17-bit window (20_memory R80, log 8). -/
inductive HostStmt where
  /-- Read(addr, size). -/
  | read (addr : BitVec 17) (size : Nat)
  /-- Write(addr, size, data). -/
  | write (addr : BitVec 17) (size : Nat) (data : Word)
  /-- Reset, the hardware reset (70_reset R260). -/
  | reset
  /-- A branch to the statement of index `target` where the condition holds. -/
  | branch (cond : BranchCond) (target : Nat)
  /-- HALT, the end of the script (70_reset R273). -/
  | halt
  deriving DecidableEq, Repr

end Sys2Proof
end

