-- ==== Sys2Proof/Machine/State.lean ====
section
/-! DEFINITION. The state of the machine as plain data, its value after reset, and the two reason types. -/

namespace Sys2Proof.Machine

open Sys2Proof

/-- Reasons to stop with a fault: none. The SIB has no trap (60_exceptions R231): a command's error is a completion
status, an undecoded access and a dropped write are sticky bits, and no step of the machine is undefined. -/
inductive Fault where
  deriving DecidableEq, Repr

/-- Reasons to refuse. -/
inductive Refusal where
  /-- Raised by an arm of `exec` whose command has no meaning yet; no arm raises it now. Safe. -/
  | notModelled (mnemonic : String)
  deriving DecidableEq, Repr

/-- The completion codes of STATUS.ERRCODE (60_exceptions R230); codes 0x0D to 0xFF are never produced (log 10). -/
inductive ErrCode where
  /-- 0x00, no error. -/
  | ok
  /-- 0x01, not a legal command word. -/
  | illegal
  /-- 0x02, MsgLenOK fails. -/
  | badlen
  /-- 0x03, the trailer does not fit. -/
  | overflow
  /-- 0x04, a trailer is present that forbids this one. -/
  | order
  /-- 0x05, no well-formed trailer at ATTR_OFF. -/
  | absent
  /-- 0x06, a TLV runs past MSG_LEN. -/
  | truncated
  /-- 0x07, KEY_LEN above KEY_BUF_BYTES. -/
  | badkey
  /-- 0x08, the family is not 1 or 2. -/
  | badfam
  /-- 0x09, XA_PORT above 0xFFFF. -/
  | portrange
  /-- 0x0A, the TLV at XA_OFF is of another type. -/
  | badtype
  /-- 0x0B, the address TLV's length is wrong. -/
  | badxlen
  /-- 0x0C, XA_OFF is no place for the TLV. -/
  | badoff
  deriving DecidableEq, Repr

/-- STATUS.TSTATE (10_state R39): 0 OPEN, 1 MI_DONE, 2 SEALED; the value 3 never occurs (log 10). -/
inductive TState where
  /-- 0, no trailer appended. -/
  | opened
  /-- 1, MI.GEN appended MESSAGE-INTEGRITY. -/
  | miDone
  /-- 2, FP.GEN appended FINGERPRINT. -/
  | fpDone
  deriving DecidableEq, Repr

/-- A latched command (10_state R56): PEND, and how many host statements still run before the engine completes it, any
finite number (00_scope R23, log 1). -/
structure Pending where
  word : Word
  delay : Nat
  deriving DecidableEq, Repr

/-- Bytes of a buffer written since the last hardware reset, by strictly rising offset. An offset that is not listed has
not been written and has no value here (70_reset R262, log 5). -/
abbrev Memory := List Host.Cell

/-- The state of the SIB and of its host. -/
structure State where
  /-- CTRL bit 0, IRQ_EN (10_state R32). -/
  irqEn : Bool
  /-- STATUS.DONE (10_state R35). -/
  done : Bool
  /-- STATUS.ERR (10_state R36). -/
  err : Bool
  /-- STATUS.MATCH (10_state R37). -/
  matched : Bool
  /-- STATUS.WERR (10_state R38). -/
  werr : Bool
  /-- STATUS.AERR (10_state R38). -/
  aerr : Bool
  /-- STATUS.ERRCODE (10_state R36). -/
  errcode : ErrCode
  /-- STATUS.TSTATE (10_state R39). -/
  tstate : TState
  /-- PEND (10_state R56); it is there exactly while BUSY = 1 (log 6). -/
  pend : Option Pending
  /-- MSG_LEN (10_state R42). -/
  msgLen : Word
  /-- ATTR_TYPE bits 15:0 (10_state R43). -/
  attrType : BitVec 16
  /-- ATTR_OFF (10_state R44). -/
  attrOff : Word
  /-- KEY_LEN (10_state R45). -/
  keyLen : Word
  /-- XA_FAMILY bits 7:0 (10_state R46). -/
  xaFamily : Byte
  /-- XA_PORT (10_state R47). -/
  xaPort : Word
  /-- XA_ADDR0 (10_state R48). -/
  xaAddr0 : Word
  /-- XA_ADDR1 (10_state R48). -/
  xaAddr1 : Word
  /-- XA_ADDR2 (10_state R48). -/
  xaAddr2 : Word
  /-- XA_ADDR3 (10_state R48). -/
  xaAddr3 : Word
  /-- XA_OFF (10_state R49). -/
  xaOff : Word
  /-- FP_VALUE (10_state R50). -/
  fpValue : Word
  /-- MAC0 (10_state R51). -/
  mac0 : Word
  /-- MAC1 (10_state R51). -/
  mac1 : Word
  /-- MAC2 (10_state R51). -/
  mac2 : Word
  /-- MAC3 (10_state R51). -/
  mac3 : Word
  /-- MAC4 (10_state R51). -/
  mac4 : Word
  /-- MSG, keyed by offset in the buffer (10_state R61). -/
  msg : Memory
  /-- KEY, keyed by index in the buffer (10_state R62). -/
  key : Memory
  /-- The model's own: hardware resets so far, the index of the free values of unwritten bytes (log 5). -/
  resets : Nat
  /-- The host: its script (30_encoding R130, log 3). -/
  script : List HostStmt
  /-- The host: index of its next statement (log 3). -/
  hostPc : Nat
  /-- The host: the value of its last read (30_encoding R130, log 7). -/
  lastRead : Word
  /-- The model's own: the latency of each command yet to be issued, the next one first; 0 past the end (log 2). -/
  latencies : List Nat
  deriving DecidableEq, Repr

/-- The machine right after hardware reset (70_reset R261), before its host has a script. The fields after `key` are the
model's own and their values are its choice (logs 2, 3, 5, 7). -/
def State.reset : State where
  irqEn := false
  done := false
  err := false
  matched := false
  werr := false
  aerr := false
  errcode := .ok
  tstate := .opened
  pend := none
  msgLen := 0
  attrType := 0
  attrOff := 0
  keyLen := 0
  xaFamily := 0
  xaPort := 0
  xaAddr0 := 0
  xaAddr1 := 0
  xaAddr2 := 0
  xaAddr3 := 0
  xaOff := 0
  fpValue := 0
  mac0 := 0
  mac1 := 0
  mac2 := 0
  mac3 := 0
  mac4 := 0
  msg := []
  key := []
  resets := 0
  script := []
  hostPc := 0
  lastRead := 0
  latencies := []

end Sys2Proof.Machine
end

