-- ==== Sys2Proof/Machine/Ops.lean ====
section
/-! DEFINITION. The named operations: bytes and big-endian values, the buffers, the engine's writes of registers, the
completion of a command and its acknowledgement, the issue of a command, and the two resets. -/

namespace Sys2Proof.Machine

open Sys2Proof

/-! ### Byte strings and network byte order (00_scope R15, R16) -/

/-- The big-endian value of a byte string: the sum of s[i] * 2^(8(n-1-i)) (00_scope R16). -/
def beNat (bs : List Byte) : Nat := bs.foldl (fun acc b => acc * 256 + b.toNat) 0

/-- The `n` bytes of `v` in network order: byte i is v[8(n-1-i)+7 : 8(n-1-i)] (00_scope R16). -/
def beBytes (n v : Nat) : List Byte := (List.range n).map fun i => BitVec.ofNat 8 (v / 256 ^ (n - 1 - i))

/-- be32 (00_scope R16). -/
def be32 (w : Word) : List Byte := beBytes 4 w.toNat

/-- The 32-bit value of four bytes in network order, as in 40_xor_address R144. -/
def wordOf (bs : List Byte) : Word := BitVec.ofNat 32 (beNat bs)

/-- Bytes 4k to 4k+3 of a string as a word. -/
def wordAt (bs : List Byte) (k : Nat) : Word := wordOf ((bs.drop (4 * k)).take 4)

/-- xorb (00_scope R15). -/
def xorb (s t : List Byte) : List Byte := List.zipWith (· ^^^ ·) s t

/-- zeros(n) (00_scope R15). -/
def zeros (n : Nat) : List Byte := List.replicate n 0

/-! ### Buffers -/

/-- The canonical form of a buffer of `bound` bytes: offsets strictly rising and inside the buffer (log 5). -/
abbrev Memory.wf (bound : Nat) (m : Memory) : Prop :=
  m.Pairwise (fun c d => c.1 < d.1) ∧ ∀ c ∈ m, c.1 < bound

/-- The byte written at an offset, if any. -/
def Memory.find : Memory → Nat → Option Byte
  | [], _ => none
  | (k, v) :: m, a => if a = k then some v else Memory.find m a

/-- Write one byte, keeping the canonical form. -/
def Memory.put : Memory → Nat → Byte → Memory
  | [], a, v => [(a, v)]
  | (k, x) :: m, a, v =>
    if a < k then (a, v) :: (k, x) :: m
    else if a = k then (a, v) :: m
    else (k, x) :: Memory.put m a v

/-- Write a byte string from an offset. -/
def Memory.putBytes : Memory → Nat → List Byte → Memory
  | m, _, [] => m
  | m, a, b :: bs => Memory.putBytes (Memory.put m a b) (a + 1) bs

/-- MSG[a]: the byte written there, else a free value (00_scope R15, 70_reset R262). -/
def State.msgAt (s : State) (a : Nat) : Byte := (Memory.find s.msg a).getD (Config.unwrittenMsg s.resets a)

/-- KEY[i]: the byte written there, else a free value (00_scope R15, 70_reset R262). -/
def State.keyAt (s : State) (i : Nat) : Byte := (Memory.find s.key i).getD (Config.unwrittenKey s.resets i)

/-- MemBytes(a, n) (00_scope R16). -/
def State.memBytes (s : State) (a n : Nat) : List Byte := (List.range n).map fun i => s.msgAt (a + i)

/-- MemRead(a, n) (00_scope R16). -/
def State.memRead (s : State) (a n : Nat) : Nat := beNat (s.memBytes a n)

/-- KeyBytes(n) (00_scope R16). -/
def State.keyBytes (s : State) (n : Nat) : List Byte := (List.range n).map s.keyAt

/-- MSG[a + i] <- bs[i]. -/
def State.storeMsg (s : State) (a : Nat) (bs : List Byte) : State := { s with msg := Memory.putBytes s.msg a bs }

/-- KEY[k + i] <- bs[i]. -/
def State.storeKey (s : State) (k : Nat) (bs : List Byte) : State := { s with key := Memory.putBytes s.key k bs }

/-- MemWrite(a, n, v) (00_scope R16). -/
def State.memWrite (s : State) (a n v : Nat) : State := s.storeMsg a (beBytes n v)

/-! ### Writes of one register -/

/-- CTRL.IRQ_EN (10_state R32). -/
def State.setIrqEn (s : State) (b : Bool) : State := { s with irqEn := b }

/-- MSG_LEN, with TSTATE as the writer sets it (10_state R42). -/
def State.setMsgLen (s : State) (v : Word) (t : TState) : State := { s with msgLen := v, tstate := t }

/-- ATTR_TYPE (10_state R43). -/
def State.setAttrType (s : State) (v : BitVec 16) : State := { s with attrType := v }

/-- ATTR_OFF (10_state R44). -/
def State.setAttrOff (s : State) (v : Word) : State := { s with attrOff := v }

/-- KEY_LEN (10_state R45). -/
def State.setKeyLen (s : State) (v : Word) : State := { s with keyLen := v }

/-- XA_FAMILY (10_state R46). -/
def State.setFamily (s : State) (v : Byte) : State := { s with xaFamily := v }

/-- XA_PORT (10_state R47). -/
def State.setPort (s : State) (v : Word) : State := { s with xaPort := v }

/-- XA_ADDR0 (10_state R48). -/
def State.setAddr0 (s : State) (v : Word) : State := { s with xaAddr0 := v }

/-- XA_ADDR1 (10_state R48). -/
def State.setAddr1 (s : State) (v : Word) : State := { s with xaAddr1 := v }

/-- XA_ADDR2 (10_state R48). -/
def State.setAddr2 (s : State) (v : Word) : State := { s with xaAddr2 := v }

/-- XA_ADDR3 (10_state R48). -/
def State.setAddr3 (s : State) (v : Word) : State := { s with xaAddr3 := v }

/-- XA_OFF (10_state R49). -/
def State.setXaOff (s : State) (v : Word) : State := { s with xaOff := v }

/-- FP_VALUE (10_state R50). -/
def State.setFp (s : State) (v : Word) : State := { s with fpValue := v }

/-- MAC0 to MAC4 from the 20 bytes of an HMAC: H[4k+j] = MACk[31-8j : 24-8j] (10_state R51). -/
def State.setMac (s : State) (h : List Byte) : State :=
  { s with mac0 := wordAt h 0, mac1 := wordAt h 1, mac2 := wordAt h 2, mac3 := wordAt h 3, mac4 := wordAt h 4 }

/-! ### The command cycle -/

/-- STATUS.BUSY: a command is latched and not yet complete (10_state R34). -/
def State.busy (s : State) : Bool := s.pend.isSome

/-- Latch a command with a given delay. -/
def State.latch (s : State) (w : Word) (delay : Nat) : State := { s with pend := some ⟨w, delay⟩ }

/-- The latency of the command issued next (70_reset R272, log 2). -/
def nextLatency : List Nat → Nat
  | [] => 0
  | n :: _ => n

/-- Issue a command (10_state R57): PEND <- w; BUSY <- 1; DONE, ERR, ERRCODE, MATCH <- 0. The command draws its latency
(log 1). DESIGN CHOICE (log 17): MATCH is cleared here, as R37 and R57 say, although 70_reset R266 lists it among what
still holds its old value while BUSY = 1. -/
def State.issue (s : State) (w : Word) : State :=
  { s with pend := some ⟨w, nextLatency s.latencies⟩, done := false, err := false, errcode := .ok,
           matched := false, latencies := s.latencies.tail }

/-- Completion with finish(m) (10_state R60, 60_exceptions R237). -/
def State.finish (s : State) (m : Bool) : State :=
  { s with pend := none, done := true, err := false, errcode := .ok, matched := m }

/-- Completion with CmdError(c) (10_state R60, 60_exceptions R232, R238). -/
def State.fail (s : State) (c : ErrCode) : State :=
  { s with pend := none, done := true, err := true, errcode := c, matched := false }

/-- COMPLETION, the SIB's exception entry (60_exceptions R237): the one place where a command's outcome reaches the state.
A command answers the state after its writes with its result bit, or the code of its first failing check; on an error
nothing is written (00_scope R18, R19, 10_state R59, R60). -/
def State.complete (s : State) (r : Except ErrCode (State × Bool)) : State :=
  match r with
  | .ok (t, m) => t.finish m
  | .error c => s.fail c

/-- ACKNOWLEDGEMENT, the return from a completion (60_exceptions R239): a host write of STATUS (10_state R40). -/
def State.acknowledge (s : State) (d : Word) : State :=
  { s with done := s.done && !d.getLsbD 1, err := s.err && !d.getLsbD 2,
           werr := s.werr && !d.getLsbD 4, aerr := s.aerr && !d.getLsbD 5 }

/-- STATUS.WERR <- 1: a write was dropped (10_state R58). -/
def State.flagDropped (s : State) : State := { s with werr := true }

/-- STATUS.AERR <- 1: an access was not decoded (20_memory R85). -/
def State.flagAccess (s : State) : State := { s with aerr := true }

/-- One host statement of the latched command's latency has passed (log 1). -/
def State.tick (s : State) : State := { s with pend := s.pend.map fun p => ⟨p.word, p.delay - 1⟩ }

/-! ### Resets -/

/-- SRST's reset of every register and STATUS field (44_control R221): MSG and KEY keep their contents. -/
def State.resetRegs (s : State) : State :=
  { State.reset with msg := s.msg, key := s.key, resets := s.resets, script := s.script, hostPc := s.hostPc,
                     lastRead := s.lastRead, latencies := s.latencies }

/-- Hardware reset (70_reset R260): every register and STATUS field at its reset value, PEND discarded, MSG and KEY
unspecified from here on (R262). The host's own data are not the SIB's and stay (log 7). -/
def State.hwReset (s : State) : State :=
  { State.reset with resets := s.resets + 1, script := s.script, hostPc := s.hostPc, lastRead := s.lastRead,
                     latencies := s.latencies }

end Sys2Proof.Machine
end

