-- ==== Sys2Proof/Machine/Control.lean ====
section
/-! DEFINITION. The control commands and the illegal word (44_control). -/

namespace Sys2Proof.Machine

open Sys2Proof

/-- NOP: finish(0) (44_control R220). -/
def execNop (s : State) : Host.Outcome State Fault Refusal := .next (s.complete (.ok (s, false)))

/-- SRST: every register and STATUS field to its reset value, then finish(0) (44_control R221). -/
def execSrst (s : State) : Host.Outcome State Fault Refusal := .next (s.complete (.ok (s.resetRegs, false)))

/-- A word that decoding rejects: raise CmdError(ILLEGAL) (44_control R222). No constructor of Instr: the step runs it. -/
def execIllegal (s : State) : Host.Outcome State Fault Refusal := .next (s.complete (.error .illegal))

end Sys2Proof.Machine
end

