-- ==== Sys2Proof/Machine/Crc32.lean ====
section
/-! DEFINITION. CRC-32/ISO-HDLC, bitwise (41_fingerprint R160). -/

namespace Sys2Proof.Machine

open Sys2Proof

/-- One of the eight steps a byte takes (41_fingerprint R160). -/
def crcBit (c : Word) : Word := if c.getLsbD 0 then (c >>> 1) ^^^ 0xEDB88320 else c >>> 1

/-- n steps. -/
def crcBits : Nat → Word → Word
  | 0, c => c
  | n + 1, c => crcBits n (crcBit c)

/-- One byte: c XOR zext_32(b), then eight steps (41_fingerprint R160). -/
def crcByte (c : Word) (b : Byte) : Word := crcBits 8 (c ^^^ b.setWidth 32)

/-- crc32(s) (41_fingerprint R160). -/
def crc32 (s : List Byte) : Word := s.foldl crcByte 0xFFFFFFFF ^^^ 0xFFFFFFFF

end Sys2Proof.Machine
end

