-- ==== Sys2Proof/Machine/Operands.lean ====
section
/-! DEFINITION. The operands commands read: the common length check, TLVs and spans, the family, the address bytes and
the mask. -/

namespace Sys2Proof.Machine

open Sys2Proof

/-- MsgLenOK (30_encoding R125). -/
abbrev msgLenOK (s : State) : Prop :=
  20 ≤ s.msgLen.toNat ∧ s.msgLen.toNat ≤ Config.bufBytes ∧ s.msgLen.toNat % 4 = 0

/-- NextTLV(p, l) = (p + 4 + l + 3) AND NOT 3 (30_encoding R122). -/
def nextTLV (p l : Nat) : Nat := (p + 4 + l + 3) / 4 * 4

/-- Span(L, e): the first e bytes of MSG with the header length field replaced by L (30_encoding R128). -/
def span (s : State) (len e : Nat) : List Byte := s.memBytes 0 2 ++ beBytes 2 len ++ s.memBytes 4 (e - 4)

/-- The family is 1 or 2 (40_xor_address R140). -/
abbrev famOK (fam : Byte) : Prop := fam = 1 ∨ fam = 2

/-- AddrLen(fam): 4 for family 1, 16 for family 2 (40_xor_address R140); used only after `famOK`. -/
def addrLen (fam : Byte) : Nat := if fam = 1 then 4 else 16

/-- PortOK (40_xor_address R145). -/
abbrev portOK (s : State) : Prop := s.xaPort.toNat ≤ 0xFFFF

/-- TxId() = MemBytes(8, 12) (40_xor_address R141). -/
def txId (s : State) : List Byte := s.memBytes 8 12

/-- XMask(n): the first n bytes of be32(COOKIE) || TxId() (40_xor_address R142). -/
def xmask (s : State) (n : Nat) : List Byte := (be32 Config.cookie ++ txId s).take n

/-- AddrBytes(fam) (40_xor_address R144). -/
def addrBytes (s : State) (fam : Byte) : List Byte :=
  (be32 s.xaAddr0 ++ be32 s.xaAddr1 ++ be32 s.xaAddr2 ++ be32 s.xaAddr3).take (addrLen fam)

/-- SetAddr(A): A, padded with zeros to 16 bytes, into the address registers (40_xor_address R144). -/
def State.setAddr (s : State) (a : List Byte) : State :=
  let a16 := a ++ zeros (16 - a.length)
  { s with xaAddr0 := wordAt a16 0, xaAddr1 := wordAt a16 1, xaAddr2 := wordAt a16 2, xaAddr3 := wordAt a16 3 }

/-- The attribute type X selects: 0x0020 XOR-MAPPED-ADDRESS, 0x0001 MAPPED-ADDRESS (30_encoding R127). -/
def addrType (x : Bool) : Nat := if x then 0x0020 else 0x0001

/-- The port transform of the XOR variant (40_xor_address R143), on a register whose bits 31:16 are 0. -/
def xorPort (xm : BitVec 16) (port : Word) : Word := port ^^^ xm.setWidth 32

/-- The key of the message-integrity commands, KEY[0..KEY_LEN) (42_message_integrity R184). -/
def macKey (s : State) : List Byte := s.keyBytes s.keyLen.toNat

/-- KEY_LEN ≤ KEY_BUF_BYTES (10_state R45). -/
abbrev keyLenOK (s : State) : Prop := s.keyLen.toNat ≤ Config.keyBufBytes

/-- A well-formed trailer of the given type and value length lies at `p` inside the message (41_fingerprint R164,
42_message_integrity R187). -/
abbrev trailerAt (s : State) (p type len : Nat) : Prop :=
  20 ≤ p ∧ p % 4 = 0 ∧ p + (4 + len) ≤ s.msgLen.toNat ∧ s.memRead p 2 = type ∧ s.memRead (p + 2) 2 = len

end Sys2Proof.Machine
end

