-- ==== Sys2Proof/Machine/Fingerprint.lean ====
section
/-! DEFINITION. The fingerprint generator: FP.GEN, FP.CHK (41_fingerprint). -/

namespace Sys2Proof.Machine

open Sys2Proof

/-- FPValue(L, e) = crc32(Span(L, e)) XOR FP_XOR (41_fingerprint R162). -/
def fpValueOf (s : State) (len e : Nat) : Word := crc32 (span s len e) ^^^ Config.fpXor

/-- FP.GEN (41_fingerprint R163). -/
def fpGen (s : State) : Except ErrCode (State × Bool) :=
  let n := s.msgLen.toNat
  let len := n - 20 + 8
  if ¬ msgLenOK s then .error .badlen
  else if s.tstate = .fpDone then .error .order
  else if ¬ (n + 8 ≤ Config.bufBytes ∧ len ≤ 0xFFFF) then .error .overflow
  else
    let v := fpValueOf s len n
    .ok ((((((s.setFp v).memWrite n 2 0x8028).memWrite (n + 2) 2 0x0004).memWrite (n + 4) 4 v.toNat).memWrite 2 2 len
      ).setMsgLen (BitVec.ofNat 32 (n + 8)) .fpDone, false)

/-- FP.CHK (41_fingerprint R164). -/
def fpChk (s : State) : Except ErrCode (State × Bool) :=
  let p := s.attrOff.toNat
  let len := p - 20 + 8
  if ¬ msgLenOK s then .error .badlen
  else if ¬ trailerAt s p 0x8028 0x0004 then .error .absent
  else
    let v := fpValueOf s len p
    .ok (s.setFp v, decide (s.memRead 2 2 = len ∧ s.memRead (p + 4) 4 = v.toNat))

/-- FP.GEN (41_fingerprint R163). -/
def execFpGen (s : State) : Host.Outcome State Fault Refusal := .next (s.complete (fpGen s))

/-- FP.CHK (41_fingerprint R164). -/
def execFpChk (s : State) : Host.Outcome State Fault Refusal := .next (s.complete (fpChk s))

end Sys2Proof.Machine
end

