-- ==== Sys2Proof/Machine/Sha1.lean ====
section
/-! DEFINITION. SHA-1 (42_message_integrity R180 to R182) and HMAC-SHA1 (R184, R185). -/

namespace Sys2Proof.Machine

open Sys2Proof

/-- Five words: the hash state H0 to H4, or the working values a to e (42_message_integrity R181). -/
structure Sha where
  a : Word
  b : Word
  c : Word
  d : Word
  e : Word
  deriving DecidableEq, Repr

/-- The initial state (42_message_integrity R181). -/
def shaInit : Sha := ⟨0x67452301, 0xEFCDAB89, 0x98BADCFE, 0x10325476, 0xC3D2E1F0⟩

/-- The padded message (42_message_integrity R180): one byte 0x80, the least number of zeros with
(n + 1 + k) mod 64 = 56, and the bit length in 8 bytes. -/
def shaPad (s : List Byte) : List Byte :=
  s ++ [0x80] ++ zeros ((119 - s.length % 64) % 64) ++ beBytes 8 (8 * s.length)

/-- W[t] for 16 ≤ t, `n` of them; the list holds the words so far, the latest first (42_message_integrity R181). -/
def shaExtend : Nat → List Word → List Word
  | 0, ws => ws
  | n + 1, ws =>
    shaExtend n ((ws.getD 2 0 ^^^ ws.getD 7 0 ^^^ ws.getD 13 0 ^^^ ws.getD 15 0).rotateLeft 1 :: ws)

/-- W[0..80) of a 64-byte block (42_message_integrity R181). -/
def shaSchedule (block : List Byte) : List Word :=
  (shaExtend 64 ((List.range 16).map (wordAt block)).reverse).reverse

/-- f of round t (42_message_integrity R181). -/
def shaF (t : Nat) (b c d : Word) : Word :=
  if t < 20 then (b &&& c) ||| (~~~b &&& d)
  else if t < 40 then b ^^^ c ^^^ d
  else if t < 60 then (b &&& c) ||| (b &&& d) ||| (c &&& d)
  else b ^^^ c ^^^ d

/-- K of round t (42_message_integrity R181). -/
def shaK (t : Nat) : Word :=
  if t < 20 then 0x5A827999 else if t < 40 then 0x6ED9EBA1 else if t < 60 then 0x8F1BBCDC else 0xCA62C1D6

/-- Round t with W[t] (42_message_integrity R181). -/
def shaRound (t : Nat) (h : Sha) (w : Word) : Sha :=
  ⟨h.a.rotateLeft 5 + shaF t h.b h.c h.d + h.e + shaK t + w, h.a, h.b.rotateLeft 30, h.c, h.d⟩

/-- The rounds from t on, one per word of the schedule. -/
def shaRounds : Nat → Sha → List Word → Sha
  | _, h, [] => h
  | t, h, w :: ws => shaRounds (t + 1) (shaRound t h w) ws

/-- One block (42_message_integrity R181). -/
def shaBlock (h : Sha) (block : List Byte) : Sha :=
  let r := shaRounds 0 h (shaSchedule block)
  ⟨h.a + r.a, h.b + r.b, h.c + r.c, h.d + r.d, h.e + r.e⟩

/-- `n` consecutive 64-byte blocks, the first first (42_message_integrity R180). -/
def shaBlocks : Nat → Sha → List Byte → Sha
  | 0, h, _ => h
  | n + 1, h, s => shaBlocks n (shaBlock h (s.take 64)) (s.drop 64)

/-- sha1(s), 20 bytes (42_message_integrity R182). -/
def sha1 (s : List Byte) : List Byte :=
  let p := shaPad s
  let h := shaBlocks (p.length / 64) shaInit p
  be32 h.a ++ be32 h.b ++ be32 h.c ++ be32 h.d ++ be32 h.e

/-- K0 of a key (42_message_integrity R184): hashed when longer than 64 bytes, then padded with zeros to 64. -/
def hmacKey (k : List Byte) : List Byte :=
  let k' := if k.length > 64 then sha1 k else k
  k' ++ zeros (64 - k'.length)

/-- HMAC(K, s), 20 bytes (42_message_integrity R185). -/
def hmac (k s : List Byte) : List Byte :=
  let k0 := hmacKey k
  sha1 (xorb k0 (List.replicate 64 0x5C) ++ sha1 (xorb k0 (List.replicate 64 0x36) ++ s))

end Sys2Proof.Machine
end

