-- ==== Sys2Proof/Machine/Integrity.lean ====
section
/-! DEFINITION. The message-integrity engine: MI.GEN, MI.CHK (42_message_integrity). -/

namespace Sys2Proof.Machine

open Sys2Proof

/-- MI.GEN (42_message_integrity R186). -/
def miGen (s : State) : Except ErrCode (State × Bool) :=
  let n := s.msgLen.toNat
  let len := n - 20 + 24
  if ¬ msgLenOK s then .error .badlen
  else if ¬ keyLenOK s then .error .badkey
  else if s.tstate ≠ .opened then .error .order
  else if ¬ (n + 24 ≤ Config.bufBytes ∧ len ≤ 0xFFFF) then .error .overflow
  else
    let h := hmac (macKey s) (span s len n)
    .ok ((((((s.setMac h).memWrite n 2 0x0008).memWrite (n + 2) 2 0x0014).storeMsg (n + 4) h).memWrite 2 2 len
      ).setMsgLen (BitVec.ofNat 32 (n + 24)) .miDone, false)

/-- MI.CHK (42_message_integrity R187). -/
def miChk (s : State) : Except ErrCode (State × Bool) :=
  let p := s.attrOff.toNat
  let len := p - 20 + 24
  if ¬ msgLenOK s then .error .badlen
  else if ¬ keyLenOK s then .error .badkey
  else if ¬ trailerAt s p 0x0008 0x0014 then .error .absent
  else
    let h := hmac (macKey s) (span s len p)
    .ok (s.setMac h, decide (h = s.memBytes (p + 4) 20))

/-- MI.GEN (42_message_integrity R186). -/
def execMiGen (s : State) : Host.Outcome State Fault Refusal := .next (s.complete (miGen s))

/-- MI.CHK (42_message_integrity R187). -/
def execMiChk (s : State) : Host.Outcome State Fault Refusal := .next (s.complete (miChk s))

end Sys2Proof.Machine
end

