-- ==== Sys2Proof/Machine/Locate.lean ====
section
/-! DEFINITION. The attribute locator: LOCATE (43_locate). -/

namespace Sys2Proof.Machine

open Sys2Proof

/-- How the walk of LOCATE ends (43_locate R210). -/
inductive WalkEnd where
  /-- A TLV of the wanted type starts at this offset. -/
  | found (pos : Nat)
  /-- The walk reached the end of the message. -/
  | notFound
  /-- A TLV's head or value runs past the message. -/
  | truncated
  deriving DecidableEq, Repr

/-- The walk from `pos` over the message MSG[0..n) (43_locate R210). The fuel is the number of TLVs still to visit at
most: a walk from 20 visits at most (n - 20) / 4 of them (43_locate R211, log 11). -/
def locateWalk (s : State) (n want : Nat) : (fuel pos : Nat) → WalkEnd
  | 0, _ => .notFound
  | fuel + 1, pos =>
    if n ≤ pos then .notFound
    else if n < pos + 4 then .truncated
    else if n < pos + 4 + s.memRead (pos + 2) 2 then .truncated
    else if s.memRead pos 2 = want then .found pos
    else locateWalk s n want fuel (nextTLV pos (s.memRead (pos + 2) 2))

/-- LOCATE (43_locate R210). -/
def locate (s : State) : Except ErrCode (State × Bool) :=
  if ¬ msgLenOK s then .error .badlen
  else
    match locateWalk s s.msgLen.toNat s.attrType.toNat (s.msgLen.toNat / 4) 20 with
    | .found pos => .ok (s.setAttrOff (BitVec.ofNat 32 pos), true)
    | .notFound => .ok (s, false)
    | .truncated => .error .truncated

/-- LOCATE (43_locate R210). -/
def execLocate (s : State) : Host.Outcome State Fault Refusal := .next (s.complete (locate s))

end Sys2Proof.Machine
end

