-- ==== Sys2Proof/Machine/Xor.lean ====
section
/-! DEFINITION. The XOR address masker: XA.MASK, XA.ENC, XA.DEC (40_xor_address). The shared operations take the port mask
XPORT_MASK as an argument (00_scope R7). -/

namespace Sys2Proof.Machine

open Sys2Proof

/-- XA.MASK (40_xor_address R146). -/
def xaMask (xm : BitVec 16) (s : State) : Except ErrCode (State × Bool) :=
  let fam := s.xaFamily
  if ¬ msgLenOK s then .error .badlen
  else if ¬ famOK fam then .error .badfam
  else if ¬ portOK s then .error .portrange
  else
    let a := xorb (addrBytes s fam) (xmask s (addrLen fam))
    let t := s.setPort (xorPort xm s.xaPort)
    .ok (if fam = 1 then t.setAddr0 (wordOf a) else t.setAddr a, false)

/-- The TLV of XA.ENC: be16(t) || be16(v) || [0x00] || [fam] || be16(port) || A (40_xor_address R147). -/
def addrTLV (xm : BitVec 16) (x : Bool) (s : State) : List Byte :=
  let fam := s.xaFamily
  let n := addrLen fam
  let port := if x then xorPort xm s.xaPort else s.xaPort
  let a := if x then xorb (addrBytes s fam) (xmask s n) else addrBytes s fam
  beBytes 2 (addrType x) ++ beBytes 2 (4 + n) ++ [0x00] ++ [fam] ++ beBytes 2 port.toNat ++ a

/-- XA.ENC and XA.ENC.X (40_xor_address R147). -/
def xaEnc (xm : BitVec 16) (x : Bool) (s : State) : Except ErrCode (State × Bool) :=
  let fam := s.xaFamily
  let off := s.xaOff.toNat
  if ¬ msgLenOK s then .error .badlen
  else if ¬ famOK fam then .error .badfam
  else if ¬ portOK s then .error .portrange
  else if ¬ (20 ≤ off ∧ off % 4 = 0 ∧ off + 4 + (4 + addrLen fam) ≤ s.msgLen.toNat) then
    .error .badoff
  else .ok (s.storeMsg off (addrTLV xm x s), false)

/-- XA.DEC and XA.DEC.X (40_xor_address R148). -/
def xaDec (xm : BitVec 16) (x : Bool) (s : State) : Except ErrCode (State × Bool) :=
  let off := s.xaOff.toNat
  let n := s.msgLen.toNat
  let l := s.memRead (off + 2) 2
  let fam := s.msgAt (off + 5)
  if ¬ msgLenOK s then .error .badlen
  else if ¬ (20 ≤ off ∧ off % 4 = 0 ∧ off + 4 ≤ n) then .error .badoff
  else if s.memRead off 2 ≠ addrType x then .error .badtype
  else if off + 4 + l > n then .error .truncated
  else if l < 4 then .error .badxlen
  else if ¬ famOK fam then .error .badfam
  else if l ≠ 4 + addrLen fam then .error .badxlen
  else
    let port := wordOf (s.memBytes (off + 6) 2)
    let a := s.memBytes (off + 8) (addrLen fam)
    let port' := if x then xorPort xm port else port
    let a' := if x then xorb a (xmask s (addrLen fam)) else a
    .ok (((s.setFamily fam).setPort port').setAddr a', false)

/-- XA.MASK at this hardware's port mask (40_xor_address R146). -/
def execXaMask (s : State) : Host.Outcome State Fault Refusal := .next (s.complete (xaMask Config.xportMask s))

/-- XA.ENC and XA.ENC.X at this hardware's port mask (40_xor_address R147). -/
def execXaEnc (x : Bool) (s : State) : Host.Outcome State Fault Refusal :=
  .next (s.complete (xaEnc Config.xportMask x s))

/-- XA.DEC and XA.DEC.X at this hardware's port mask (40_xor_address R148). -/
def execXaDec (x : Bool) (s : State) : Host.Outcome State Fault Refusal :=
  .next (s.complete (xaDec Config.xportMask x s))

end Sys2Proof.Machine
end

