-- ==== Sys2Proof/Machine/Dispatch.lean ====
section
/-! DEFINITION. One arm per command: what the engine does when it completes it (10_state R59). -/

namespace Sys2Proof.Machine

open Sys2Proof

def exec (i : Instr) (s : State) : Host.Outcome State Fault Refusal :=
  match i with
  | .nop => Sys2Proof.Machine.execNop s
  | .srst => Sys2Proof.Machine.execSrst s
  | .xaMask => Sys2Proof.Machine.execXaMask s
  | .xaEnc x => Sys2Proof.Machine.execXaEnc x s
  | .xaDec x => Sys2Proof.Machine.execXaDec x s
  | .fpGen => Sys2Proof.Machine.execFpGen s
  | .fpChk => Sys2Proof.Machine.execFpChk s
  | .miGen => Sys2Proof.Machine.execMiGen s
  | .miChk => Sys2Proof.Machine.execMiChk s
  | .locate => Sys2Proof.Machine.execLocate s

end Sys2Proof.Machine
end

