-- ==== Sys2Proof/WellFormed.lean ====
section
/-! DEFINITION. The checks a well-formed term passes: the three of 30_encoding R111 on a command word's fields, and those
of a host script's statements. -/

namespace Sys2Proof

/-- The ten opcodes of 30_encoding R112. -/
def opcodes : List (BitVec 8) := [0x00, 0x01, 0x10, 0x11, 0x12, 0x20, 0x21, 0x30, 0x31, 0x40]

/-- Bits 31:9 are 0 (30_encoding R113). -/
def CmdWord.rsvdOk (f : CmdWord) : Bool := f.rsvd == 0

/-- OP is an opcode (30_encoding R115). -/
def CmdWord.opOk (f : CmdWord) : Bool := opcodes.contains f.op

/-- X = 1 only with XA.ENC and XA.DEC (30_encoding R114). -/
def CmdWord.xOk (f : CmdWord) : Bool := !f.x || f.op == 0x11 || f.op == 0x12

/-- The word is legal (30_encoding R111). -/
def CmdWord.wellFormed (f : CmdWord) : Bool := f.rsvdOk && f.opOk && f.xOk

/-- Every term of Instr is a command: its only operand field stands where it may take both values (30_encoding R114). -/
def Instr.wellFormed (i : Instr) : Bool :=
  match i with
  | .nop => true
  | .srst => true
  | .xaMask => true
  | .xaEnc _ => true
  | .xaDec _ => true
  | .fpGen => true
  | .fpChk => true
  | .miGen => true
  | .miChk => true
  | .locate => true

/-- A host step's size is 1, 2 or 4 (00_scope R22). A statement with another size still has a meaning: the access is not
decoded (20_memory R84). -/
def HostStmt.sizeOk : HostStmt → Bool
  | .read _ n => n == 1 || n == 2 || n == 4
  | .write _ n _ => n == 1 || n == 2 || n == 4
  | .reset => true
  | .branch _ _ => true
  | .halt => true

/-- A branch's label marks a statement of the script, which has `len` of them (30_encoding R130). -/
def HostStmt.labelOk (len : Nat) : HostStmt → Bool
  | .read _ _ => true
  | .write _ _ _ => true
  | .reset => true
  | .branch _ t => decide (t < len)
  | .halt => true

/-- Every statement of a script passes both checks. -/
def scriptWellFormed (script : List HostStmt) : Bool :=
  script.all fun st => st.sizeOk && st.labelOk script.length

end Sys2Proof
end

