-- ==== Sys2Proof/Decode.lean ====
section
/-! DEFINITION. Decoding a command word by the table of 30_encoding R112, total and rejecting by name, and the encoder. -/

namespace Sys2Proof

/-- Why a word is no command (30_encoding R111). -/
inductive DecodeError where
  /-- Some of bits 31:9 is set (30_encoding R113). -/
  | reservedBits
  /-- OP is no opcode (30_encoding R115). -/
  | unknownOpcode
  /-- X = 1 with an OP other than 0x11 and 0x12 (30_encoding R114). -/
  | xNotAllowed
  deriving DecidableEq, Repr

/-- A row of the opcode map: it selects the words w with (w AND mask) = match (30_encoding R112). -/
structure OpRow where
  pattern : Word
  mask : Word
  /-- The command, given X. -/
  build : Bool → Instr

/-- The row selects the word. -/
def OpRow.selects (r : OpRow) (w : Word) : Bool := w &&& r.mask == r.pattern

/-- The ten rows of 30_encoding R112. -/
def opTable : List OpRow := [
  ⟨0x00000000, 0xFFFFFFFF, fun _ => .nop⟩,
  ⟨0x00000001, 0xFFFFFFFF, fun _ => .srst⟩,
  ⟨0x00000010, 0xFFFFFFFF, fun _ => .xaMask⟩,
  ⟨0x00000011, 0xFFFFFEFF, fun x => .xaEnc x⟩,
  ⟨0x00000012, 0xFFFFFEFF, fun x => .xaDec x⟩,
  ⟨0x00000020, 0xFFFFFFFF, fun _ => .fpGen⟩,
  ⟨0x00000021, 0xFFFFFFFF, fun _ => .fpChk⟩,
  ⟨0x00000030, 0xFFFFFFFF, fun _ => .miGen⟩,
  ⟨0x00000031, 0xFFFFFFFF, fun _ => .miChk⟩,
  ⟨0x00000040, 0xFFFFFFFF, fun _ => .locate⟩]

/-- The fields of a word: OP <- w[7:0]; X <- w[8]; RSVD <- w[31:9] (30_encoding R110, R111). -/
def CmdWord.ofWord (w : Word) : CmdWord := ⟨w.extractLsb' 0 8, w.getLsbD 8, w.extractLsb' 9 23⟩

/-- The name of the first check of 30_encoding R111 that an illegal word fails. -/
def rejection (w : Word) : DecodeError :=
  let f := CmdWord.ofWord w
  if !f.rsvdOk then .reservedBits else if !f.opOk then .unknownOpcode else .xNotAllowed

/-- Decode a command word (30_encoding R111, R112). -/
def decode (w : Word) : Except DecodeError Instr :=
  match opTable.find? (·.selects w) with
  | some r => .ok (r.build (w.getLsbD 8))
  | none => .error (rejection w)

/-- The opcode of a command (30_encoding R112). -/
def Instr.op (i : Instr) : BitVec 8 :=
  match i with
  | .nop => 0x00
  | .srst => 0x01
  | .xaMask => 0x10
  | .xaEnc _ => 0x11
  | .xaDec _ => 0x12
  | .fpGen => 0x20
  | .fpChk => 0x21
  | .miGen => 0x30
  | .miChk => 0x31
  | .locate => 0x40

/-- The X bit of a command (30_encoding R112, R114). -/
def Instr.xBit (i : Instr) : Bool :=
  match i with
  | .nop => false
  | .srst => false
  | .xaMask => false
  | .xaEnc x => x
  | .xaDec x => x
  | .fpGen => false
  | .fpChk => false
  | .miGen => false
  | .miChk => false
  | .locate => false

/-- The command word: OP in bits 7:0, X in bit 8, bits 31:9 zero (30_encoding R110). -/
def encode (i : Instr) : Word := i.op.setWidth 32 ||| (if i.xBit then 0x100 else 0)

/-- What `decode` reads from a command word whose bits are `w`, the low `nbits` of them. A command word is a 32-bit value
of one bus write, not bytes of a memory (10_state R53), so there are no bytes to lay out. -/
def decodeTableWord (nbits w : Nat) : Option Instr :=
  if w % 2 ^ nbits < 2 ^ 32 then
    match decode (BitVec.ofNat 32 (w % 2 ^ nbits)) with
    | .ok i => some i
    | .error _ => none
  else none

end Sys2Proof
end

