-- ==== Sys2Proof/Machine/Flags.lean ====
section
/-! DEFINITION. The numbers of the STATUS fields, the STATUS word, and the interrupt output. -/

namespace Sys2Proof.Machine

open Sys2Proof

/-- The code written to ERRCODE (60_exceptions R230). -/
def ErrCode.code : ErrCode → Byte
  | .ok => 0x00
  | .illegal => 0x01
  | .badlen => 0x02
  | .overflow => 0x03
  | .order => 0x04
  | .absent => 0x05
  | .truncated => 0x06
  | .badkey => 0x07
  | .badfam => 0x08
  | .portrange => 0x09
  | .badtype => 0x0A
  | .badxlen => 0x0B
  | .badoff => 0x0C

/-- The number of a trailer state (10_state R39). -/
def TState.code : TState → BitVec 2
  | .opened => 0
  | .miDone => 1
  | .fpDone => 2

/-- A bit at a place of a word. -/
def bitAt (n : Nat) (b : Bool) : Word := if b then BitVec.ofNat 32 (2 ^ n) else 0

/-- STATUS as a read returns it (10_state R33): bits 7:6 and 31:18 are 0. -/
def State.status (s : State) : Word :=
  bitAt 0 s.busy ||| bitAt 1 s.done ||| bitAt 2 s.err ||| bitAt 3 s.matched ||| bitAt 4 s.werr ||| bitAt 5 s.aerr |||
    (s.errcode.code.setWidth 32 <<< 8) ||| (s.tstate.code.setWidth 32 <<< 16)

/-- CTRL as a read returns it: bit 0 IRQ_EN, bits 31:1 zero (10_state R32). -/
def State.ctrl (s : State) : Word := bitAt 0 s.irqEn

/-- IRQ = CTRL.IRQ_EN AND STATUS.DONE, a level with no state of its own (60_exceptions R241). -/
def State.irq (s : State) : Bool := s.irqEn && s.done

/-- The platform interrupt inputs as the SIB drives them: IRQ on input P_IRQ, nothing on any other (60_exceptions R241,
00_scope R11). -/
def State.irqLine (s : State) (line : Nat) : Bool := decide (line = Config.pIrq) && s.irq

end Sys2Proof.Machine
end

