-- ==== Sys2Proof/Machine/Bus.lean ====
section
/-! DEFINITION. The host's accesses: the address map (20_memory R80 to R85), register reads and writes (10_state R30 to
R58), and the two bus steps. -/

namespace Sys2Proof.Machine

open Sys2Proof

/-- The 21 registers (10_state R30). -/
inductive Reg where
  | id | ctrl | status | cmd | msgLen | attrType | attrOff | keyLen | xaFamily | xaPort
  | xaAddr0 | xaAddr1 | xaAddr2 | xaAddr3 | xaOff | fpValue | mac0 | mac1 | mac2 | mac3 | mac4
  deriving DecidableEq, Repr

/-- All of them, by offset. -/
def regList : List Reg := [
  .id, .ctrl, .status, .cmd, .msgLen, .attrType, .attrOff, .keyLen, .xaFamily, .xaPort,
  .xaAddr0, .xaAddr1, .xaAddr2, .xaAddr3, .xaOff, .fpValue, .mac0, .mac1, .mac2, .mac3, .mac4]

/-- The offset of a register (10_state R30). -/
def Reg.offset : Reg → Nat
  | .id => 0x000
  | .ctrl => 0x004
  | .status => 0x008
  | .cmd => 0x00C
  | .msgLen => 0x010
  | .attrType => 0x014
  | .attrOff => 0x018
  | .keyLen => 0x01C
  | .xaFamily => 0x020
  | .xaPort => 0x024
  | .xaAddr0 => 0x028
  | .xaAddr1 => 0x02C
  | .xaAddr2 => 0x030
  | .xaAddr3 => 0x034
  | .xaOff => 0x038
  | .fpValue => 0x040
  | .mac0 => 0x050
  | .mac1 => 0x054
  | .mac2 => 0x058
  | .mac3 => 0x05C
  | .mac4 => 0x060

/-- The register at an offset, if any. -/
def regAt (off : Nat) : Option Reg := regList.find? fun r => r.offset == off

/-- Offset of the KEY region, and of the end of it (20_memory R82). -/
def keyBase : Nat := 0x00400
def keyEnd : Nat := 0x00800

/-- Offset of the MSG region (20_memory R83). -/
def msgBase : Nat := 0x10000

/-- What a decoded access reaches. -/
inductive Target where
  | reg (r : Reg)
  /-- KEY[k..k+size). -/
  | key (k : Nat)
  /-- MSG[k..k+size). -/
  | msg (k : Nat)
  deriving DecidableEq, Repr

/-- Decode an access; none where it is not decoded (20_memory R80 to R85). The bound of a buffer, k + size ≤ its size, is
written on the window offsets. -/
def decodeAccess (addr : BitVec 17) (size : Nat) : Option Target :=
  let a := addr.toNat
  if !(size == 1 || size == 2 || size == 4) then none
  else if a % size ≠ 0 then none
  else if a < 0x00100 then
    if size = 4 then (regAt a).map Target.reg else none
  else if keyBase ≤ a ∧ a < keyEnd then
    if a + size ≤ keyBase + Config.keyBufBytes then some (.key (a - keyBase)) else none
  else if msgBase ≤ a then
    if a + size ≤ msgBase + Config.bufBytes then some (.msg (a - msgBase)) else none
  else none

/-- The window offset of a platform address, where it falls in the SIB's window (20_memory R80, 00_scope R11, log 8). -/
def windowOffset (platformAddr : Nat) : Option (BitVec 17) :=
  if Config.pBase ≤ platformAddr ∧ platformAddr < Config.pBase + 2 ^ 17 then
    some (BitVec.ofNat 17 (platformAddr - Config.pBase))
  else none

/-- What a read of a register returns: its value with reserved bits as 0; CMD reads 0 (10_state R30, R52). -/
def State.readReg (s : State) (r : Reg) : Word :=
  match r with
  | .id => Config.idValue
  | .ctrl => s.ctrl
  | .status => s.status
  | .cmd => 0
  | .msgLen => s.msgLen
  | .attrType => s.attrType.setWidth 32
  | .attrOff => s.attrOff
  | .keyLen => s.keyLen
  | .xaFamily => s.xaFamily.setWidth 32
  | .xaPort => s.xaPort
  | .xaAddr0 => s.xaAddr0
  | .xaAddr1 => s.xaAddr1
  | .xaAddr2 => s.xaAddr2
  | .xaAddr3 => s.xaAddr3
  | .xaOff => s.xaOff
  | .fpValue => s.fpValue
  | .mac0 => s.mac0
  | .mac1 => s.mac1
  | .mac2 => s.mac2
  | .mac3 => s.mac3
  | .mac4 => s.mac4

/-- A write that is dropped while BUSY = 1 and then only sets WERR (10_state R58). -/
def State.unlessBusy (s : State) (t : State) : State := if s.busy then s.flagDropped else t

/-- A host write of a register (10_state R30 to R52, R57, R58). -/
def State.writeReg (s : State) (r : Reg) (d : Word) : State :=
  match r with
  | .id => s
  | .ctrl => s.setIrqEn (d.getLsbD 0)
  | .status => s.acknowledge d
  | .cmd => s.unlessBusy (s.issue d)
  | .msgLen => s.unlessBusy (s.setMsgLen d .opened)
  | .attrType => s.unlessBusy (s.setAttrType (d.setWidth 16))
  | .attrOff => s.unlessBusy (s.setAttrOff d)
  | .keyLen => s.unlessBusy (s.setKeyLen d)
  | .xaFamily => s.unlessBusy (s.setFamily (d.setWidth 8))
  | .xaPort => s.unlessBusy (s.setPort d)
  | .xaAddr0 => s.unlessBusy (s.setAddr0 d)
  | .xaAddr1 => s.unlessBusy (s.setAddr1 d)
  | .xaAddr2 => s.unlessBusy (s.setAddr2 d)
  | .xaAddr3 => s.unlessBusy (s.setAddr3 d)
  | .xaOff => s.unlessBusy (s.setXaOff d)
  | .fpValue => s
  | .mac0 => s
  | .mac1 => s
  | .mac2 => s
  | .mac3 => s
  | .mac4 => s

/-- Read(addr, size): the state after and the value returned (20_memory R85, R87, R90). -/
def State.busRead (s : State) (addr : BitVec 17) (size : Nat) : State × Word :=
  match decodeAccess addr size with
  | none => (s.flagAccess, 0)
  | some (.reg r) => (s, s.readReg r)
  | some (.key _) => (s, 0)
  | some (.msg k) => (s, BitVec.ofNat 32 (s.memRead k size))

/-- Write(addr, size, data) (20_memory R85, R88). -/
def State.busWrite (s : State) (addr : BitVec 17) (size : Nat) (data : Word) : State :=
  match decodeAccess addr size with
  | none => s.flagAccess
  | some (.reg r) => s.writeReg r data
  | some (.key k) => s.unlessBusy (s.storeKey k (beBytes size data.toNat))
  | some (.msg k) => s.unlessBusy (s.memWrite k size data.toNat)

end Sys2Proof.Machine
end

