-- ==== Sys2Proof/Machine/Script.lean ====
section
/-! DEFINITION. The host agent: what one statement of its script does, whose turn it is, and the assembler's statements
and pseudo-instructions (30_encoding R129, R130). -/

namespace Sys2Proof.Machine

open Sys2Proof

/-- A branch is taken on the value of the last read (30_encoding R130). -/
def branchTaken (c : BranchCond) (v : Word) : Bool :=
  match c with
  | .bnz0 => v.getLsbD 0
  | .bmatch => v.getLsbD 3
  | .bnmatch => !v.getLsbD 3
  | .berr => v.getLsbD 2

/-- The host goes on to a statement. -/
def State.setHostPc (s : State) (n : Nat) : State := { s with hostPc := n }

/-- The host keeps the value of a read. -/
def State.setLastRead (s : State) (v : Word) : State := { s with lastRead := v }

/-- One statement of the host's script (00_scope R22, 30_encoding R130). DESIGN CHOICE (log 15): every read, of MSG or KEY
too, becomes the last read that branches test; R130's table says so of RD REG. -/
def hostExec (st : HostStmt) (s : State) : State :=
  match st with
  | .read a n => ((s.busRead a n).1.setLastRead (s.busRead a n).2).setHostPc (s.hostPc + 1)
  | .write a n d => (s.busWrite a n d).setHostPc (s.hostPc + 1)
  | .reset => s.hwReset.setHostPc (s.hostPc + 1)
  | .branch c t => s.setHostPc (if branchTaken c s.lastRead then t else s.hostPc + 1)
  | .halt => s

/-- The host's next statement; none where it has ended, at HALT or past its script (70_reset R273, log 3). -/
def nextStmt (s : State) : Option HostStmt :=
  match s.script[s.hostPc]? with
  | none => none
  | some .halt => none
  | some st => some st

/-- Whose turn it is. -/
inductive Turn where
  /-- The engine completes this word. -/
  | engine (w : Word)
  /-- The host runs this statement. -/
  | host (st : HostStmt)
  /-- Neither agent has a step. -/
  | idle
  deriving DecidableEq, Repr

/-- The engine's step is enabled exactly when BUSY = 1 (00_scope R23); it comes when the latency of the latched command
has passed, or when the host has ended (70_reset R273); until then the host runs (log 1). -/
def turn (s : State) : Turn :=
  match s.pend, nextStmt s with
  | some p, none => .engine p.word
  | some p, some st => if p.delay = 0 then .engine p.word else .host st
  | none, some st => .host st
  | none, none => .idle

/-- The host's turn: the latched command, if any, is one statement nearer to its completion, and the statement runs. -/
def hostTurn (st : HostStmt) (s : State) : State := hostExec st s.tick

/-! ### The assembler (30_encoding R129, R130) -/

/-- The mnemonic of a command; the X = 1 forms end in .X (30_encoding R129). -/
def mnemonic (i : Instr) : String :=
  match i with
  | .nop => "NOP"
  | .srst => "SRST"
  | .xaMask => "XA.MASK"
  | .xaEnc false => "XA.ENC"
  | .xaEnc true => "XA.ENC.X"
  | .xaDec false => "XA.DEC"
  | .xaDec true => "XA.DEC.X"
  | .fpGen => "FP.GEN"
  | .fpChk => "FP.CHK"
  | .miGen => "MI.GEN"
  | .miChk => "MI.CHK"
  | .locate => "LOCATE"

/-- The twelve forms. -/
def allForms : List Instr := [
  .nop, .srst, .xaMask, .xaEnc false, .xaEnc true, .xaDec false, .xaDec true, .fpGen, .fpChk, .miGen, .miChk, .locate]

/-- `WR REG, v` (30_encoding R130). -/
def wr (r : Reg) (v : Word) : HostStmt := .write (BitVec.ofNat 17 r.offset) 4 v

/-- `RD REG` (30_encoding R130). -/
def rd (r : Reg) : HostStmt := .read (BitVec.ofNat 17 r.offset) 4

/-- `WR8/WR16/WR32 MSG+k, v`, by size (30_encoding R130). DESIGN CHOICE (log 14): from k = 0x10000 on the spec gives
MSG+k no offset in the window, and the sum wraps modulo 2^17. -/
def wrMsg (size k : Nat) (v : Word) : HostStmt := .write (BitVec.ofNat 17 (msgBase + k)) size v

/-- `RD8/RD16/RD32 MSG+k`, by size (30_encoding R130). DESIGN CHOICE (log 14): MSG+k wraps as in `wrMsg`. -/
def rdMsg (size k : Nat) : HostStmt := .read (BitVec.ofNat 17 (msgBase + k)) size

/-- A command line: Write(0x0000C, 4, enc(M)) (30_encoding R129). -/
def cmd (i : Instr) : HostStmt := wr .cmd (encode i)

/-- A command line by its mnemonic; none where it is not one (30_encoding R129). -/
def assemble (m : String) : Option HostStmt := (allForms.find? fun i => mnemonic i == m).map cmd

/-- The 32-bit writes of bytes zero-padded to a multiple of 4, from a window offset (30_encoding R130). DESIGN CHOICE (log
14): an offset past the 17-bit window wraps modulo 2^17. -/
def wrBytes (base : Nat) (bs : List Byte) : List HostStmt :=
  let n := (bs.length + 3) / 4
  let padded := bs ++ zeros (4 * n - bs.length)
  (List.range n).map fun i => .write (BitVec.ofNat 17 (base + 4 * i)) 4 (wordAt padded i)

/-- `WRMSG k, <hex bytes>` (30_encoding R130). DESIGN CHOICE (log 16): R130 gives the expansion for k a multiple of 4 only;
any other k expands alike here, and none of its misaligned writes is decoded (20_memory R84, R85). -/
def wrmsg (k : Nat) (bs : List Byte) : List HostStmt := wrBytes (msgBase + k) bs

/-- `WRKEY <hex bytes>` (30_encoding R130). -/
def wrkey (bs : List Byte) : List HostStmt := wrBytes keyBase bs

/-- `WAIT` at statement index `here`: `w: RD STATUS` then `BNZ0 w` (30_encoding R130). -/
def waitAt (here : Nat) : List HostStmt := [rd .status, .branch .bnz0 here]

/-- `CLRST` (30_encoding R130). -/
def clrst : HostStmt := wr .status 0x00000036

/-- Give the host its script, to run from its first statement: how a program comes to the machine (log 3). -/
def State.loadScript (s : State) (script : List HostStmt) (latencies : List Nat) : State :=
  { s with script := script, hostPc := 0, latencies := latencies }

end Sys2Proof.Machine
end

