-- ==== Sys2Proof/Machine/Step.lean ====
section
/-! DEFINITION. One step of the machine: of the engine, or of the host (00_scope R21 to R23). -/

namespace Sys2Proof.Machine

open Sys2Proof

/-- One step. The engine completes its word as one atomic transition (10_state R59); an illegal word completes with
ILLEGAL (44_control R222); where neither agent has a step nothing changes (log 4). -/
def step (s : State) : Host.Outcome State Fault Refusal :=
  match turn s with
  | .engine w =>
    match decode w with
    | .ok i => exec i s
    | .error _ => execIllegal s
  | .host st => .next (hostTurn st s)
  | .idle => .next s

/-- The command word `w` (its low `nbits` bits) latched in PEND with its latency passed, so that the next step completes
it (log 3). -/
def State.withFetchWord (s : State) (nbits w : Nat) : State := s.latch (BitVec.ofNat 32 (w % 2 ^ nbits)) 0

end Sys2Proof.Machine
end

