-- ==== Sys2Proof/Safety.lean ====
section
/-! DEFINITION. The invariant of the machine and the walk of LOCATE, in the terms statements use. -/

namespace Sys2Proof.Machine

open Sys2Proof

/-- What every run keeps: the buffers are canonical and inside their sizes (10_state R61, R62, 20_memory R93); while a
command is pending DONE, ERR, ERRCODE and MATCH are clear (10_state R57; MATCH: log 17); ERR says that the last completion
was an error, and MATCH that it was none (10_state R36, R37); and once a trailer has been appended MSG_LEN is a legal length that covers
the header and the trailers appended since it was written (10_state R39, 41_fingerprint R163, 42_message_integrity R186). -/
structure State.Inv (s : State) : Prop where
  msgWf : Memory.wf Config.bufBytes s.msg
  keyWf : Memory.wf Config.keyBufBytes s.key
  pendClear : s.busy = true → s.done = false ∧ s.err = false ∧ s.errcode = .ok ∧ s.matched = false
  errCode : s.err = true → s.errcode ≠ .ok
  matchOk : s.matched = true → s.errcode = .ok
  trailerLen : s.tstate ≠ .opened → msgLenOK s
  miLen : s.tstate = .miDone → 44 ≤ s.msgLen.toNat
  fpLen : s.tstate = .fpDone → 28 ≤ s.msgLen.toNat

/-- The k-th offset of the walk over the attributes: 20, then each next TLV (43_locate R210, 30_encoding R122). -/
def walkPos (s : State) : Nat → Nat
  | 0 => 20
  | k + 1 => nextTLV (walkPos s k) (s.memRead (walkPos s k + 2) 2)

/-- The TLV at an offset lies inside the message: its head, and its value (43_locate R210). -/
abbrev tlvFits (s : State) (pos : Nat) : Prop :=
  pos + 4 ≤ s.msgLen.toNat ∧ pos + 4 + s.memRead (pos + 2) 2 ≤ s.msgLen.toNat

/-- The walk reaches its k-th offset: every TLV before it starts inside the message, lies inside the message and is of
another type (43_locate R210). -/
abbrev walkReaches (s : State) (k : Nat) : Prop :=
  ∀ j, j < k → walkPos s j < s.msgLen.toNat ∧ tlvFits s (walkPos s j) ∧ s.memRead (walkPos s j) 2 ≠ s.attrType.toNat

end Sys2Proof.Machine
end

