-- ==== Sys2Proof/Certificates/Slice0/Obligations.lean ====
section
/-! DEFINITION. The statements for the provers, family by family. Each docstring names the rules of spec/ it formalises. -/

open Sys2Proof Sys2Proof.Machine

/-! ### Encoding -/

/-- The twelve legal words, written out from 30_encoding R112's table; every command of the syntax is well formed. -/
def Obligations.LegalWordsDecode : Prop :=
  decode 0x00000000 = .ok .nop ∧ decode 0x00000001 = .ok .srst ∧ decode 0x00000010 = .ok .xaMask ∧
  decode 0x00000011 = .ok (.xaEnc false) ∧ decode 0x00000111 = .ok (.xaEnc true) ∧
  decode 0x00000012 = .ok (.xaDec false) ∧ decode 0x00000112 = .ok (.xaDec true) ∧
  decode 0x00000020 = .ok .fpGen ∧ decode 0x00000021 = .ok .fpChk ∧ decode 0x00000030 = .ok .miGen ∧
  decode 0x00000031 = .ok .miChk ∧ decode 0x00000040 = .ok .locate ∧
  ∀ i : Instr, i.wellFormed = true

/-- Decoding and encoding agree in both directions, for every word and every command (30_encoding R110 to R112): a
command is read from its own word and from no other. -/
def Obligations.DecodeInvertsEncode : Prop :=
  ∀ (w : Word) (i : Instr), i.wellFormed = true → (decode w = .ok i ↔ w = encode i)

/-- Each row's match and mask select its command, with X as its operand (30_encoding R112). -/
def Obligations.MatchAndMaskSelectCommands : Prop :=
  ∀ w : Word,
    (decode w = .ok .nop ↔ w &&& 0xFFFFFFFF = 0x00000000) ∧
    (decode w = .ok .srst ↔ w &&& 0xFFFFFFFF = 0x00000001) ∧
    (decode w = .ok .xaMask ↔ w &&& 0xFFFFFFFF = 0x00000010) ∧
    (∀ x, decode w = .ok (.xaEnc x) ↔ w &&& 0xFFFFFEFF = 0x00000011 ∧ w.getLsbD 8 = x) ∧
    (∀ x, decode w = .ok (.xaDec x) ↔ w &&& 0xFFFFFEFF = 0x00000012 ∧ w.getLsbD 8 = x) ∧
    (decode w = .ok .fpGen ↔ w &&& 0xFFFFFFFF = 0x00000020) ∧
    (decode w = .ok .fpChk ↔ w &&& 0xFFFFFFFF = 0x00000021) ∧
    (decode w = .ok .miGen ↔ w &&& 0xFFFFFFFF = 0x00000030) ∧
    (decode w = .ok .miChk ↔ w &&& 0xFFFFFFFF = 0x00000031) ∧
    (decode w = .ok .locate ↔ w &&& 0xFFFFFFFF = 0x00000040)

/-- A word with RSVD ≠ 0, an OP not in the table, or X = 1 with another OP than 0x11 and 0x12 completes with ILLEGAL, and
nothing but STATUS changes (44_control R222, 30_encoding R111, R113 to R115). -/
def Obligations.IllegalWordCompletes : Prop :=
  ∀ (s : State) (w : Word), turn s = .engine w →
    (w.extractLsb' 9 23 ≠ 0 ∨
      w.extractLsb' 0 8 ∉ ([0x00, 0x01, 0x10, 0x11, 0x12, 0x20, 0x21, 0x30, 0x31, 0x40] : List (BitVec 8)) ∨
      (w.getLsbD 8 = true ∧ w.extractLsb' 0 8 ≠ 0x11 ∧ w.extractLsb' 0 8 ≠ 0x12)) →
    step s = .next { s with pend := none, done := true, err := true, errcode := .illegal, matched := false } ∧
      ErrCode.illegal.code = 0x01

/-! ### The step and the two agents -/

/-- The engine's step runs the decoded command, and adds nothing around it: a command is pending, and its latency has
passed or the host has ended (10_state R59, 00_scope R23; the latency is the model's form of R23's choice, log 1). -/
def Obligations.StepRunsDecodedCommand : Prop :=
  ∀ (s : State) (p : Pending) (i : Instr), s.pend = some p → (p.delay = 0 ∨ nextStmt s = none) →
    decode p.word = .ok i → i.wellFormed = true → step s = exec i s

/-- The host's step runs its next statement, one statement of the pending command's latency having passed; with no agent
enabled nothing changes (00_scope R21 to R23, 70_reset R264; logs 1, 3, 4). The host's next statement is the one its
script has at its place, and none at HALT or past the script (70_reset R273); the two agents' turns are as logs 1 and 3
say. -/
def Obligations.StepRunsHostStatement : Prop :=
  (∀ (s : State) (st : HostStmt), nextStmt s = some st → (∀ p, s.pend = some p → p.delay ≠ 0) →
    step s = .next (hostExec st { s with pend := s.pend.map fun p => ⟨p.word, p.delay - 1⟩ })) ∧
  (∀ s : State, nextStmt s = none → s.pend = none → step s = .next s) ∧
  (∀ (s : State) (st : HostStmt), nextStmt s = some st ↔ s.script[s.hostPc]? = some st ∧ st ≠ .halt) ∧
  (∀ (s : State) (w : Word), turn s = .engine w ↔
    ∃ p, s.pend = some p ∧ p.word = w ∧ (p.delay = 0 ∨ nextStmt s = none)) ∧
  (∀ (s : State) (st : HostStmt), turn s = .host st ↔ nextStmt s = some st ∧ ∀ p, s.pend = some p → p.delay ≠ 0)

/-- An issued command completes, or a hardware reset abandons it, within one step more than its latency. That the engine
step comes, and that a command completes once, is 00_scope R23's and 60_exceptions R240's; R23 gives no bound, and the
bound here is the model's: the latency drawn at the issue (logs 1, 2; 70_reset R260 for the abandoned command). -/
def Obligations.CommandCompletesWithinLatency : Prop :=
  ∀ (s : State) (p : Pending), s.pend = some p →
    ∃ n t, n ≤ p.delay + 1 ∧ Host.Core.run core n s = .next t ∧ t.pend = none ∧
      ((t.done = true ∧ t.resets = s.resets) ∨ t.resets = s.resets + 1)

/-- The invariant holds at reset. -/
def Obligations.ResetMeetsInvariant : Prop := State.reset.Inv

/-- Every step keeps the invariant: canonical buffers inside their sizes, a clear STATUS while a command is pending, ERR
and MATCH in agreement with ERRCODE, and a legal MSG_LEN that covers the trailers appended (10_state R36, R37, R39, R57,
R61, R62, 20_memory R93). The buffers' canonical form is the model's (log 5), and so is that MATCH is clear while a command
is pending: R37 and R57 over 70_reset R266 (log 17). -/
def Obligations.StepKeepsInvariant : Prop := ∀ s t : State, s.Inv → step s = .next t → t.Inv

/-- While a command is pending, no host statement but Reset changes what the command reads or the results it will write:
only CTRL, the bits a STATUS write clears, the two sticky bits and the host's own data may change (10_state R58, R59,
20_memory R96, 70_reset R266). -/
def Obligations.BusyFreezesInputs : Prop :=
  ∀ (s t : State) (p : Pending) (st : HostStmt), s.pend = some p → turn s = .host st → st ≠ .reset →
    step s = .next t →
    t = { s with pend := some ⟨p.word, p.delay - 1⟩, irqEn := t.irqEn, done := t.done, err := t.err, werr := t.werr,
                 aerr := t.aerr, hostPc := t.hostPc, lastRead := t.lastRead }

/-- TSTATE is changed only by MI.GEN, FP.GEN, SRST, a host write of MSG_LEN and hardware reset (10_state R39). -/
def Obligations.TrailerStateWriters : Prop :=
  ∀ s t : State, step s = .next t → t.tstate ≠ s.tstate →
    (∃ w i, turn s = .engine w ∧ decode w = .ok i ∧ (i = .miGen ∨ i = .fpGen ∨ i = .srst)) ∨
    (∃ d, turn s = .host (.write 0x00010 4 d) ∧ s.busy = false) ∨ turn s = .host .reset

/-- What the host holds in KEY reaches the rest of the machine only through MI.GEN and MI.CHK: replacing the key changes
nothing else that any other step does (10_state R62, 20_memory R90, 30_encoding R117). -/
def Obligations.KeyReachesOnlyTheMac : Prop :=
  ∀ (s t : State) (k : Memory), step s = .next t →
    (∀ w, turn s = .engine w → decode w ≠ .ok .miGen ∧ decode w ≠ .ok .miChk) →
    ∃ k', step { s with key := k } = .next { t with key := k' }

/-! ### Completion, errors and frames of the commands -/

/-- Every command completes: BUSY is 0, DONE is 1, ERR is 1 exactly where ERRCODE is not 0, and MATCH is 0 on an error; and
what the two completions, CmdError(c) and finish(m), do to the state (10_state R60, 60_exceptions R237). -/
def Obligations.EveryCommandCompletes : Prop :=
  (∀ (i : Instr) (s : State), i.wellFormed = true →
    ∃ t, exec i s = .next t ∧ t.busy = false ∧ t.done = true ∧ (t.err = true ↔ t.errcode.code ≠ 0x00) ∧
      (t.err = true → t.matched = false)) ∧
  (∀ (s : State) (c : ErrCode),
    s.fail c = { s with pend := none, done := true, err := true, errcode := c, matched := false }) ∧
  (∀ (s : State) (m : Bool),
    s.finish m = { s with pend := none, done := true, err := false, errcode := .ok, matched := m })

/-- A command that ends with an error has changed nothing but STATUS's completion fields (60_exceptions R238, 00_scope
R18). -/
def Obligations.ErrorsArePrecise : Prop :=
  ∀ (i : Instr) (s t : State), exec i s = .next t → t.err = true →
    t = { s with pend := none, done := true, err := true, errcode := t.errcode, matched := false }

/-- Every command but NOP and SRST fails with BADLEN, before any other check, when MSG_LEN is below 20, above BUF_BYTES or
no multiple of 4 (30_encoding R125, 60_exceptions R233, R234). -/
def Obligations.BadLengthFailsFirst : Prop :=
  ∀ (i : Instr) (s : State), i ≠ .nop → i ≠ .srst →
    ¬ (20 ≤ s.msgLen.toNat ∧ s.msgLen.toNat ≤ 4096 ∧ s.msgLen.toNat % 4 = 0) →
    exec i s = .next { s with pend := none, done := true, err := true, errcode := .badlen, matched := false }

/-- What no command but SRST changes: CTRL, WERR, AERR, ATTR_TYPE, KEY_LEN, XA_OFF, KEY and the host's data (30_encoding
R117, 10_state R38, R62). -/
def Obligations.CommandFrame : Prop :=
  ∀ (i : Instr) (s t : State), i ≠ .srst → exec i s = .next t →
    t = { s with pend := none, done := true, err := t.err, errcode := t.errcode, matched := t.matched,
                 tstate := t.tstate, msgLen := t.msgLen, attrOff := t.attrOff, xaFamily := t.xaFamily,
                 xaPort := t.xaPort, xaAddr0 := t.xaAddr0, xaAddr1 := t.xaAddr1, xaAddr2 := t.xaAddr2,
                 xaAddr3 := t.xaAddr3, fpValue := t.fpValue, mac0 := t.mac0, mac1 := t.mac1, mac2 := t.mac2,
                 mac3 := t.mac3, mac4 := t.mac4, msg := t.msg }

/-- The frames of the commands that store nothing in MSG: NOP, XA.MASK, XA.DEC, FP.CHK, MI.CHK and LOCATE change STATUS
and the registers named for each, and nothing else (30_encoding R117). -/
def Obligations.RegisterCommandsFrame : Prop :=
  ∀ s t : State,
    (exec .nop s = .next t →
      t = { s with pend := none, done := true, err := t.err, errcode := t.errcode, matched := t.matched }) ∧
    (exec .xaMask s = .next t →
      t = { s with pend := none, done := true, err := t.err, errcode := t.errcode, matched := t.matched,
                   xaPort := t.xaPort, xaAddr0 := t.xaAddr0, xaAddr1 := t.xaAddr1, xaAddr2 := t.xaAddr2,
                   xaAddr3 := t.xaAddr3 } ∧
      (s.xaFamily = 1 → t.xaAddr1 = s.xaAddr1 ∧ t.xaAddr2 = s.xaAddr2 ∧ t.xaAddr3 = s.xaAddr3)) ∧
    (∀ x, exec (.xaDec x) s = .next t →
      t = { s with pend := none, done := true, err := t.err, errcode := t.errcode, matched := t.matched,
                   xaFamily := t.xaFamily, xaPort := t.xaPort, xaAddr0 := t.xaAddr0, xaAddr1 := t.xaAddr1,
                   xaAddr2 := t.xaAddr2, xaAddr3 := t.xaAddr3 }) ∧
    (exec .fpChk s = .next t →
      t = { s with pend := none, done := true, err := t.err, errcode := t.errcode, matched := t.matched,
                   fpValue := t.fpValue }) ∧
    (exec .miChk s = .next t →
      t = { s with pend := none, done := true, err := t.err, errcode := t.errcode, matched := t.matched,
                   mac0 := t.mac0, mac1 := t.mac1, mac2 := t.mac2, mac3 := t.mac3, mac4 := t.mac4 }) ∧
    (exec .locate s = .next t →
      t = { s with pend := none, done := true, err := t.err, errcode := t.errcode, matched := t.matched,
                   attrOff := t.attrOff } ∧ (t.matched = false → t.attrOff = s.attrOff))

/-- The frames of the commands that store in MSG. XA.ENC changes STATUS and the 8 + AddrLen bytes from XA_OFF; FP.GEN
changes STATUS, FP_VALUE, MSG_LEN, the 8 bytes from MSG_LEN and the header length field MSG[2..4); MI.GEN changes STATUS,
MAC0..4, MSG_LEN, the 24 bytes from MSG_LEN and MSG[2..4). Every other byte of MSG reads as before (30_encoding R117). -/
def Obligations.StoringCommandsFrame : Prop :=
  ∀ s t : State,
    (∀ x, exec (.xaEnc x) s = .next t →
      t = { s with pend := none, done := true, err := t.err, errcode := t.errcode, matched := t.matched, msg := t.msg } ∧
      ∀ a, (a < s.xaOff.toNat ∨ s.xaOff.toNat + (8 + addrLen s.xaFamily) ≤ a) → t.msgAt a = s.msgAt a) ∧
    (exec .fpGen s = .next t →
      t = { s with pend := none, done := true, err := t.err, errcode := t.errcode, matched := t.matched, msg := t.msg,
                   fpValue := t.fpValue, msgLen := t.msgLen, tstate := t.tstate } ∧
      ∀ a, a ≠ 2 → a ≠ 3 → (a < s.msgLen.toNat ∨ s.msgLen.toNat + 8 ≤ a) → t.msgAt a = s.msgAt a) ∧
    (exec .miGen s = .next t →
      t = { s with pend := none, done := true, err := t.err, errcode := t.errcode, matched := t.matched, msg := t.msg,
                   mac0 := t.mac0, mac1 := t.mac1, mac2 := t.mac2, mac3 := t.mac3, mac4 := t.mac4,
                   msgLen := t.msgLen, tstate := t.tstate } ∧
      ∀ a, a ≠ 2 → a ≠ 3 → (a < s.msgLen.toNat ∨ s.msgLen.toNat + 24 ≤ a) → t.msgAt a = s.msgAt a)

/-- FP_VALUE is changed only by FP.GEN, FP.CHK and SRST, MAC0..4 only by MI.GEN, MI.CHK and SRST, and neither by a command
that ends with an error (10_state R50, R51, 44_control R221). -/
def Obligations.ResultRegisterWriters : Prop :=
  ∀ (i : Instr) (s t : State), exec i s = .next t →
    (t.fpValue ≠ s.fpValue → t.err = false ∧ (i = .fpGen ∨ i = .fpChk ∨ i = .srst)) ∧
    (¬ (t.mac0 = s.mac0 ∧ t.mac1 = s.mac1 ∧ t.mac2 = s.mac2 ∧ t.mac3 = s.mac3 ∧ t.mac4 = s.mac4) →
      t.err = false ∧ (i = .miGen ∨ i = .miChk ∨ i = .srst))

/-! ### Control commands -/

/-- NOP completes and changes nothing else (44_control R220). -/
def Obligations.NopCompletes : Prop :=
  ∀ s : State, exec .nop s =
    .next { s with pend := none, done := true, err := false, errcode := .ok, matched := false }

/-- SRST: every register reads its reset value but STATUS, which reads 0x00000002; IRQ is 0; MSG and KEY keep every byte
(44_control R221). -/
def Obligations.SrstCompletes : Prop :=
  ∀ s : State, ∃ t, exec .srst s = .next t ∧ t.busy = false ∧ t.readReg .status = 0x00000002 ∧
    t.readReg .id = 0x53494201 ∧
    (∀ r : Reg, r ≠ .id → r ≠ .status → t.readReg r = 0x00000000) ∧ t.irq = false ∧
    (∀ a, t.msgAt a = s.msgAt a) ∧ (∀ k, t.keyAt k = s.keyAt k) ∧
    t.script = s.script ∧ t.hostPc = s.hostPc ∧ t.lastRead = s.lastRead ∧ t.latencies = s.latencies

/-! ### XOR address masker -/

/-- XA.MASK, errors and results: the port is XORed with 0xA442, an IPv4 address with the cookie, an IPv6 address with the
cookie and the transaction id MSG[8..20) (40_xor_address R146, with R142 to R144). -/
def Obligations.XaMaskOutcome : Prop :=
  ∀ s : State, exec .xaMask s = .next (
    if ¬ (20 ≤ s.msgLen.toNat ∧ s.msgLen.toNat ≤ 4096 ∧ s.msgLen.toNat % 4 = 0) then s.fail .badlen
    else if ¬ (s.xaFamily = 1 ∨ s.xaFamily = 2) then s.fail .badfam
    else if ¬ s.xaPort.toNat ≤ 0xFFFF then s.fail .portrange
    else if s.xaFamily = 1 then
      State.finish { s with xaPort := s.xaPort ^^^ 0x0000A442, xaAddr0 := s.xaAddr0 ^^^ 0x2112A442 } false
    else
      State.finish { s with xaPort := s.xaPort ^^^ 0x0000A442,
                            xaAddr0 := s.xaAddr0 ^^^ 0x2112A442,
                            xaAddr1 := s.xaAddr1 ^^^ BitVec.ofNat 32 (s.memRead 8 4),
                            xaAddr2 := s.xaAddr2 ^^^ BitVec.ofNat 32 (s.memRead 12 4),
                            xaAddr3 := s.xaAddr3 ^^^ BitVec.ofNat 32 (s.memRead 16 4) } false)

/-- XA.MASK applied twice restores the registers exactly, for every value of XPORT_MASK (40_xor_address R149). The command
is the masker at XPORT_MASK = 0xA442 (00_scope R7, log 9). -/
def Obligations.XaMaskTwiceRestores : Prop :=
  (∀ (xm : BitVec 16) (s t : State) (m : Bool), xaMask xm s = .ok (t, m) → xaMask xm t = .ok (s, false)) ∧
  ∀ s : State, (∀ t m, xaMask 0xA442 s = .ok (t, m) → exec .xaMask s = .next (t.finish m)) ∧
    ∀ c, xaMask 0xA442 s = .error c → exec .xaMask s = .next (s.fail c)

/-- XA.ENC and XA.ENC.X, errors and results: the TLV written at XA_OFF, field by field, and every other byte as before
(40_xor_address R147, 30_encoding R126). -/
def Obligations.XaEncOutcome : Prop :=
  ∀ (x : Bool) (s : State),
    let n := s.msgLen.toNat
    let off := s.xaOff.toNat
    let len := if s.xaFamily = 1 then 4 else 16
    let lenOk := 20 ≤ n ∧ n ≤ 4096 ∧ n % 4 = 0
    let famOk := s.xaFamily = 1 ∨ s.xaFamily = 2
    let portOk := s.xaPort.toNat ≤ 0xFFFF
    let offOk := 20 ≤ off ∧ off % 4 = 0 ∧ off + 4 + (4 + len) ≤ n
    (¬ lenOk → exec (.xaEnc x) s = .next (s.fail .badlen)) ∧
    (lenOk → ¬ famOk → exec (.xaEnc x) s = .next (s.fail .badfam)) ∧
    (lenOk → famOk → ¬ portOk → exec (.xaEnc x) s = .next (s.fail .portrange)) ∧
    (lenOk → famOk → portOk → ¬ offOk → exec (.xaEnc x) s = .next (s.fail .badoff)) ∧
    (lenOk → famOk → portOk → offOk → ∃ t, exec (.xaEnc x) s = .next t ∧
      t = { s.finish false with msg := t.msg } ∧
      t.memRead off 2 = (if x then 0x0020 else 0x0001) ∧ t.memRead (off + 2) 2 = 4 + len ∧
      t.msgAt (off + 4) = 0x00 ∧ t.msgAt (off + 5) = s.xaFamily ∧
      t.memRead (off + 6) 2 = (if x then s.xaPort ^^^ 0x0000A442 else s.xaPort).toNat ∧
      t.memRead (off + 8) 4 = (if x then s.xaAddr0 ^^^ 0x2112A442 else s.xaAddr0).toNat ∧
      (s.xaFamily = 2 →
        t.memRead (off + 12) 4 = (if x then s.xaAddr1 ^^^ BitVec.ofNat 32 (s.memRead 8 4) else s.xaAddr1).toNat ∧
        t.memRead (off + 16) 4 = (if x then s.xaAddr2 ^^^ BitVec.ofNat 32 (s.memRead 12 4) else s.xaAddr2).toNat ∧
        t.memRead (off + 20) 4 = (if x then s.xaAddr3 ^^^ BitVec.ofNat 32 (s.memRead 16 4) else s.xaAddr3).toNat) ∧
      ∀ a, (a < off ∨ off + (8 + len) ≤ a) → t.msgAt a = s.msgAt a)

/-- XA.DEC and XA.DEC.X, errors in order and results: the family, the port and the address read from the TLV at XA_OFF,
unmasked in the XOR variant; a family-1 decode clears XA_ADDR1..3 (40_xor_address R148). -/
def Obligations.XaDecOutcome : Prop :=
  ∀ (x : Bool) (s : State),
    let n := s.msgLen.toNat
    let off := s.xaOff.toNat
    let l := s.memRead (off + 2) 2
    let fam := s.msgAt (off + 5)
    let port := BitVec.ofNat 32 (s.memRead (off + 6) 2)
    let a0 := BitVec.ofNat 32 (s.memRead (off + 8) 4)
    let a1 := BitVec.ofNat 32 (s.memRead (off + 12) 4)
    let a2 := BitVec.ofNat 32 (s.memRead (off + 16) 4)
    let a3 := BitVec.ofNat 32 (s.memRead (off + 20) 4)
    exec (.xaDec x) s = .next (
      if ¬ (20 ≤ n ∧ n ≤ 4096 ∧ n % 4 = 0) then s.fail .badlen
      else if ¬ (20 ≤ off ∧ off % 4 = 0 ∧ off + 4 ≤ n) then s.fail .badoff
      else if s.memRead off 2 ≠ (if x then 0x0020 else 0x0001) then s.fail .badtype
      else if ¬ off + 4 + l ≤ n then s.fail .truncated
      else if l < 4 then s.fail .badxlen
      else if ¬ (fam = 1 ∨ fam = 2) then s.fail .badfam
      else if l ≠ (if fam = 1 then 8 else 20) then s.fail .badxlen
      else if fam = 1 then
        State.finish { s with xaFamily := 1, xaPort := if x then port ^^^ 0x0000A442 else port,
                              xaAddr0 := if x then a0 ^^^ 0x2112A442 else a0,
                              xaAddr1 := 0, xaAddr2 := 0, xaAddr3 := 0 } false
      else
        State.finish { s with xaFamily := 2, xaPort := if x then port ^^^ 0x0000A442 else port,
                              xaAddr0 := if x then a0 ^^^ 0x2112A442 else a0,
                              xaAddr1 := if x then a1 ^^^ BitVec.ofNat 32 (s.memRead 8 4) else a1,
                              xaAddr2 := if x then a2 ^^^ BitVec.ofNat 32 (s.memRead 12 4) else a2,
                              xaAddr3 := if x then a3 ^^^ BitVec.ofNat 32 (s.memRead 16 4) else a3 } false)

/-- XA.ENC then XA.DEC in the same variant at the same XA_OFF recovers the family, the port and the address exactly,
whatever the registers held in between, for every value of XPORT_MASK (40_xor_address R149). The commands are the encoder
and the decoder at XPORT_MASK = 0xA442 (00_scope R7, log 9). -/
def Obligations.XaEncDecRoundTrip : Prop :=
  (∀ (xm : BitVec 16) (x : Bool) (s t u : State) (m : Bool), xaEnc xm x s = .ok (t, m) →
    u.msgLen = t.msgLen → u.xaOff = t.xaOff → (∀ a, u.msgAt a = t.msgAt a) →
    ∃ v, xaDec xm x u = .ok (v, false) ∧ v.xaFamily = s.xaFamily ∧ v.xaPort = s.xaPort ∧ v.xaAddr0 = s.xaAddr0 ∧
      (s.xaFamily = 1 → v.xaAddr1 = 0 ∧ v.xaAddr2 = 0 ∧ v.xaAddr3 = 0) ∧
      (s.xaFamily = 2 → v.xaAddr1 = s.xaAddr1 ∧ v.xaAddr2 = s.xaAddr2 ∧ v.xaAddr3 = s.xaAddr3)) ∧
  ∀ (x : Bool) (s : State),
    (∀ t m, xaEnc 0xA442 x s = .ok (t, m) → exec (.xaEnc x) s = .next (t.finish m)) ∧
    (∀ c, xaEnc 0xA442 x s = .error c → exec (.xaEnc x) s = .next (s.fail c)) ∧
    (∀ t m, xaDec 0xA442 x s = .ok (t, m) → exec (.xaDec x) s = .next (t.finish m)) ∧
    ∀ c, xaDec 0xA442 x s = .error c → exec (.xaDec x) s = .next (s.fail c)

/-! ### Fingerprint generator -/

/-- FP.GEN, errors in order and results: FP_VALUE, the FINGERPRINT trailer at the old MSG_LEN, the header length field,
MSG_LEN and TSTATE, and every other byte as before (41_fingerprint R163, R162, 30_encoding R123, R128). -/
def Obligations.FpGenOutcome : Prop :=
  ∀ s : State,
    let n := s.msgLen.toNat
    let lenOk := 20 ≤ n ∧ n ≤ 4096 ∧ n % 4 = 0
    let v := crc32 (s.memBytes 0 2 ++ beBytes 2 (n - 12) ++ s.memBytes 4 (n - 4)) ^^^ 0x5354554E
    (¬ lenOk → exec .fpGen s = .next (s.fail .badlen)) ∧
    (lenOk → s.tstate = .fpDone → exec .fpGen s = .next (s.fail .order)) ∧
    (lenOk → s.tstate ≠ .fpDone → ¬ n + 8 ≤ 4096 → exec .fpGen s = .next (s.fail .overflow)) ∧
    (lenOk → s.tstate ≠ .fpDone → n + 8 ≤ 4096 → ∃ t, exec .fpGen s = .next t ∧
      t = { s.finish false with fpValue := v, msgLen := BitVec.ofNat 32 (n + 8), tstate := .fpDone, msg := t.msg } ∧
      t.memRead n 2 = 0x8028 ∧ t.memRead (n + 2) 2 = 0x0004 ∧ t.memRead (n + 4) 4 = v.toNat ∧
      t.memRead 2 2 = n - 12 ∧
      ∀ a, a ≠ 2 → a ≠ 3 → (a < n ∨ n + 8 ≤ a) → t.msgAt a = s.msgAt a)

/-- FP.CHK, errors in order and results: FP_VALUE is recomputed over the span, and MATCH says that both the stored length
and the stored value agree (41_fingerprint R164, 90_conflicts C6). -/
def Obligations.FpChkOutcome : Prop :=
  ∀ s : State,
    let n := s.msgLen.toNat
    let p := s.attrOff.toNat
    let v := crc32 (s.memBytes 0 2 ++ beBytes 2 (p - 12) ++ s.memBytes 4 (p - 4)) ^^^ 0x5354554E
    exec .fpChk s = .next (
      if ¬ (20 ≤ n ∧ n ≤ 4096 ∧ n % 4 = 0) then s.fail .badlen
      else if ¬ (20 ≤ p ∧ p % 4 = 0 ∧ p + 8 ≤ n ∧ s.memRead p 2 = 0x8028 ∧ s.memRead (p + 2) 2 = 0x0004) then
        s.fail .absent
      else State.finish { s with fpValue := v } (decide (s.memRead 2 2 = p - 12 ∧ s.memRead (p + 4) 4 = v.toNat)))

/-- A message sealed by FP.GEN verifies: FP.CHK at the old MSG_LEN gives MATCH = 1 as long as MSG[0..p+8) and MSG_LEN are
unchanged (41_fingerprint R165). -/
def Obligations.FpGenThenChkMatches : Prop :=
  ∀ s t u : State, exec .fpGen s = .next t → t.err = false → u.msgLen = t.msgLen → u.attrOff = s.msgLen →
    (∀ a, a < s.msgLen.toNat + 8 → u.msgAt a = t.msgAt a) →
    ∃ v, exec .fpChk u = .next v ∧ v.err = false ∧ v.matched = true ∧ v.fpValue = t.fpValue

/-- Changing any single byte before the FINGERPRINT of a sealed message, the header length field included, gives MATCH = 0
(41_fingerprint R165). -/
def Obligations.FpDetectsChangedByte : Prop :=
  ∀ (s t u : State) (b : Nat), exec .fpGen s = .next t → t.err = false → u.msgLen = t.msgLen → u.attrOff = s.msgLen →
    b < s.msgLen.toNat → u.msgAt b ≠ t.msgAt b → (∀ a, a < s.msgLen.toNat + 8 → a ≠ b → u.msgAt a = t.msgAt a) →
    ∃ v, exec .fpChk u = .next v ∧ v.err = false ∧ v.matched = false

/-- Changing a byte of the stored value of a sealed message gives MATCH = 0, and changing a byte of its TLV head gives
ABSENT (41_fingerprint R165). -/
def Obligations.FpTrailerChangesDetected : Prop :=
  ∀ (s t u : State) (b : Nat), exec .fpGen s = .next t → t.err = false → u.msgLen = t.msgLen → u.attrOff = s.msgLen →
    u.msgAt b ≠ t.msgAt b → (∀ a, a < s.msgLen.toNat + 8 → a ≠ b → u.msgAt a = t.msgAt a) →
    (s.msgLen.toNat + 4 ≤ b → b < s.msgLen.toNat + 8 →
      ∃ v, exec .fpChk u = .next v ∧ v.err = false ∧ v.matched = false) ∧
    (s.msgLen.toNat ≤ b → b < s.msgLen.toNat + 4 → exec .fpChk u = .next (u.fail .absent))

/-- Trailer order: no second trailer of one kind, and no MESSAGE-INTEGRITY after FINGERPRINT. After a successful FP.GEN,
FP.GEN fails with ORDER, and so does MI.GEN with a legal key length; after a successful MI.GEN, MI.GEN fails with ORDER;
MI.GEN succeeds only with TSTATE 0 and FP.GEN only with TSTATE 0 or 1 (41_fingerprint R166). -/
def Obligations.TrailerOrderEnforced : Prop :=
  (∀ s t : State, exec .fpGen s = .next t → t.err = false →
    (s.tstate = .opened ∨ s.tstate = .miDone) ∧ t.tstate = .fpDone ∧
    exec .fpGen t = .next (t.fail .order) ∧ (t.keyLen.toNat ≤ 128 → exec .miGen t = .next (t.fail .order))) ∧
  (∀ s t : State, exec .miGen s = .next t → t.err = false →
    s.tstate = .opened ∧ t.tstate = .miDone ∧ exec .miGen t = .next (t.fail .order))

/-! ### Message-integrity engine -/

/-- MI.GEN, errors in order and results: MAC0..4, the MESSAGE-INTEGRITY trailer at the old MSG_LEN, the header length
field, MSG_LEN and TSTATE, and every other byte as before (42_message_integrity R186, 30_encoding R124, R128). -/
def Obligations.MiGenOutcome : Prop :=
  ∀ s : State,
    let n := s.msgLen.toNat
    let lenOk := 20 ≤ n ∧ n ≤ 4096 ∧ n % 4 = 0
    let h := hmac (s.keyBytes s.keyLen.toNat) (s.memBytes 0 2 ++ beBytes 2 (n + 4) ++ s.memBytes 4 (n - 4))
    (¬ lenOk → exec .miGen s = .next (s.fail .badlen)) ∧
    (lenOk → ¬ s.keyLen.toNat ≤ 128 → exec .miGen s = .next (s.fail .badkey)) ∧
    (lenOk → s.keyLen.toNat ≤ 128 → s.tstate ≠ .opened → exec .miGen s = .next (s.fail .order)) ∧
    (lenOk → s.keyLen.toNat ≤ 128 → s.tstate = .opened → ¬ n + 24 ≤ 4096 →
      exec .miGen s = .next (s.fail .overflow)) ∧
    (lenOk → s.keyLen.toNat ≤ 128 → s.tstate = .opened → n + 24 ≤ 4096 → ∃ t, exec .miGen s = .next t ∧
      t = { s.finish false with mac0 := t.mac0, mac1 := t.mac1, mac2 := t.mac2, mac3 := t.mac3, mac4 := t.mac4,
                                msgLen := BitVec.ofNat 32 (n + 24), tstate := .miDone, msg := t.msg } ∧
      be32 t.mac0 ++ be32 t.mac1 ++ be32 t.mac2 ++ be32 t.mac3 ++ be32 t.mac4 = h ∧
      t.memRead n 2 = 0x0008 ∧ t.memRead (n + 2) 2 = 0x0014 ∧ t.memBytes (n + 4) 20 = h ∧ t.memRead 2 2 = n + 4 ∧
      ∀ a, a ≠ 2 → a ≠ 3 → (a < n ∨ n + 24 ≤ a) → t.msgAt a = s.msgAt a)

/-- MI.CHK, errors in order and results: MAC0..4 are recomputed with the length read as p + 4, whatever the header holds,
and MATCH says that the stored value agrees byte for byte (42_message_integrity R187, 90_conflicts C3). -/
def Obligations.MiChkOutcome : Prop :=
  ∀ s : State,
    let n := s.msgLen.toNat
    let p := s.attrOff.toNat
    let h := hmac (s.keyBytes s.keyLen.toNat) (s.memBytes 0 2 ++ beBytes 2 (p + 4) ++ s.memBytes 4 (p - 4))
    (¬ (20 ≤ n ∧ n ≤ 4096 ∧ n % 4 = 0) → exec .miChk s = .next (s.fail .badlen)) ∧
    (20 ≤ n ∧ n ≤ 4096 ∧ n % 4 = 0 → ¬ s.keyLen.toNat ≤ 128 → exec .miChk s = .next (s.fail .badkey)) ∧
    (20 ≤ n ∧ n ≤ 4096 ∧ n % 4 = 0 → s.keyLen.toNat ≤ 128 →
      ¬ (20 ≤ p ∧ p % 4 = 0 ∧ p + 24 ≤ n ∧ s.memRead p 2 = 0x0008 ∧ s.memRead (p + 2) 2 = 0x0014) →
      exec .miChk s = .next (s.fail .absent)) ∧
    (20 ≤ n ∧ n ≤ 4096 ∧ n % 4 = 0 → s.keyLen.toNat ≤ 128 →
      20 ≤ p ∧ p % 4 = 0 ∧ p + 24 ≤ n ∧ s.memRead p 2 = 0x0008 ∧ s.memRead (p + 2) 2 = 0x0014 →
      ∃ t, exec .miChk s = .next t ∧
        t = { s.finish (decide (h = s.memBytes (p + 4) 20)) with
                mac0 := t.mac0, mac1 := t.mac1, mac2 := t.mac2, mac3 := t.mac3, mac4 := t.mac4 } ∧
        be32 t.mac0 ++ be32 t.mac1 ++ be32 t.mac2 ++ be32 t.mac3 ++ be32 t.mac4 = h)

/-- A message signed by MI.GEN verifies under the same key: MI.CHK at the old MSG_LEN gives MATCH = 1 on every state that
agrees on MSG[0..p+24) but for the header length field, and on the key (42_message_integrity R188, R187). -/
def Obligations.MiGenThenChkMatches : Prop :=
  ∀ s t u : State, exec .miGen s = .next t → t.err = false →
    (t.msgLen.toNat ≤ u.msgLen.toNat ∧ u.msgLen.toNat ≤ 4096 ∧ u.msgLen.toNat % 4 = 0) → u.attrOff = s.msgLen →
    u.keyLen = s.keyLen → (∀ k, k < s.keyLen.toNat → u.keyAt k = s.keyAt k) →
    (∀ a, a < s.msgLen.toNat + 24 → a ≠ 2 → a ≠ 3 → u.msgAt a = t.msgAt a) →
    ∃ v, exec .miChk u = .next v ∧ v.err = false ∧ v.matched = true

/-- MI.GEN then FP.GEN: both trailers verify on the finished message (42_message_integrity R188, R189, 41_fingerprint
R165). -/
def Obligations.BothTrailersVerify : Prop :=
  ∀ s t u : State, exec .miGen s = .next t → t.err = false → exec .fpGen t = .next u → u.err = false →
    (∃ v, exec .miChk { u with attrOff := s.msgLen } = .next v ∧ v.err = false ∧ v.matched = true) ∧
    (∃ v, exec .fpChk { u with attrOff := t.msgLen } = .next v ∧ v.err = false ∧ v.matched = true)

/-- Two keys of at most 64 bytes that differ only by trailing zero bytes give the same HMAC (42_message_integrity R188,
R184). -/
def Obligations.TrailingZeroKeysCollide : Prop :=
  ∀ (k s : List Byte) (n : Nat), k.length + n ≤ 64 → hmac (k ++ List.replicate n 0x00) s = hmac k s

/-! ### Attribute locator -/

/-- LOCATE, all outcomes: where the walk reaches a TLV of the wanted type inside the message it is found; where it reaches
the end it is not; where it reaches a TLV that runs past MSG_LEN it fails with TRUNCATED; and with a legal length one of
the three is the case (43_locate R210, R211). The walk starts at 20, and the TLV after the one at p is at the next
multiple of 4 from the end of its value on (30_encoding R122). -/
def Obligations.LocateOutcome : Prop :=
  (∀ s : State, 20 ≤ s.msgLen.toNat ∧ s.msgLen.toNat ≤ 4096 ∧ s.msgLen.toNat % 4 = 0 →
    (∀ k, walkReaches s k → walkPos s k < s.msgLen.toNat → tlvFits s (walkPos s k) →
      s.memRead (walkPos s k) 2 = s.attrType.toNat →
      exec .locate s = .next (State.finish { s with attrOff := BitVec.ofNat 32 (walkPos s k) } true)) ∧
    (∀ k, walkReaches s k → s.msgLen.toNat ≤ walkPos s k → exec .locate s = .next (s.finish false)) ∧
    (∀ k, walkReaches s k → walkPos s k < s.msgLen.toNat → ¬ tlvFits s (walkPos s k) →
      exec .locate s = .next (s.fail .truncated)) ∧
    ∃ k, k ≤ (s.msgLen.toNat - 20) / 4 ∧ walkReaches s k ∧
      ((walkPos s k < s.msgLen.toNat ∧ tlvFits s (walkPos s k) ∧ s.memRead (walkPos s k) 2 = s.attrType.toNat) ∨
        s.msgLen.toNat = walkPos s k ∨ (walkPos s k < s.msgLen.toNat ∧ ¬ tlvFits s (walkPos s k)))) ∧
  (∀ (s : State) (k : Nat), walkPos s 0 = 20 ∧
    walkPos s (k + 1) = nextTLV (walkPos s k) (s.memRead (walkPos s k + 2) 2)) ∧
  (∀ p l : Nat, nextTLV p l % 4 = 0 ∧ p + 4 + l ≤ nextTLV p l ∧ nextTLV p l < p + 4 + l + 4)

/-- On MATCH = 1 the TLV at ATTR_OFF lies wholly inside the message at a multiple of 4 from 20 on, and its type is
ATTR_TYPE (43_locate R211). -/
def Obligations.LocateFindsInsideMessage : Prop :=
  ∀ s t : State, exec .locate s = .next t → t.matched = true →
    20 ≤ t.attrOff.toNat ∧ t.attrOff.toNat % 4 = 0 ∧
    t.attrOff.toNat + 4 + t.memRead (t.attrOff.toNat + 2) 2 ≤ t.msgLen.toNat ∧
    t.memRead t.attrOff.toNat 2 = t.attrType.toNat

/-- After LOCATE of 0x8028 (0x0008) with MATCH = 1, FP.CHK (MI.CHK) fails with ABSENT only if that TLV's length is not 4
(20) (43_locate R211). -/
def Obligations.LocatedTrailerAbsentOnlyByLength : Prop :=
  ∀ s t u : State, exec .locate s = .next t → t.matched = true →
    (t.attrType = 0x8028 → exec .fpChk t = .next u → u.errcode = .absent →
      t.memRead (t.attrOff.toNat + 2) 2 ≠ 4) ∧
    (t.attrType = 0x0008 → exec .miChk t = .next u → u.errcode = .absent →
      t.memRead (t.attrOff.toNat + 2) 2 ≠ 20)

/-! ### Bus accesses and registers -/

/-- Which accesses are decoded, and what they reach: a register by a 4-byte access at its offset, KEY and MSG by naturally
aligned accesses of 1, 2 or 4 bytes inside the buffer, and nothing else (20_memory R80 to R84). -/
def Obligations.DecodedAccesses : Prop :=
  ∀ (addr : BitVec 17) (size : Nat),
    (∀ r, decodeAccess addr size = some (.reg r) ↔ size = 4 ∧ addr.toNat = r.offset) ∧
    (∀ k, decodeAccess addr size = some (.key k) ↔
      (size = 1 ∨ size = 2 ∨ size = 4) ∧ addr.toNat % size = 0 ∧ addr.toNat = 0x00400 + k ∧ k + size ≤ 128) ∧
    (∀ k, decodeAccess addr size = some (.msg k) ↔
      (size = 1 ∨ size = 2 ∨ size = 4) ∧ addr.toNat % size = 0 ∧ addr.toNat = 0x10000 + k ∧ k + size ≤ 4096)

/-- An access that is not decoded sets AERR and does nothing else, also while BUSY: a read returns 0, a write changes
nothing else (20_memory R85). -/
def Obligations.UndecodedAccessSetsAerr : Prop :=
  ∀ (s : State) (addr : BitVec 17) (size : Nat) (d : Word), decodeAccess addr size = none →
    s.busRead addr size = ({ s with aerr := true }, 0) ∧ s.busWrite addr size d = { s with aerr := true }

/-- A decoded read has no side effect; of a register it returns what the register reads, of KEY 0, of MSG the big-endian
value of the bytes, in the low 8n bits (20_memory R87, R90, R92; 10_state R52). The second half reads each of the 21
registers at its offset: reserved bits and CMD read 0, and FP_VALUE and MAC0..4 read the last results (10_state R30 to
R33, R41 to R52). -/
def Obligations.DecodedReads : Prop :=
  (∀ (s : State) (addr : BitVec 17) (size : Nat) (tg : Target), decodeAccess addr size = some tg →
    (s.busRead addr size).1 = s ∧
    (∀ r, tg = .reg r → (s.busRead addr size).2 = s.readReg r) ∧
    (∀ k, tg = .key k → (s.busRead addr size).2 = 0) ∧
    (∀ k, tg = .msg k →
      (size = 4 → ((s.busRead addr size).2).toNat = (s.msgAt k).toNat * 2 ^ 24 + (s.msgAt (k + 1)).toNat * 2 ^ 16 +
        (s.msgAt (k + 2)).toNat * 2 ^ 8 + (s.msgAt (k + 3)).toNat) ∧
      (size = 2 → ((s.busRead addr size).2).toNat = (s.msgAt k).toNat * 2 ^ 8 + (s.msgAt (k + 1)).toNat) ∧
      (size = 1 → ((s.busRead addr size).2).toNat = (s.msgAt k).toNat))) ∧
  ∀ s : State,
    s.busRead 0x00000 4 = (s, 0x53494201) ∧ s.busRead 0x00004 4 = (s, if s.irqEn then 0x00000001 else 0x00000000) ∧
    s.busRead 0x00008 4 = (s, s.status) ∧ s.busRead 0x0000C 4 = (s, 0x00000000) ∧
    s.busRead 0x00010 4 = (s, s.msgLen) ∧ s.busRead 0x00014 4 = (s, s.attrType.setWidth 32) ∧
    s.busRead 0x00018 4 = (s, s.attrOff) ∧ s.busRead 0x0001C 4 = (s, s.keyLen) ∧
    s.busRead 0x00020 4 = (s, s.xaFamily.setWidth 32) ∧ s.busRead 0x00024 4 = (s, s.xaPort) ∧
    s.busRead 0x00028 4 = (s, s.xaAddr0) ∧ s.busRead 0x0002C 4 = (s, s.xaAddr1) ∧
    s.busRead 0x00030 4 = (s, s.xaAddr2) ∧ s.busRead 0x00034 4 = (s, s.xaAddr3) ∧
    s.busRead 0x00038 4 = (s, s.xaOff) ∧ s.busRead 0x00040 4 = (s, s.fpValue) ∧
    s.busRead 0x00050 4 = (s, s.mac0) ∧ s.busRead 0x00054 4 = (s, s.mac1) ∧ s.busRead 0x00058 4 = (s, s.mac2) ∧
    s.busRead 0x0005C 4 = (s, s.mac3) ∧ s.busRead 0x00060 4 = (s, s.mac4)

/-- A decoded write while idle stores byte i of its low 8n bits, the most significant first, and nothing else changes; a
read of MSG at the same place returns those bits (20_memory R87, R88). -/
def Obligations.BufferWrites : Prop :=
  ∀ (s : State) (addr : BitVec 17) (size k : Nat) (d : Word), s.busy = false →
    (decodeAccess addr size = some (.msg k) →
      s.busWrite addr size d = { s with msg := (s.busWrite addr size d).msg } ∧
      (∀ i, i < size → (s.busWrite addr size d).msgAt (k + i) = d.extractLsb' (8 * (size - 1 - i)) 8) ∧
      (∀ a, (a < k ∨ k + size ≤ a) → (s.busWrite addr size d).msgAt a = s.msgAt a) ∧
      (((s.busWrite addr size d).busRead addr size).2).toNat = d.toNat % 2 ^ (8 * size)) ∧
    (decodeAccess addr size = some (.key k) →
      s.busWrite addr size d = { s with key := (s.busWrite addr size d).key } ∧
      (∀ i, i < size → (s.busWrite addr size d).keyAt (k + i) = d.extractLsb' (8 * (size - 1 - i)) 8) ∧
      (∀ a, (a < k ∨ k + size ≤ a) → (s.busWrite addr size d).keyAt a = s.keyAt a))

/-- What a bus read returns after an idle bus write of the same read-write register: the bits the register keeps; a write
of MSG_LEN also sets TSTATE to OPEN (10_state R32, R42 to R49). -/
def Obligations.RegisterReadBack : Prop :=
  ∀ (s : State) (d : Word), s.busy = false →
    ((s.busWrite 0x00004 4 d).busRead 0x00004 4).2 = d &&& 0x00000001 ∧
    ((s.busWrite 0x00010 4 d).busRead 0x00010 4).2 = d ∧ (s.busWrite 0x00010 4 d).tstate = .opened ∧
    ((s.busWrite 0x00014 4 d).busRead 0x00014 4).2 = d &&& 0x0000FFFF ∧
    ((s.busWrite 0x00018 4 d).busRead 0x00018 4).2 = d ∧ ((s.busWrite 0x0001C 4 d).busRead 0x0001C 4).2 = d ∧
    ((s.busWrite 0x00020 4 d).busRead 0x00020 4).2 = d &&& 0x000000FF ∧
    ((s.busWrite 0x00024 4 d).busRead 0x00024 4).2 = d ∧ ((s.busWrite 0x00028 4 d).busRead 0x00028 4).2 = d ∧
    ((s.busWrite 0x0002C 4 d).busRead 0x0002C 4).2 = d ∧ ((s.busWrite 0x00030 4 d).busRead 0x00030 4).2 = d ∧
    ((s.busWrite 0x00034 4 d).busRead 0x00034 4).2 = d ∧ ((s.busWrite 0x00038 4 d).busRead 0x00038 4).2 = d

/-- A decoded bus write of a register is that register's write, and a write changes no other register that a read can see
but STATUS. An idle bus write of an operand register gives the old state with that one field replaced (MSG_LEN: also
TSTATE), and a write of CTRL one with IRQ_EN replaced, also while BUSY: STATUS, PEND, MSG, KEY and the host's data stay
(20_memory R92, 10_state R30, R32, R42 to R49). -/
def Obligations.RegisterWriteFrame : Prop :=
  (∀ (s : State) (addr : BitVec 17) (size : Nat) (d : Word) (r : Reg), decodeAccess addr size = some (.reg r) →
    s.busWrite addr size d = s.writeReg r d) ∧
  (∀ (s : State) (r q : Reg) (d : Word), q ≠ r → q ≠ .status → (s.writeReg r d).readReg q = s.readReg q) ∧
  (∀ (s : State) (d : Word), s.busWrite 0x00004 4 d = { s with irqEn := d.getLsbD 0 }) ∧
  ∀ (s : State) (d : Word), s.busy = false →
    s.busWrite 0x00010 4 d = { s with msgLen := d, tstate := .opened } ∧
    s.busWrite 0x00014 4 d = { s with attrType := d.extractLsb' 0 16 } ∧
    s.busWrite 0x00018 4 d = { s with attrOff := d } ∧ s.busWrite 0x0001C 4 d = { s with keyLen := d } ∧
    s.busWrite 0x00020 4 d = { s with xaFamily := d.extractLsb' 0 8 } ∧
    s.busWrite 0x00024 4 d = { s with xaPort := d } ∧ s.busWrite 0x00028 4 d = { s with xaAddr0 := d } ∧
    s.busWrite 0x0002C 4 d = { s with xaAddr1 := d } ∧ s.busWrite 0x00030 4 d = { s with xaAddr2 := d } ∧
    s.busWrite 0x00034 4 d = { s with xaAddr3 := d } ∧ s.busWrite 0x00038 4 d = { s with xaOff := d }

/-- A bus write of ID, FP_VALUE or MAC0..MAC4 is ignored, also while BUSY; ID always reads 0x53494201 and CMD 0 (10_state
R31, R41, R52). -/
def Obligations.ReadOnlyRegistersIgnoreWrites : Prop :=
  ∀ (s : State) (d : Word),
    (∀ (addr : BitVec 17) (size : Nat) (r : Reg), decodeAccess addr size = some (.reg r) →
      r = .id ∨ r = .fpValue ∨ r = .mac0 ∨ r = .mac1 ∨ r = .mac2 ∨ r = .mac3 ∨ r = .mac4 →
      s.busWrite addr size d = s) ∧
    s.busWrite 0x00000 4 d = s ∧ s.busWrite 0x00040 4 d = s ∧ s.busWrite 0x00050 4 d = s ∧
    s.busWrite 0x00054 4 d = s ∧ s.busWrite 0x00058 4 d = s ∧ s.busWrite 0x0005C 4 d = s ∧
    s.busWrite 0x00060 4 d = s ∧ s.busRead 0x00000 4 = (s, 0x53494201) ∧ s.busRead 0x0000C 4 = (s, 0x00000000)

/-- A bus write of STATUS clears DONE, ERR, WERR and AERR where the data has a 1 in bits 1, 2, 4 and 5, and changes nothing
else, also while BUSY (10_state R40). -/
def Obligations.StatusWriteOneToClear : Prop :=
  ∀ (s : State) (d : Word), s.busWrite 0x00008 4 d =
    { s with done := if d.getLsbD 1 then false else s.done, err := if d.getLsbD 2 then false else s.err,
             werr := if d.getLsbD 4 then false else s.werr, aerr := if d.getLsbD 5 then false else s.aerr }

/-- While BUSY = 1 a write to CMD, to an operand register, to KEY or to MSG is dropped and sets WERR; a write of CTRL sets
IRQ_EN, a write of STATUS clears the bits it names, and a write to a read-only register is ignored, as usual (10_state
R58). -/
def Obligations.BusyDropsWrites : Prop :=
  ∀ (s : State) (addr : BitVec 17) (size : Nat) (d : Word), s.busy = true →
    (∀ r, decodeAccess addr size = some (.reg r) →
      (r = .cmd ∨ r = .msgLen ∨ r = .attrType ∨ r = .attrOff ∨ r = .keyLen ∨ r = .xaFamily ∨ r = .xaPort ∨
        r = .xaAddr0 ∨ r = .xaAddr1 ∨ r = .xaAddr2 ∨ r = .xaAddr3 ∨ r = .xaOff →
        s.busWrite addr size d = { s with werr := true }) ∧
      (r = .ctrl → s.busWrite addr size d = { s with irqEn := d.getLsbD 0 }) ∧
      (r = .status → s.busWrite addr size d = s.acknowledge d) ∧
      (r = .id ∨ r = .fpValue ∨ r = .mac0 ∨ r = .mac1 ∨ r = .mac2 ∨ r = .mac3 ∨ r = .mac4 →
        s.busWrite addr size d = s)) ∧
    (∀ k, decodeAccess addr size = some (.key k) → s.busWrite addr size d = { s with werr := true }) ∧
    (∀ k, decodeAccess addr size = some (.msg k) → s.busWrite addr size d = { s with werr := true })

/-- Issue: a bus write of CMD while idle latches the word, sets BUSY and clears DONE, ERR, ERRCODE and MATCH, and no other
state of the SIB changes (10_state R57); the command takes the next latency of the model's list (log 2). That MATCH is
cleared here is the model's choice of R37 and R57 over 70_reset R266 (log 17). -/
def Obligations.IssueLatchesCommand : Prop :=
  ∀ (s : State) (w : Word), s.busy = false →
    ∃ n, s.busWrite 0x0000C 4 w = { s with pend := some ⟨w, n⟩, done := false, err := false, errcode := .ok,
                                           matched := false, latencies := s.latencies.tail } ∧
      (s.latencies = [] → n = 0) ∧ (∀ m ms, s.latencies = m :: ms → n = m)

/-- The STATUS word, field by field; the reserved bits read 0 and TSTATE never reads 3; BUSY is 1 while a command is
latched; and the numbers of the error codes and of the trailer states (10_state R33, R34, R39, 60_exceptions R230). -/
def Obligations.StatusLayout : Prop :=
  (∀ s : State,
    s.status.getLsbD 0 = s.busy ∧ s.status.getLsbD 1 = s.done ∧ s.status.getLsbD 2 = s.err ∧
    s.status.getLsbD 3 = s.matched ∧ s.status.getLsbD 4 = s.werr ∧ s.status.getLsbD 5 = s.aerr ∧
    s.status.extractLsb' 6 2 = 0 ∧ s.status.extractLsb' 8 8 = s.errcode.code ∧
    s.status.extractLsb' 16 2 = s.tstate.code ∧ s.status.extractLsb' 18 14 = 0 ∧
    s.status.extractLsb' 16 2 ≠ 3 ∧ (s.status.extractLsb' 8 8).toNat ≤ 0x0C ∧ s.busy = s.pend.isSome) ∧
  ErrCode.ok.code = 0x00 ∧ ErrCode.illegal.code = 0x01 ∧ ErrCode.badlen.code = 0x02 ∧ ErrCode.overflow.code = 0x03 ∧
  ErrCode.order.code = 0x04 ∧ ErrCode.absent.code = 0x05 ∧ ErrCode.truncated.code = 0x06 ∧ ErrCode.badkey.code = 0x07 ∧
  ErrCode.badfam.code = 0x08 ∧ ErrCode.portrange.code = 0x09 ∧ ErrCode.badtype.code = 0x0A ∧
  ErrCode.badxlen.code = 0x0B ∧ ErrCode.badoff.code = 0x0C ∧
  TState.opened.code = 0 ∧ TState.miDone.code = 1 ∧ TState.fpDone.code = 2

/-- IRQ is CTRL.IRQ_EN and STATUS.DONE, on platform input P_IRQ (60_exceptions R241). That no other input is driven is
read from R247, where the IRQ output at P_IRQ is the SIB's only interrupt line (log 8). -/
def Obligations.IrqLevel : Prop :=
  ∀ s : State, s.irq = ((s.readReg .ctrl).getLsbD 0 && (s.readReg .status).getLsbD 1) ∧
    s.irqLine Config.pIrq = s.irq ∧ ∀ n, n ≠ Config.pIrq → s.irqLine n = false

/-- IRQ is cleared by a STATUS write with bit 1 = 1, the issue of a command, a CTRL write with bit 0 = 0, SRST and hardware
reset; a CTRL write changes no DONE, and with bit 0 = 1 while DONE = 1 it asserts IRQ at once (60_exceptions R242). -/
def Obligations.IrqClearedAndSet : Prop :=
  ∀ (s t : State) (d : Word),
    (d.getLsbD 1 = true → (s.writeReg .status d).irq = false) ∧
    (s.busy = false → (s.writeReg .cmd d).irq = false) ∧
    (d.getLsbD 0 = false → (s.writeReg .ctrl d).irq = false) ∧
    (exec .srst s = .next t → t.irq = false) ∧ (hostExec .reset s).irq = false ∧
    (s.writeReg .ctrl d).done = s.done ∧ (d.getLsbD 0 = true → s.done = true → (s.writeReg .ctrl d).irq = true)

/-! ### Reset and memory -/

/-- Hardware reset: every register reads its reset value, STATUS is 0, PEND is discarded with none of its command's
writes, and IRQ is deasserted, also while BUSY (70_reset R260, R261). -/
def Obligations.HardwareResetClears : Prop :=
  ∀ s t : State, turn s = .host .reset → step s = .next t →
    t.pend = none ∧ t.busy = false ∧ t.readReg .id = 0x53494201 ∧
    (∀ r : Reg, r ≠ .id → t.readReg r = 0x00000000) ∧ t.irq = false

/-- The machine right after reset: ID and every register as 70_reset R261 gives them, nothing pending. -/
def Obligations.ResetState : Prop :=
  State.reset.readReg .id = 0x53494201 ∧ (∀ r : Reg, r ≠ .id → State.reset.readReg r = 0x00000000) ∧
    State.reset.pend = none ∧ State.reset.irq = false

/-- After a hardware reset every byte of MSG and KEY is a free value of its own draw, whatever it held before (70_reset
R262). The free values are Config.unwrittenMsg and Config.unwrittenKey (log 5); the statement rests on no value of
them. -/
def Obligations.BuffersUnspecifiedAfterReset : Prop :=
  ∀ (s : State) (a : Nat),
    (hostExec .reset s).msgAt a = Config.unwrittenMsg (s.resets + 1) a ∧
    (hostExec .reset s).keyAt a = Config.unwrittenKey (s.resets + 1) a

/-- The network byte order primitives, byte by byte, the most significant first: MemRead, MemWrite, be32 and the byte
strings of lengths and numbers, MemBytes and KeyBytes. MemRead after MemWrite at the same place gives the value's low 8n
bits, and MemWrite leaves every other byte and every other field alone (00_scope R16). -/
def Obligations.MemReadAfterMemWrite : Prop :=
  ∀ (s : State) (a n v : Nat),
    (s.memWrite a n v).memRead a n = v % 256 ^ n ∧
    (∀ x, (x < a ∨ a + n ≤ x) → (s.memWrite a n v).msgAt x = s.msgAt x) ∧
    s.memWrite a n v = { s with msg := (s.memWrite a n v).msg } ∧
    (∀ i, i < n → ((s.memWrite a n v).msgAt (a + i)).toNat = v / 2 ^ (8 * (n - 1 - i)) % 2 ^ 8) ∧
    s.memRead a 0 = 0 ∧ s.memRead a (n + 1) = s.memRead a n * 256 + (s.msgAt (a + n)).toNat ∧
    (beBytes n v).length = n ∧
    (∀ i, i < n → ((beBytes n v).getD i 0).toNat = v / 2 ^ (8 * (n - 1 - i)) % 2 ^ 8) ∧
    (∀ w : Word, be32 w = [w.extractLsb' 24 8, w.extractLsb' 16 8, w.extractLsb' 8 8, w.extractLsb' 0 8]) ∧
    s.memBytes a n = (List.range n).map (fun i => s.msgAt (a + i)) ∧ s.keyBytes n = (List.range n).map s.keyAt

/-- What each host statement does (00_scope R22, 30_encoding R130). A branch tests bit 0, 3, 3 or 2 of the last read value
and goes to its label or to the next statement. A read is the bus read, whose value it keeps (that a read of MSG or KEY keeps
its value too is the model's choice, log 15: R130 says it of RD REG only), a write is the bus write, and Reset is a hardware reset (70_reset R260, R261; that the host's own data stay is log 7, and the count of resets log
5), each with the host one statement further. Labels as statement indices are the model's (log 3). -/
def Obligations.HostBranchesTestLastRead : Prop :=
  ∀ (s : State) (n : Nat) (addr : BitVec 17) (size : Nat) (d : Word),
    hostExec (.branch .bnz0 n) s = { s with hostPc := if s.lastRead.getLsbD 0 = true then n else s.hostPc + 1 } ∧
    hostExec (.branch .bmatch n) s = { s with hostPc := if s.lastRead.getLsbD 3 = true then n else s.hostPc + 1 } ∧
    hostExec (.branch .bnmatch n) s = { s with hostPc := if s.lastRead.getLsbD 3 = false then n else s.hostPc + 1 } ∧
    hostExec (.branch .berr n) s = { s with hostPc := if s.lastRead.getLsbD 2 = true then n else s.hostPc + 1 } ∧
    hostExec (.read addr size) s =
      { (s.busRead addr size).1 with lastRead := (s.busRead addr size).2, hostPc := s.hostPc + 1 } ∧
    hostExec (.write addr size d) s = { s.busWrite addr size d with hostPc := s.hostPc + 1 } ∧
    hostExec .reset s =
      { State.reset with resets := s.resets + 1, script := s.script, hostPc := s.hostPc + 1, lastRead := s.lastRead,
                         latencies := s.latencies }

/-! ### The functions of the generators -/

/-- CRC-32 by the bitwise definition of 41_fingerprint R160, with its check values (R161); SHA-1's padding, with the least
number of zeros, its schedule, the compression of one block and the blocks in order (42_message_integrity R180 to R182),
with its check values (R183). -/
def Obligations.Crc32AndSha1AsSpecified : Prop :=
  (∀ s : List Byte, crc32 s =
    (s.foldl (fun (c : Word) b => (List.range 8).foldl
        (fun (c : Word) _ => if c.getLsbD 0 = true then (c >>> 1) ^^^ 0xEDB88320 else c >>> 1) (c ^^^ b.setWidth 32))
      0xFFFFFFFF) ^^^ 0xFFFFFFFF) ∧
  crc32 [0x31, 0x32, 0x33, 0x34, 0x35, 0x36, 0x37, 0x38, 0x39] = 0xCBF43926 ∧ crc32 [] = 0x00000000 ∧
  (∀ s : List Byte, ∃ k, shaPad s = s ++ [0x80] ++ List.replicate k 0x00 ++ beBytes 8 (8 * s.length) ∧
    (s.length + 1 + k) % 64 = 56 ∧ ∀ j, j < k → (s.length + 1 + j) % 64 ≠ 56) ∧
  (∀ m : List Byte, m.length = 64 → (shaSchedule m).length = 80 ∧
    (∀ t, t < 16 → ((shaSchedule m).getD t 0).toNat = (m.getD (4 * t) 0).toNat * 2 ^ 24 +
      (m.getD (4 * t + 1) 0).toNat * 2 ^ 16 + (m.getD (4 * t + 2) 0).toNat * 2 ^ 8 + (m.getD (4 * t + 3) 0).toNat) ∧
    (∀ t, 16 ≤ t → t < 80 → (shaSchedule m).getD t 0 =
      ((shaSchedule m).getD (t - 3) 0 ^^^ (shaSchedule m).getD (t - 8) 0 ^^^ (shaSchedule m).getD (t - 14) 0 ^^^
        (shaSchedule m).getD (t - 16) 0).rotateLeft 1)) ∧
  (∀ (h : Sha) (m : List Byte), shaBlock h m =
    let r := (List.range 80).foldl (fun v t =>
      let f := if t < 20 then (v.b &&& v.c) ||| (~~~v.b &&& v.d)
        else if t < 40 then v.b ^^^ v.c ^^^ v.d
        else if t < 60 then (v.b &&& v.c) ||| (v.b &&& v.d) ||| (v.c &&& v.d)
        else v.b ^^^ v.c ^^^ v.d
      let k : Word := if t < 20 then 0x5A827999 else if t < 40 then 0x6ED9EBA1 else if t < 60 then 0x8F1BBCDC
        else 0xCA62C1D6
      Sha.mk (v.a.rotateLeft 5 + f + v.e + k + (shaSchedule m).getD t 0) v.a (v.b.rotateLeft 30) v.c v.d) h
    Sha.mk (h.a + r.a) (h.b + r.b) (h.c + r.c) (h.d + r.d) (h.e + r.e)) ∧
  (∀ s : List Byte, sha1 s =
    let h := (List.range ((shaPad s).length / 64)).foldl
      (fun h i => shaBlock h (((shaPad s).drop (64 * i)).take 64))
      (Sha.mk 0x67452301 0xEFCDAB89 0x98BADCFE 0x10325476 0xC3D2E1F0)
    be32 h.a ++ be32 h.b ++ be32 h.c ++ be32 h.d ++ be32 h.e) ∧
  sha1 [0x61, 0x62, 0x63] =
    be32 0xa9993e36 ++ be32 0x4706816a ++ be32 0xba3e2571 ++ be32 0x7850c26c ++ be32 0x9cd0d89d ∧
  sha1 [] = be32 0xda39a3ee ++ be32 0x5e6b4b0d ++ be32 0x3255bfef ++ be32 0x95601890 ++ be32 0xafd80709 ∧
  sha1 [0x61, 0x62, 0x63, 0x64, 0x62, 0x63, 0x64, 0x65, 0x63, 0x64, 0x65, 0x66, 0x64, 0x65, 0x66, 0x67, 0x65, 0x66,
      0x67, 0x68, 0x66, 0x67, 0x68, 0x69, 0x67, 0x68, 0x69, 0x6a, 0x68, 0x69, 0x6a, 0x6b, 0x69, 0x6a, 0x6b, 0x6c, 0x6a,
      0x6b, 0x6c, 0x6d, 0x6b, 0x6c, 0x6d, 0x6e, 0x6c, 0x6d, 0x6e, 0x6f, 0x6d, 0x6e, 0x6f, 0x70, 0x6e, 0x6f, 0x70, 0x71] =
    be32 0x84983e44 ++ be32 0x1c3bd26e ++ be32 0xbaae4aa1 ++ be32 0xf95129e5 ++ be32 0xe54670f1

/-- HMAC-SHA1: the prepared key K0, hashed above 64 bytes and then padded with zeros to 64, the empty key's K0, and the two
nested hashes; 20 bytes; the check values; and the key a command uses, KEY[0..KEY_LEN) (42_message_integrity R184,
R185). -/
def Obligations.HmacAsSpecified : Prop :=
  (∀ k : List Byte, hmacKey k =
    (if 64 < k.length then sha1 k else k) ++ List.replicate (64 - (if 64 < k.length then sha1 k else k).length) 0x00) ∧
  hmacKey [] = List.replicate 64 0x00 ∧
  (∀ k s : List Byte, hmac k s =
    sha1 (List.zipWith (· ^^^ ·) (hmacKey k) (List.replicate 64 0x5C) ++
      sha1 (List.zipWith (· ^^^ ·) (hmacKey k) (List.replicate 64 0x36) ++ s)) ∧
    (hmacKey k).length = 64 ∧ (hmac k s).length = 20) ∧
  (∀ s : State, macKey s = (List.range s.keyLen.toNat).map s.keyAt) ∧
  hmac (List.replicate 20 0x0b) [0x48, 0x69, 0x20, 0x54, 0x68, 0x65, 0x72, 0x65] =
    be32 0xb6173186 ++ be32 0x55057264 ++ be32 0xe28bc0b6 ++ be32 0xfb378c8e ++ be32 0xf146be00 ∧
  hmac [0x4a, 0x65, 0x66, 0x65] [0x77, 0x68, 0x61, 0x74, 0x20, 0x64, 0x6f, 0x20, 0x79, 0x61, 0x20, 0x77, 0x61, 0x6e,
      0x74, 0x20, 0x66, 0x6f, 0x72, 0x20, 0x6e, 0x6f, 0x74, 0x68, 0x69, 0x6e, 0x67, 0x3f] =
    be32 0xeffcdf6a ++ be32 0xe5eb2fa2 ++ be32 0xd27416d5 ++ be32 0xf184df9c ++ be32 0x259a7c79 ∧
  hmac (List.replicate 80 0xaa) [0x54, 0x65, 0x73, 0x74, 0x20, 0x55, 0x73, 0x69, 0x6e, 0x67, 0x20, 0x4c, 0x61, 0x72,
      0x67, 0x65, 0x72, 0x20, 0x54, 0x68, 0x61, 0x6e, 0x20, 0x42, 0x6c, 0x6f, 0x63, 0x6b, 0x2d, 0x53, 0x69, 0x7a, 0x65,
      0x20, 0x4b, 0x65, 0x79, 0x20, 0x2d, 0x20, 0x48, 0x61, 0x73, 0x68, 0x20, 0x4b, 0x65, 0x79, 0x20, 0x46, 0x69, 0x72,
      0x73, 0x74] =
    be32 0xaa4ae5e1 ++ be32 0x5272d00e ++ be32 0x95705637 ++ be32 0xce8a3b55 ++ be32 0xed402112
end

