-- ==== Sys2Proof/Laws/Bytes.lean ====
section
/-! SUPPORT. Byte strings and big-endian values: lengths, round trips, and XOR is its own inverse. -/

namespace Sys2Proof.Machine

open Sys2Proof

@[simp] theorem beBytes_length (n v : Nat) : (beBytes n v).length = n := by simp [beBytes]

@[simp] theorem be32_length (w : Word) : (be32 w).length = 4 := by simp [be32]

@[simp] theorem zeros_length (n : Nat) : (zeros n).length = n := by simp [zeros]

@[simp] theorem xorb_length (s t : List Byte) : (xorb s t).length = min s.length t.length := by simp [xorb]

@[simp] theorem beNat_nil : beNat [] = 0 := rfl

theorem beNat_snoc (bs : List Byte) (b : Byte) : beNat (bs ++ [b]) = beNat bs * 256 + b.toNat := by
  simp [beNat]

theorem beNat_lt (bs : List Byte) : beNat bs < 256 ^ bs.length := by
  induction bs using List.reverseRecOn with
  | nil => simp
  | append_singleton bs b ih =>
    rw [beNat_snoc, List.length_append, List.length_singleton, pow_succ]
    have := b.isLt
    omega

/-- The n + 1 bytes of a value: those of the value without its last byte, then the last byte. -/
theorem beBytes_succ (n v : Nat) : beBytes (n + 1) v = beBytes n (v / 256) ++ [BitVec.ofNat 8 v] := by
  simp only [beBytes, List.range_succ, List.map_append, List.map_cons, List.map_nil]
  congr 1
  · apply List.map_congr_left
    intro i hi
    have hi := List.mem_range.mp hi
    rw [show n + 1 - 1 - i = (n - 1 - i) + 1 by omega, pow_succ', Nat.div_div_eq_div_mul]
  · simp

/-- Writing a value in network order and reading it back gives its low 8n bits. -/
theorem beNat_beBytes (n v : Nat) : beNat (beBytes n v) = v % 256 ^ n := by
  induction n generalizing v with
  | zero => simp [beBytes, Nat.mod_one]
  | succ n ih =>
    rw [beBytes_succ, beNat_snoc, ih, BitVec.toNat_ofNat]
    have h := Nat.mod_mul (x := v) (a := 256) (b := 256 ^ n)
    rw [pow_succ' 256 n, h]
    omega

/-- Reading a byte string as a value and writing it back gives the string. -/
theorem beBytes_beNat (bs : List Byte) : beBytes bs.length (beNat bs) = bs := by
  induction bs using List.reverseRecOn with
  | nil => simp [beBytes]
  | append_singleton bs b ih =>
    have hb := b.isLt
    rw [List.length_append, List.length_singleton, beBytes_succ, beNat_snoc,
      show (beNat bs * 256 + b.toNat) / 256 = beNat bs by omega, ih]
    congr 2
    apply BitVec.eq_of_toNat_eq
    rw [BitVec.toNat_ofNat]
    omega

@[simp] theorem wordOf_be32 (w : Word) : wordOf (be32 w) = w := by
  apply BitVec.eq_of_toNat_eq
  rw [wordOf, be32, beNat_beBytes, BitVec.toNat_ofNat]
  have := w.isLt
  omega

theorem be32_wordOf (bs : List Byte) (h : bs.length = 4) : be32 (wordOf bs) = bs := by
  have hlt := beNat_lt bs
  rw [h] at hlt
  rw [be32, wordOf, BitVec.toNat_ofNat, Nat.mod_eq_of_lt (by omega)]
  conv_rhs => rw [← beBytes_beNat bs, h]

theorem beNat_append (s t : List Byte) : beNat (s ++ t) = beNat s * 256 ^ t.length + beNat t := by
  induction t using List.reverseRecOn with
  | nil => simp
  | append_singleton t b ih =>
    rw [← List.append_assoc, beNat_snoc, ih, beNat_snoc, List.length_append, List.length_singleton, pow_succ]
    ring

theorem xorb_snoc (s t : List Byte) (a b : Byte) (h : s.length = t.length) :
    xorb (s ++ [a]) (t ++ [b]) = xorb s t ++ [a ^^^ b] := by
  simp [xorb, List.zipWith_append, h]

/-- The value of a masked string is the masked value. -/
theorem beNat_xorb (s t : List Byte) (h : s.length = t.length) : beNat (xorb s t) = beNat s ^^^ beNat t := by
  induction s using List.reverseRecOn generalizing t with
  | nil =>
    cases t with
    | nil => rfl
    | cons => simp at h
  | append_singleton s a ih =>
    rcases List.eq_nil_or_concat t with rfl | ⟨t, b, rfl⟩
    · simp at h
    · rw [List.concat_eq_append] at h ⊢
      simp only [List.length_append, List.length_singleton, Nat.add_right_cancel_iff] at h
      rw [xorb_snoc _ _ _ _ h, beNat_snoc, beNat_snoc, beNat_snoc, ih t h]
      have ha := a.isLt
      have hb := b.isLt
      apply Nat.eq_of_testBit_eq
      intro i
      rw [show (256 : Nat) = 2 ^ 8 from rfl]
      simp only [BitVec.toNat_xor, Nat.testBit_xor]
      rw [Nat.mul_comm, Nat.mul_comm (beNat s), Nat.mul_comm (beNat t)]
      rw [Nat.testBit_two_pow_mul_add _ (by simpa using Nat.xor_lt_two_pow ha hb), Nat.testBit_two_pow_mul_add _ ha,
        Nat.testBit_two_pow_mul_add _ hb]
      split <;> simp [Nat.testBit_xor]

theorem wordOf_xorb (s t : List Byte) (h : s.length = t.length) : wordOf (xorb s t) = wordOf s ^^^ wordOf t := by
  apply BitVec.eq_of_toNat_eq
  simp only [wordOf, beNat_xorb s t h, BitVec.toNat_ofNat, BitVec.toNat_xor]
  exact Nat.xor_mod_two_pow

/-- XOR with the same string twice gives the first string back (40_xor_address R149). -/
theorem xorb_xorb (s t : List Byte) (h : s.length ≤ t.length) : xorb (xorb s t) t = s := by
  induction s generalizing t with
  | nil => simp [xorb]
  | cons a s ih =>
    cases t with
    | nil => simp at h
    | cons b t =>
      simp only [List.length_cons, Nat.add_le_add_iff_right] at h
      simp only [xorb, List.zipWith_cons_cons, BitVec.xor_assoc, BitVec.xor_self, BitVec.xor_zero]
      exact congrArg _ (ih t h)

theorem xorPort_xorPort (xm : BitVec 16) (p : Word) : xorPort xm (xorPort xm p) = p := by
  simp [xorPort]

/-- The four words of an address string built from four words. -/
theorem wordAt_be32 (a b c d : Word) (rest : List Byte) :
    wordAt (be32 a ++ be32 b ++ be32 c ++ be32 d ++ rest) 0 = a ∧
    wordAt (be32 a ++ be32 b ++ be32 c ++ be32 d ++ rest) 1 = b ∧
    wordAt (be32 a ++ be32 b ++ be32 c ++ be32 d ++ rest) 2 = c ∧
    wordAt (be32 a ++ be32 b ++ be32 c ++ be32 d ++ rest) 3 = d := by
  simp [wordAt, List.append_assoc, List.drop_append, List.drop_eq_nil_of_le]

end Sys2Proof.Machine
end

