-- ==== Sys2Proof/Laws/State.lean ====
section
/-! SUPPORT. What each named update of the state does to each field: one lemma per field per update. -/

namespace Sys2Proof.Machine

open Sys2Proof

variable (s : State)

/-! ### storeMsg -/

@[simp] theorem State.storeMsg_irqEn (a : Nat) (bs : List Byte) : (s.storeMsg a bs).irqEn = s.irqEn := rfl
@[simp] theorem State.storeMsg_done (a : Nat) (bs : List Byte) : (s.storeMsg a bs).done = s.done := rfl
@[simp] theorem State.storeMsg_err (a : Nat) (bs : List Byte) : (s.storeMsg a bs).err = s.err := rfl
@[simp] theorem State.storeMsg_matched (a : Nat) (bs : List Byte) : (s.storeMsg a bs).matched = s.matched := rfl
@[simp] theorem State.storeMsg_werr (a : Nat) (bs : List Byte) : (s.storeMsg a bs).werr = s.werr := rfl
@[simp] theorem State.storeMsg_aerr (a : Nat) (bs : List Byte) : (s.storeMsg a bs).aerr = s.aerr := rfl
@[simp] theorem State.storeMsg_errcode (a : Nat) (bs : List Byte) : (s.storeMsg a bs).errcode = s.errcode := rfl
@[simp] theorem State.storeMsg_tstate (a : Nat) (bs : List Byte) : (s.storeMsg a bs).tstate = s.tstate := rfl
@[simp] theorem State.storeMsg_pend (a : Nat) (bs : List Byte) : (s.storeMsg a bs).pend = s.pend := rfl
@[simp] theorem State.storeMsg_msgLen (a : Nat) (bs : List Byte) : (s.storeMsg a bs).msgLen = s.msgLen := rfl
@[simp] theorem State.storeMsg_attrType (a : Nat) (bs : List Byte) : (s.storeMsg a bs).attrType = s.attrType := rfl
@[simp] theorem State.storeMsg_attrOff (a : Nat) (bs : List Byte) : (s.storeMsg a bs).attrOff = s.attrOff := rfl
@[simp] theorem State.storeMsg_keyLen (a : Nat) (bs : List Byte) : (s.storeMsg a bs).keyLen = s.keyLen := rfl
@[simp] theorem State.storeMsg_xaFamily (a : Nat) (bs : List Byte) : (s.storeMsg a bs).xaFamily = s.xaFamily := rfl
@[simp] theorem State.storeMsg_xaPort (a : Nat) (bs : List Byte) : (s.storeMsg a bs).xaPort = s.xaPort := rfl
@[simp] theorem State.storeMsg_xaAddr0 (a : Nat) (bs : List Byte) : (s.storeMsg a bs).xaAddr0 = s.xaAddr0 := rfl
@[simp] theorem State.storeMsg_xaAddr1 (a : Nat) (bs : List Byte) : (s.storeMsg a bs).xaAddr1 = s.xaAddr1 := rfl
@[simp] theorem State.storeMsg_xaAddr2 (a : Nat) (bs : List Byte) : (s.storeMsg a bs).xaAddr2 = s.xaAddr2 := rfl
@[simp] theorem State.storeMsg_xaAddr3 (a : Nat) (bs : List Byte) : (s.storeMsg a bs).xaAddr3 = s.xaAddr3 := rfl
@[simp] theorem State.storeMsg_xaOff (a : Nat) (bs : List Byte) : (s.storeMsg a bs).xaOff = s.xaOff := rfl
@[simp] theorem State.storeMsg_fpValue (a : Nat) (bs : List Byte) : (s.storeMsg a bs).fpValue = s.fpValue := rfl
@[simp] theorem State.storeMsg_mac0 (a : Nat) (bs : List Byte) : (s.storeMsg a bs).mac0 = s.mac0 := rfl
@[simp] theorem State.storeMsg_mac1 (a : Nat) (bs : List Byte) : (s.storeMsg a bs).mac1 = s.mac1 := rfl
@[simp] theorem State.storeMsg_mac2 (a : Nat) (bs : List Byte) : (s.storeMsg a bs).mac2 = s.mac2 := rfl
@[simp] theorem State.storeMsg_mac3 (a : Nat) (bs : List Byte) : (s.storeMsg a bs).mac3 = s.mac3 := rfl
@[simp] theorem State.storeMsg_mac4 (a : Nat) (bs : List Byte) : (s.storeMsg a bs).mac4 = s.mac4 := rfl
@[simp] theorem State.storeMsg_msg (a : Nat) (bs : List Byte) : (s.storeMsg a bs).msg = Memory.putBytes s.msg a bs := rfl
@[simp] theorem State.storeMsg_key (a : Nat) (bs : List Byte) : (s.storeMsg a bs).key = s.key := rfl
@[simp] theorem State.storeMsg_resets (a : Nat) (bs : List Byte) : (s.storeMsg a bs).resets = s.resets := rfl
@[simp] theorem State.storeMsg_script (a : Nat) (bs : List Byte) : (s.storeMsg a bs).script = s.script := rfl
@[simp] theorem State.storeMsg_hostPc (a : Nat) (bs : List Byte) : (s.storeMsg a bs).hostPc = s.hostPc := rfl
@[simp] theorem State.storeMsg_lastRead (a : Nat) (bs : List Byte) : (s.storeMsg a bs).lastRead = s.lastRead := rfl
@[simp] theorem State.storeMsg_latencies (a : Nat) (bs : List Byte) : (s.storeMsg a bs).latencies = s.latencies := rfl

/-! ### storeKey -/

@[simp] theorem State.storeKey_irqEn (k : Nat) (bs : List Byte) : (s.storeKey k bs).irqEn = s.irqEn := rfl
@[simp] theorem State.storeKey_done (k : Nat) (bs : List Byte) : (s.storeKey k bs).done = s.done := rfl
@[simp] theorem State.storeKey_err (k : Nat) (bs : List Byte) : (s.storeKey k bs).err = s.err := rfl
@[simp] theorem State.storeKey_matched (k : Nat) (bs : List Byte) : (s.storeKey k bs).matched = s.matched := rfl
@[simp] theorem State.storeKey_werr (k : Nat) (bs : List Byte) : (s.storeKey k bs).werr = s.werr := rfl
@[simp] theorem State.storeKey_aerr (k : Nat) (bs : List Byte) : (s.storeKey k bs).aerr = s.aerr := rfl
@[simp] theorem State.storeKey_errcode (k : Nat) (bs : List Byte) : (s.storeKey k bs).errcode = s.errcode := rfl
@[simp] theorem State.storeKey_tstate (k : Nat) (bs : List Byte) : (s.storeKey k bs).tstate = s.tstate := rfl
@[simp] theorem State.storeKey_pend (k : Nat) (bs : List Byte) : (s.storeKey k bs).pend = s.pend := rfl
@[simp] theorem State.storeKey_msgLen (k : Nat) (bs : List Byte) : (s.storeKey k bs).msgLen = s.msgLen := rfl
@[simp] theorem State.storeKey_attrType (k : Nat) (bs : List Byte) : (s.storeKey k bs).attrType = s.attrType := rfl
@[simp] theorem State.storeKey_attrOff (k : Nat) (bs : List Byte) : (s.storeKey k bs).attrOff = s.attrOff := rfl
@[simp] theorem State.storeKey_keyLen (k : Nat) (bs : List Byte) : (s.storeKey k bs).keyLen = s.keyLen := rfl
@[simp] theorem State.storeKey_xaFamily (k : Nat) (bs : List Byte) : (s.storeKey k bs).xaFamily = s.xaFamily := rfl
@[simp] theorem State.storeKey_xaPort (k : Nat) (bs : List Byte) : (s.storeKey k bs).xaPort = s.xaPort := rfl
@[simp] theorem State.storeKey_xaAddr0 (k : Nat) (bs : List Byte) : (s.storeKey k bs).xaAddr0 = s.xaAddr0 := rfl
@[simp] theorem State.storeKey_xaAddr1 (k : Nat) (bs : List Byte) : (s.storeKey k bs).xaAddr1 = s.xaAddr1 := rfl
@[simp] theorem State.storeKey_xaAddr2 (k : Nat) (bs : List Byte) : (s.storeKey k bs).xaAddr2 = s.xaAddr2 := rfl
@[simp] theorem State.storeKey_xaAddr3 (k : Nat) (bs : List Byte) : (s.storeKey k bs).xaAddr3 = s.xaAddr3 := rfl
@[simp] theorem State.storeKey_xaOff (k : Nat) (bs : List Byte) : (s.storeKey k bs).xaOff = s.xaOff := rfl
@[simp] theorem State.storeKey_fpValue (k : Nat) (bs : List Byte) : (s.storeKey k bs).fpValue = s.fpValue := rfl
@[simp] theorem State.storeKey_mac0 (k : Nat) (bs : List Byte) : (s.storeKey k bs).mac0 = s.mac0 := rfl
@[simp] theorem State.storeKey_mac1 (k : Nat) (bs : List Byte) : (s.storeKey k bs).mac1 = s.mac1 := rfl
@[simp] theorem State.storeKey_mac2 (k : Nat) (bs : List Byte) : (s.storeKey k bs).mac2 = s.mac2 := rfl
@[simp] theorem State.storeKey_mac3 (k : Nat) (bs : List Byte) : (s.storeKey k bs).mac3 = s.mac3 := rfl
@[simp] theorem State.storeKey_mac4 (k : Nat) (bs : List Byte) : (s.storeKey k bs).mac4 = s.mac4 := rfl
@[simp] theorem State.storeKey_msg (k : Nat) (bs : List Byte) : (s.storeKey k bs).msg = s.msg := rfl
@[simp] theorem State.storeKey_key (k : Nat) (bs : List Byte) : (s.storeKey k bs).key = Memory.putBytes s.key k bs := rfl
@[simp] theorem State.storeKey_resets (k : Nat) (bs : List Byte) : (s.storeKey k bs).resets = s.resets := rfl
@[simp] theorem State.storeKey_script (k : Nat) (bs : List Byte) : (s.storeKey k bs).script = s.script := rfl
@[simp] theorem State.storeKey_hostPc (k : Nat) (bs : List Byte) : (s.storeKey k bs).hostPc = s.hostPc := rfl
@[simp] theorem State.storeKey_lastRead (k : Nat) (bs : List Byte) : (s.storeKey k bs).lastRead = s.lastRead := rfl
@[simp] theorem State.storeKey_latencies (k : Nat) (bs : List Byte) : (s.storeKey k bs).latencies = s.latencies := rfl

/-! ### memWrite -/

@[simp] theorem State.memWrite_irqEn (a n v : Nat) : (s.memWrite a n v).irqEn = s.irqEn := rfl
@[simp] theorem State.memWrite_done (a n v : Nat) : (s.memWrite a n v).done = s.done := rfl
@[simp] theorem State.memWrite_err (a n v : Nat) : (s.memWrite a n v).err = s.err := rfl
@[simp] theorem State.memWrite_matched (a n v : Nat) : (s.memWrite a n v).matched = s.matched := rfl
@[simp] theorem State.memWrite_werr (a n v : Nat) : (s.memWrite a n v).werr = s.werr := rfl
@[simp] theorem State.memWrite_aerr (a n v : Nat) : (s.memWrite a n v).aerr = s.aerr := rfl
@[simp] theorem State.memWrite_errcode (a n v : Nat) : (s.memWrite a n v).errcode = s.errcode := rfl
@[simp] theorem State.memWrite_tstate (a n v : Nat) : (s.memWrite a n v).tstate = s.tstate := rfl
@[simp] theorem State.memWrite_pend (a n v : Nat) : (s.memWrite a n v).pend = s.pend := rfl
@[simp] theorem State.memWrite_msgLen (a n v : Nat) : (s.memWrite a n v).msgLen = s.msgLen := rfl
@[simp] theorem State.memWrite_attrType (a n v : Nat) : (s.memWrite a n v).attrType = s.attrType := rfl
@[simp] theorem State.memWrite_attrOff (a n v : Nat) : (s.memWrite a n v).attrOff = s.attrOff := rfl
@[simp] theorem State.memWrite_keyLen (a n v : Nat) : (s.memWrite a n v).keyLen = s.keyLen := rfl
@[simp] theorem State.memWrite_xaFamily (a n v : Nat) : (s.memWrite a n v).xaFamily = s.xaFamily := rfl
@[simp] theorem State.memWrite_xaPort (a n v : Nat) : (s.memWrite a n v).xaPort = s.xaPort := rfl
@[simp] theorem State.memWrite_xaAddr0 (a n v : Nat) : (s.memWrite a n v).xaAddr0 = s.xaAddr0 := rfl
@[simp] theorem State.memWrite_xaAddr1 (a n v : Nat) : (s.memWrite a n v).xaAddr1 = s.xaAddr1 := rfl
@[simp] theorem State.memWrite_xaAddr2 (a n v : Nat) : (s.memWrite a n v).xaAddr2 = s.xaAddr2 := rfl
@[simp] theorem State.memWrite_xaAddr3 (a n v : Nat) : (s.memWrite a n v).xaAddr3 = s.xaAddr3 := rfl
@[simp] theorem State.memWrite_xaOff (a n v : Nat) : (s.memWrite a n v).xaOff = s.xaOff := rfl
@[simp] theorem State.memWrite_fpValue (a n v : Nat) : (s.memWrite a n v).fpValue = s.fpValue := rfl
@[simp] theorem State.memWrite_mac0 (a n v : Nat) : (s.memWrite a n v).mac0 = s.mac0 := rfl
@[simp] theorem State.memWrite_mac1 (a n v : Nat) : (s.memWrite a n v).mac1 = s.mac1 := rfl
@[simp] theorem State.memWrite_mac2 (a n v : Nat) : (s.memWrite a n v).mac2 = s.mac2 := rfl
@[simp] theorem State.memWrite_mac3 (a n v : Nat) : (s.memWrite a n v).mac3 = s.mac3 := rfl
@[simp] theorem State.memWrite_mac4 (a n v : Nat) : (s.memWrite a n v).mac4 = s.mac4 := rfl
@[simp] theorem State.memWrite_msg (a n v : Nat) : (s.memWrite a n v).msg = Memory.putBytes s.msg a (beBytes n v) := rfl
@[simp] theorem State.memWrite_key (a n v : Nat) : (s.memWrite a n v).key = s.key := rfl
@[simp] theorem State.memWrite_resets (a n v : Nat) : (s.memWrite a n v).resets = s.resets := rfl
@[simp] theorem State.memWrite_script (a n v : Nat) : (s.memWrite a n v).script = s.script := rfl
@[simp] theorem State.memWrite_hostPc (a n v : Nat) : (s.memWrite a n v).hostPc = s.hostPc := rfl
@[simp] theorem State.memWrite_lastRead (a n v : Nat) : (s.memWrite a n v).lastRead = s.lastRead := rfl
@[simp] theorem State.memWrite_latencies (a n v : Nat) : (s.memWrite a n v).latencies = s.latencies := rfl

/-! ### setIrqEn -/

@[simp] theorem State.setIrqEn_irqEn (b : Bool) : (s.setIrqEn b).irqEn = b := rfl
@[simp] theorem State.setIrqEn_done (b : Bool) : (s.setIrqEn b).done = s.done := rfl
@[simp] theorem State.setIrqEn_err (b : Bool) : (s.setIrqEn b).err = s.err := rfl
@[simp] theorem State.setIrqEn_matched (b : Bool) : (s.setIrqEn b).matched = s.matched := rfl
@[simp] theorem State.setIrqEn_werr (b : Bool) : (s.setIrqEn b).werr = s.werr := rfl
@[simp] theorem State.setIrqEn_aerr (b : Bool) : (s.setIrqEn b).aerr = s.aerr := rfl
@[simp] theorem State.setIrqEn_errcode (b : Bool) : (s.setIrqEn b).errcode = s.errcode := rfl
@[simp] theorem State.setIrqEn_tstate (b : Bool) : (s.setIrqEn b).tstate = s.tstate := rfl
@[simp] theorem State.setIrqEn_pend (b : Bool) : (s.setIrqEn b).pend = s.pend := rfl
@[simp] theorem State.setIrqEn_msgLen (b : Bool) : (s.setIrqEn b).msgLen = s.msgLen := rfl
@[simp] theorem State.setIrqEn_attrType (b : Bool) : (s.setIrqEn b).attrType = s.attrType := rfl
@[simp] theorem State.setIrqEn_attrOff (b : Bool) : (s.setIrqEn b).attrOff = s.attrOff := rfl
@[simp] theorem State.setIrqEn_keyLen (b : Bool) : (s.setIrqEn b).keyLen = s.keyLen := rfl
@[simp] theorem State.setIrqEn_xaFamily (b : Bool) : (s.setIrqEn b).xaFamily = s.xaFamily := rfl
@[simp] theorem State.setIrqEn_xaPort (b : Bool) : (s.setIrqEn b).xaPort = s.xaPort := rfl
@[simp] theorem State.setIrqEn_xaAddr0 (b : Bool) : (s.setIrqEn b).xaAddr0 = s.xaAddr0 := rfl
@[simp] theorem State.setIrqEn_xaAddr1 (b : Bool) : (s.setIrqEn b).xaAddr1 = s.xaAddr1 := rfl
@[simp] theorem State.setIrqEn_xaAddr2 (b : Bool) : (s.setIrqEn b).xaAddr2 = s.xaAddr2 := rfl
@[simp] theorem State.setIrqEn_xaAddr3 (b : Bool) : (s.setIrqEn b).xaAddr3 = s.xaAddr3 := rfl
@[simp] theorem State.setIrqEn_xaOff (b : Bool) : (s.setIrqEn b).xaOff = s.xaOff := rfl
@[simp] theorem State.setIrqEn_fpValue (b : Bool) : (s.setIrqEn b).fpValue = s.fpValue := rfl
@[simp] theorem State.setIrqEn_mac0 (b : Bool) : (s.setIrqEn b).mac0 = s.mac0 := rfl
@[simp] theorem State.setIrqEn_mac1 (b : Bool) : (s.setIrqEn b).mac1 = s.mac1 := rfl
@[simp] theorem State.setIrqEn_mac2 (b : Bool) : (s.setIrqEn b).mac2 = s.mac2 := rfl
@[simp] theorem State.setIrqEn_mac3 (b : Bool) : (s.setIrqEn b).mac3 = s.mac3 := rfl
@[simp] theorem State.setIrqEn_mac4 (b : Bool) : (s.setIrqEn b).mac4 = s.mac4 := rfl
@[simp] theorem State.setIrqEn_msg (b : Bool) : (s.setIrqEn b).msg = s.msg := rfl
@[simp] theorem State.setIrqEn_key (b : Bool) : (s.setIrqEn b).key = s.key := rfl
@[simp] theorem State.setIrqEn_resets (b : Bool) : (s.setIrqEn b).resets = s.resets := rfl
@[simp] theorem State.setIrqEn_script (b : Bool) : (s.setIrqEn b).script = s.script := rfl
@[simp] theorem State.setIrqEn_hostPc (b : Bool) : (s.setIrqEn b).hostPc = s.hostPc := rfl
@[simp] theorem State.setIrqEn_lastRead (b : Bool) : (s.setIrqEn b).lastRead = s.lastRead := rfl
@[simp] theorem State.setIrqEn_latencies (b : Bool) : (s.setIrqEn b).latencies = s.latencies := rfl

/-! ### setMsgLen -/

@[simp] theorem State.setMsgLen_irqEn (v : Word) (t : TState) : (s.setMsgLen v t).irqEn = s.irqEn := rfl
@[simp] theorem State.setMsgLen_done (v : Word) (t : TState) : (s.setMsgLen v t).done = s.done := rfl
@[simp] theorem State.setMsgLen_err (v : Word) (t : TState) : (s.setMsgLen v t).err = s.err := rfl
@[simp] theorem State.setMsgLen_matched (v : Word) (t : TState) : (s.setMsgLen v t).matched = s.matched := rfl
@[simp] theorem State.setMsgLen_werr (v : Word) (t : TState) : (s.setMsgLen v t).werr = s.werr := rfl
@[simp] theorem State.setMsgLen_aerr (v : Word) (t : TState) : (s.setMsgLen v t).aerr = s.aerr := rfl
@[simp] theorem State.setMsgLen_errcode (v : Word) (t : TState) : (s.setMsgLen v t).errcode = s.errcode := rfl
@[simp] theorem State.setMsgLen_tstate (v : Word) (t : TState) : (s.setMsgLen v t).tstate = t := rfl
@[simp] theorem State.setMsgLen_pend (v : Word) (t : TState) : (s.setMsgLen v t).pend = s.pend := rfl
@[simp] theorem State.setMsgLen_msgLen (v : Word) (t : TState) : (s.setMsgLen v t).msgLen = v := rfl
@[simp] theorem State.setMsgLen_attrType (v : Word) (t : TState) : (s.setMsgLen v t).attrType = s.attrType := rfl
@[simp] theorem State.setMsgLen_attrOff (v : Word) (t : TState) : (s.setMsgLen v t).attrOff = s.attrOff := rfl
@[simp] theorem State.setMsgLen_keyLen (v : Word) (t : TState) : (s.setMsgLen v t).keyLen = s.keyLen := rfl
@[simp] theorem State.setMsgLen_xaFamily (v : Word) (t : TState) : (s.setMsgLen v t).xaFamily = s.xaFamily := rfl
@[simp] theorem State.setMsgLen_xaPort (v : Word) (t : TState) : (s.setMsgLen v t).xaPort = s.xaPort := rfl
@[simp] theorem State.setMsgLen_xaAddr0 (v : Word) (t : TState) : (s.setMsgLen v t).xaAddr0 = s.xaAddr0 := rfl
@[simp] theorem State.setMsgLen_xaAddr1 (v : Word) (t : TState) : (s.setMsgLen v t).xaAddr1 = s.xaAddr1 := rfl
@[simp] theorem State.setMsgLen_xaAddr2 (v : Word) (t : TState) : (s.setMsgLen v t).xaAddr2 = s.xaAddr2 := rfl
@[simp] theorem State.setMsgLen_xaAddr3 (v : Word) (t : TState) : (s.setMsgLen v t).xaAddr3 = s.xaAddr3 := rfl
@[simp] theorem State.setMsgLen_xaOff (v : Word) (t : TState) : (s.setMsgLen v t).xaOff = s.xaOff := rfl
@[simp] theorem State.setMsgLen_fpValue (v : Word) (t : TState) : (s.setMsgLen v t).fpValue = s.fpValue := rfl
@[simp] theorem State.setMsgLen_mac0 (v : Word) (t : TState) : (s.setMsgLen v t).mac0 = s.mac0 := rfl
@[simp] theorem State.setMsgLen_mac1 (v : Word) (t : TState) : (s.setMsgLen v t).mac1 = s.mac1 := rfl
@[simp] theorem State.setMsgLen_mac2 (v : Word) (t : TState) : (s.setMsgLen v t).mac2 = s.mac2 := rfl
@[simp] theorem State.setMsgLen_mac3 (v : Word) (t : TState) : (s.setMsgLen v t).mac3 = s.mac3 := rfl
@[simp] theorem State.setMsgLen_mac4 (v : Word) (t : TState) : (s.setMsgLen v t).mac4 = s.mac4 := rfl
@[simp] theorem State.setMsgLen_msg (v : Word) (t : TState) : (s.setMsgLen v t).msg = s.msg := rfl
@[simp] theorem State.setMsgLen_key (v : Word) (t : TState) : (s.setMsgLen v t).key = s.key := rfl
@[simp] theorem State.setMsgLen_resets (v : Word) (t : TState) : (s.setMsgLen v t).resets = s.resets := rfl
@[simp] theorem State.setMsgLen_script (v : Word) (t : TState) : (s.setMsgLen v t).script = s.script := rfl
@[simp] theorem State.setMsgLen_hostPc (v : Word) (t : TState) : (s.setMsgLen v t).hostPc = s.hostPc := rfl
@[simp] theorem State.setMsgLen_lastRead (v : Word) (t : TState) : (s.setMsgLen v t).lastRead = s.lastRead := rfl
@[simp] theorem State.setMsgLen_latencies (v : Word) (t : TState) : (s.setMsgLen v t).latencies = s.latencies := rfl

/-! ### setAttrType -/

@[simp] theorem State.setAttrType_irqEn (v : BitVec 16) : (s.setAttrType v).irqEn = s.irqEn := rfl
@[simp] theorem State.setAttrType_done (v : BitVec 16) : (s.setAttrType v).done = s.done := rfl
@[simp] theorem State.setAttrType_err (v : BitVec 16) : (s.setAttrType v).err = s.err := rfl
@[simp] theorem State.setAttrType_matched (v : BitVec 16) : (s.setAttrType v).matched = s.matched := rfl
@[simp] theorem State.setAttrType_werr (v : BitVec 16) : (s.setAttrType v).werr = s.werr := rfl
@[simp] theorem State.setAttrType_aerr (v : BitVec 16) : (s.setAttrType v).aerr = s.aerr := rfl
@[simp] theorem State.setAttrType_errcode (v : BitVec 16) : (s.setAttrType v).errcode = s.errcode := rfl
@[simp] theorem State.setAttrType_tstate (v : BitVec 16) : (s.setAttrType v).tstate = s.tstate := rfl
@[simp] theorem State.setAttrType_pend (v : BitVec 16) : (s.setAttrType v).pend = s.pend := rfl
@[simp] theorem State.setAttrType_msgLen (v : BitVec 16) : (s.setAttrType v).msgLen = s.msgLen := rfl
@[simp] theorem State.setAttrType_attrType (v : BitVec 16) : (s.setAttrType v).attrType = v := rfl
@[simp] theorem State.setAttrType_attrOff (v : BitVec 16) : (s.setAttrType v).attrOff = s.attrOff := rfl
@[simp] theorem State.setAttrType_keyLen (v : BitVec 16) : (s.setAttrType v).keyLen = s.keyLen := rfl
@[simp] theorem State.setAttrType_xaFamily (v : BitVec 16) : (s.setAttrType v).xaFamily = s.xaFamily := rfl
@[simp] theorem State.setAttrType_xaPort (v : BitVec 16) : (s.setAttrType v).xaPort = s.xaPort := rfl
@[simp] theorem State.setAttrType_xaAddr0 (v : BitVec 16) : (s.setAttrType v).xaAddr0 = s.xaAddr0 := rfl
@[simp] theorem State.setAttrType_xaAddr1 (v : BitVec 16) : (s.setAttrType v).xaAddr1 = s.xaAddr1 := rfl
@[simp] theorem State.setAttrType_xaAddr2 (v : BitVec 16) : (s.setAttrType v).xaAddr2 = s.xaAddr2 := rfl
@[simp] theorem State.setAttrType_xaAddr3 (v : BitVec 16) : (s.setAttrType v).xaAddr3 = s.xaAddr3 := rfl
@[simp] theorem State.setAttrType_xaOff (v : BitVec 16) : (s.setAttrType v).xaOff = s.xaOff := rfl
@[simp] theorem State.setAttrType_fpValue (v : BitVec 16) : (s.setAttrType v).fpValue = s.fpValue := rfl
@[simp] theorem State.setAttrType_mac0 (v : BitVec 16) : (s.setAttrType v).mac0 = s.mac0 := rfl
@[simp] theorem State.setAttrType_mac1 (v : BitVec 16) : (s.setAttrType v).mac1 = s.mac1 := rfl
@[simp] theorem State.setAttrType_mac2 (v : BitVec 16) : (s.setAttrType v).mac2 = s.mac2 := rfl
@[simp] theorem State.setAttrType_mac3 (v : BitVec 16) : (s.setAttrType v).mac3 = s.mac3 := rfl
@[simp] theorem State.setAttrType_mac4 (v : BitVec 16) : (s.setAttrType v).mac4 = s.mac4 := rfl
@[simp] theorem State.setAttrType_msg (v : BitVec 16) : (s.setAttrType v).msg = s.msg := rfl
@[simp] theorem State.setAttrType_key (v : BitVec 16) : (s.setAttrType v).key = s.key := rfl
@[simp] theorem State.setAttrType_resets (v : BitVec 16) : (s.setAttrType v).resets = s.resets := rfl
@[simp] theorem State.setAttrType_script (v : BitVec 16) : (s.setAttrType v).script = s.script := rfl
@[simp] theorem State.setAttrType_hostPc (v : BitVec 16) : (s.setAttrType v).hostPc = s.hostPc := rfl
@[simp] theorem State.setAttrType_lastRead (v : BitVec 16) : (s.setAttrType v).lastRead = s.lastRead := rfl
@[simp] theorem State.setAttrType_latencies (v : BitVec 16) : (s.setAttrType v).latencies = s.latencies := rfl

/-! ### setAttrOff -/

@[simp] theorem State.setAttrOff_irqEn (v : Word) : (s.setAttrOff v).irqEn = s.irqEn := rfl
@[simp] theorem State.setAttrOff_done (v : Word) : (s.setAttrOff v).done = s.done := rfl
@[simp] theorem State.setAttrOff_err (v : Word) : (s.setAttrOff v).err = s.err := rfl
@[simp] theorem State.setAttrOff_matched (v : Word) : (s.setAttrOff v).matched = s.matched := rfl
@[simp] theorem State.setAttrOff_werr (v : Word) : (s.setAttrOff v).werr = s.werr := rfl
@[simp] theorem State.setAttrOff_aerr (v : Word) : (s.setAttrOff v).aerr = s.aerr := rfl
@[simp] theorem State.setAttrOff_errcode (v : Word) : (s.setAttrOff v).errcode = s.errcode := rfl
@[simp] theorem State.setAttrOff_tstate (v : Word) : (s.setAttrOff v).tstate = s.tstate := rfl
@[simp] theorem State.setAttrOff_pend (v : Word) : (s.setAttrOff v).pend = s.pend := rfl
@[simp] theorem State.setAttrOff_msgLen (v : Word) : (s.setAttrOff v).msgLen = s.msgLen := rfl
@[simp] theorem State.setAttrOff_attrType (v : Word) : (s.setAttrOff v).attrType = s.attrType := rfl
@[simp] theorem State.setAttrOff_attrOff (v : Word) : (s.setAttrOff v).attrOff = v := rfl
@[simp] theorem State.setAttrOff_keyLen (v : Word) : (s.setAttrOff v).keyLen = s.keyLen := rfl
@[simp] theorem State.setAttrOff_xaFamily (v : Word) : (s.setAttrOff v).xaFamily = s.xaFamily := rfl
@[simp] theorem State.setAttrOff_xaPort (v : Word) : (s.setAttrOff v).xaPort = s.xaPort := rfl
@[simp] theorem State.setAttrOff_xaAddr0 (v : Word) : (s.setAttrOff v).xaAddr0 = s.xaAddr0 := rfl
@[simp] theorem State.setAttrOff_xaAddr1 (v : Word) : (s.setAttrOff v).xaAddr1 = s.xaAddr1 := rfl
@[simp] theorem State.setAttrOff_xaAddr2 (v : Word) : (s.setAttrOff v).xaAddr2 = s.xaAddr2 := rfl
@[simp] theorem State.setAttrOff_xaAddr3 (v : Word) : (s.setAttrOff v).xaAddr3 = s.xaAddr3 := rfl
@[simp] theorem State.setAttrOff_xaOff (v : Word) : (s.setAttrOff v).xaOff = s.xaOff := rfl
@[simp] theorem State.setAttrOff_fpValue (v : Word) : (s.setAttrOff v).fpValue = s.fpValue := rfl
@[simp] theorem State.setAttrOff_mac0 (v : Word) : (s.setAttrOff v).mac0 = s.mac0 := rfl
@[simp] theorem State.setAttrOff_mac1 (v : Word) : (s.setAttrOff v).mac1 = s.mac1 := rfl
@[simp] theorem State.setAttrOff_mac2 (v : Word) : (s.setAttrOff v).mac2 = s.mac2 := rfl
@[simp] theorem State.setAttrOff_mac3 (v : Word) : (s.setAttrOff v).mac3 = s.mac3 := rfl
@[simp] theorem State.setAttrOff_mac4 (v : Word) : (s.setAttrOff v).mac4 = s.mac4 := rfl
@[simp] theorem State.setAttrOff_msg (v : Word) : (s.setAttrOff v).msg = s.msg := rfl
@[simp] theorem State.setAttrOff_key (v : Word) : (s.setAttrOff v).key = s.key := rfl
@[simp] theorem State.setAttrOff_resets (v : Word) : (s.setAttrOff v).resets = s.resets := rfl
@[simp] theorem State.setAttrOff_script (v : Word) : (s.setAttrOff v).script = s.script := rfl
@[simp] theorem State.setAttrOff_hostPc (v : Word) : (s.setAttrOff v).hostPc = s.hostPc := rfl
@[simp] theorem State.setAttrOff_lastRead (v : Word) : (s.setAttrOff v).lastRead = s.lastRead := rfl
@[simp] theorem State.setAttrOff_latencies (v : Word) : (s.setAttrOff v).latencies = s.latencies := rfl

/-! ### setKeyLen -/

@[simp] theorem State.setKeyLen_irqEn (v : Word) : (s.setKeyLen v).irqEn = s.irqEn := rfl
@[simp] theorem State.setKeyLen_done (v : Word) : (s.setKeyLen v).done = s.done := rfl
@[simp] theorem State.setKeyLen_err (v : Word) : (s.setKeyLen v).err = s.err := rfl
@[simp] theorem State.setKeyLen_matched (v : Word) : (s.setKeyLen v).matched = s.matched := rfl
@[simp] theorem State.setKeyLen_werr (v : Word) : (s.setKeyLen v).werr = s.werr := rfl
@[simp] theorem State.setKeyLen_aerr (v : Word) : (s.setKeyLen v).aerr = s.aerr := rfl
@[simp] theorem State.setKeyLen_errcode (v : Word) : (s.setKeyLen v).errcode = s.errcode := rfl
@[simp] theorem State.setKeyLen_tstate (v : Word) : (s.setKeyLen v).tstate = s.tstate := rfl
@[simp] theorem State.setKeyLen_pend (v : Word) : (s.setKeyLen v).pend = s.pend := rfl
@[simp] theorem State.setKeyLen_msgLen (v : Word) : (s.setKeyLen v).msgLen = s.msgLen := rfl
@[simp] theorem State.setKeyLen_attrType (v : Word) : (s.setKeyLen v).attrType = s.attrType := rfl
@[simp] theorem State.setKeyLen_attrOff (v : Word) : (s.setKeyLen v).attrOff = s.attrOff := rfl
@[simp] theorem State.setKeyLen_keyLen (v : Word) : (s.setKeyLen v).keyLen = v := rfl
@[simp] theorem State.setKeyLen_xaFamily (v : Word) : (s.setKeyLen v).xaFamily = s.xaFamily := rfl
@[simp] theorem State.setKeyLen_xaPort (v : Word) : (s.setKeyLen v).xaPort = s.xaPort := rfl
@[simp] theorem State.setKeyLen_xaAddr0 (v : Word) : (s.setKeyLen v).xaAddr0 = s.xaAddr0 := rfl
@[simp] theorem State.setKeyLen_xaAddr1 (v : Word) : (s.setKeyLen v).xaAddr1 = s.xaAddr1 := rfl
@[simp] theorem State.setKeyLen_xaAddr2 (v : Word) : (s.setKeyLen v).xaAddr2 = s.xaAddr2 := rfl
@[simp] theorem State.setKeyLen_xaAddr3 (v : Word) : (s.setKeyLen v).xaAddr3 = s.xaAddr3 := rfl
@[simp] theorem State.setKeyLen_xaOff (v : Word) : (s.setKeyLen v).xaOff = s.xaOff := rfl
@[simp] theorem State.setKeyLen_fpValue (v : Word) : (s.setKeyLen v).fpValue = s.fpValue := rfl
@[simp] theorem State.setKeyLen_mac0 (v : Word) : (s.setKeyLen v).mac0 = s.mac0 := rfl
@[simp] theorem State.setKeyLen_mac1 (v : Word) : (s.setKeyLen v).mac1 = s.mac1 := rfl
@[simp] theorem State.setKeyLen_mac2 (v : Word) : (s.setKeyLen v).mac2 = s.mac2 := rfl
@[simp] theorem State.setKeyLen_mac3 (v : Word) : (s.setKeyLen v).mac3 = s.mac3 := rfl
@[simp] theorem State.setKeyLen_mac4 (v : Word) : (s.setKeyLen v).mac4 = s.mac4 := rfl
@[simp] theorem State.setKeyLen_msg (v : Word) : (s.setKeyLen v).msg = s.msg := rfl
@[simp] theorem State.setKeyLen_key (v : Word) : (s.setKeyLen v).key = s.key := rfl
@[simp] theorem State.setKeyLen_resets (v : Word) : (s.setKeyLen v).resets = s.resets := rfl
@[simp] theorem State.setKeyLen_script (v : Word) : (s.setKeyLen v).script = s.script := rfl
@[simp] theorem State.setKeyLen_hostPc (v : Word) : (s.setKeyLen v).hostPc = s.hostPc := rfl
@[simp] theorem State.setKeyLen_lastRead (v : Word) : (s.setKeyLen v).lastRead = s.lastRead := rfl
@[simp] theorem State.setKeyLen_latencies (v : Word) : (s.setKeyLen v).latencies = s.latencies := rfl

/-! ### setFamily -/

@[simp] theorem State.setFamily_irqEn (v : Byte) : (s.setFamily v).irqEn = s.irqEn := rfl
@[simp] theorem State.setFamily_done (v : Byte) : (s.setFamily v).done = s.done := rfl
@[simp] theorem State.setFamily_err (v : Byte) : (s.setFamily v).err = s.err := rfl
@[simp] theorem State.setFamily_matched (v : Byte) : (s.setFamily v).matched = s.matched := rfl
@[simp] theorem State.setFamily_werr (v : Byte) : (s.setFamily v).werr = s.werr := rfl
@[simp] theorem State.setFamily_aerr (v : Byte) : (s.setFamily v).aerr = s.aerr := rfl
@[simp] theorem State.setFamily_errcode (v : Byte) : (s.setFamily v).errcode = s.errcode := rfl
@[simp] theorem State.setFamily_tstate (v : Byte) : (s.setFamily v).tstate = s.tstate := rfl
@[simp] theorem State.setFamily_pend (v : Byte) : (s.setFamily v).pend = s.pend := rfl
@[simp] theorem State.setFamily_msgLen (v : Byte) : (s.setFamily v).msgLen = s.msgLen := rfl
@[simp] theorem State.setFamily_attrType (v : Byte) : (s.setFamily v).attrType = s.attrType := rfl
@[simp] theorem State.setFamily_attrOff (v : Byte) : (s.setFamily v).attrOff = s.attrOff := rfl
@[simp] theorem State.setFamily_keyLen (v : Byte) : (s.setFamily v).keyLen = s.keyLen := rfl
@[simp] theorem State.setFamily_xaFamily (v : Byte) : (s.setFamily v).xaFamily = v := rfl
@[simp] theorem State.setFamily_xaPort (v : Byte) : (s.setFamily v).xaPort = s.xaPort := rfl
@[simp] theorem State.setFamily_xaAddr0 (v : Byte) : (s.setFamily v).xaAddr0 = s.xaAddr0 := rfl
@[simp] theorem State.setFamily_xaAddr1 (v : Byte) : (s.setFamily v).xaAddr1 = s.xaAddr1 := rfl
@[simp] theorem State.setFamily_xaAddr2 (v : Byte) : (s.setFamily v).xaAddr2 = s.xaAddr2 := rfl
@[simp] theorem State.setFamily_xaAddr3 (v : Byte) : (s.setFamily v).xaAddr3 = s.xaAddr3 := rfl
@[simp] theorem State.setFamily_xaOff (v : Byte) : (s.setFamily v).xaOff = s.xaOff := rfl
@[simp] theorem State.setFamily_fpValue (v : Byte) : (s.setFamily v).fpValue = s.fpValue := rfl
@[simp] theorem State.setFamily_mac0 (v : Byte) : (s.setFamily v).mac0 = s.mac0 := rfl
@[simp] theorem State.setFamily_mac1 (v : Byte) : (s.setFamily v).mac1 = s.mac1 := rfl
@[simp] theorem State.setFamily_mac2 (v : Byte) : (s.setFamily v).mac2 = s.mac2 := rfl
@[simp] theorem State.setFamily_mac3 (v : Byte) : (s.setFamily v).mac3 = s.mac3 := rfl
@[simp] theorem State.setFamily_mac4 (v : Byte) : (s.setFamily v).mac4 = s.mac4 := rfl
@[simp] theorem State.setFamily_msg (v : Byte) : (s.setFamily v).msg = s.msg := rfl
@[simp] theorem State.setFamily_key (v : Byte) : (s.setFamily v).key = s.key := rfl
@[simp] theorem State.setFamily_resets (v : Byte) : (s.setFamily v).resets = s.resets := rfl
@[simp] theorem State.setFamily_script (v : Byte) : (s.setFamily v).script = s.script := rfl
@[simp] theorem State.setFamily_hostPc (v : Byte) : (s.setFamily v).hostPc = s.hostPc := rfl
@[simp] theorem State.setFamily_lastRead (v : Byte) : (s.setFamily v).lastRead = s.lastRead := rfl
@[simp] theorem State.setFamily_latencies (v : Byte) : (s.setFamily v).latencies = s.latencies := rfl

/-! ### setPort -/

@[simp] theorem State.setPort_irqEn (v : Word) : (s.setPort v).irqEn = s.irqEn := rfl
@[simp] theorem State.setPort_done (v : Word) : (s.setPort v).done = s.done := rfl
@[simp] theorem State.setPort_err (v : Word) : (s.setPort v).err = s.err := rfl
@[simp] theorem State.setPort_matched (v : Word) : (s.setPort v).matched = s.matched := rfl
@[simp] theorem State.setPort_werr (v : Word) : (s.setPort v).werr = s.werr := rfl
@[simp] theorem State.setPort_aerr (v : Word) : (s.setPort v).aerr = s.aerr := rfl
@[simp] theorem State.setPort_errcode (v : Word) : (s.setPort v).errcode = s.errcode := rfl
@[simp] theorem State.setPort_tstate (v : Word) : (s.setPort v).tstate = s.tstate := rfl
@[simp] theorem State.setPort_pend (v : Word) : (s.setPort v).pend = s.pend := rfl
@[simp] theorem State.setPort_msgLen (v : Word) : (s.setPort v).msgLen = s.msgLen := rfl
@[simp] theorem State.setPort_attrType (v : Word) : (s.setPort v).attrType = s.attrType := rfl
@[simp] theorem State.setPort_attrOff (v : Word) : (s.setPort v).attrOff = s.attrOff := rfl
@[simp] theorem State.setPort_keyLen (v : Word) : (s.setPort v).keyLen = s.keyLen := rfl
@[simp] theorem State.setPort_xaFamily (v : Word) : (s.setPort v).xaFamily = s.xaFamily := rfl
@[simp] theorem State.setPort_xaPort (v : Word) : (s.setPort v).xaPort = v := rfl
@[simp] theorem State.setPort_xaAddr0 (v : Word) : (s.setPort v).xaAddr0 = s.xaAddr0 := rfl
@[simp] theorem State.setPort_xaAddr1 (v : Word) : (s.setPort v).xaAddr1 = s.xaAddr1 := rfl
@[simp] theorem State.setPort_xaAddr2 (v : Word) : (s.setPort v).xaAddr2 = s.xaAddr2 := rfl
@[simp] theorem State.setPort_xaAddr3 (v : Word) : (s.setPort v).xaAddr3 = s.xaAddr3 := rfl
@[simp] theorem State.setPort_xaOff (v : Word) : (s.setPort v).xaOff = s.xaOff := rfl
@[simp] theorem State.setPort_fpValue (v : Word) : (s.setPort v).fpValue = s.fpValue := rfl
@[simp] theorem State.setPort_mac0 (v : Word) : (s.setPort v).mac0 = s.mac0 := rfl
@[simp] theorem State.setPort_mac1 (v : Word) : (s.setPort v).mac1 = s.mac1 := rfl
@[simp] theorem State.setPort_mac2 (v : Word) : (s.setPort v).mac2 = s.mac2 := rfl
@[simp] theorem State.setPort_mac3 (v : Word) : (s.setPort v).mac3 = s.mac3 := rfl
@[simp] theorem State.setPort_mac4 (v : Word) : (s.setPort v).mac4 = s.mac4 := rfl
@[simp] theorem State.setPort_msg (v : Word) : (s.setPort v).msg = s.msg := rfl
@[simp] theorem State.setPort_key (v : Word) : (s.setPort v).key = s.key := rfl
@[simp] theorem State.setPort_resets (v : Word) : (s.setPort v).resets = s.resets := rfl
@[simp] theorem State.setPort_script (v : Word) : (s.setPort v).script = s.script := rfl
@[simp] theorem State.setPort_hostPc (v : Word) : (s.setPort v).hostPc = s.hostPc := rfl
@[simp] theorem State.setPort_lastRead (v : Word) : (s.setPort v).lastRead = s.lastRead := rfl
@[simp] theorem State.setPort_latencies (v : Word) : (s.setPort v).latencies = s.latencies := rfl

/-! ### setAddr0 -/

@[simp] theorem State.setAddr0_irqEn (v : Word) : (s.setAddr0 v).irqEn = s.irqEn := rfl
@[simp] theorem State.setAddr0_done (v : Word) : (s.setAddr0 v).done = s.done := rfl
@[simp] theorem State.setAddr0_err (v : Word) : (s.setAddr0 v).err = s.err := rfl
@[simp] theorem State.setAddr0_matched (v : Word) : (s.setAddr0 v).matched = s.matched := rfl
@[simp] theorem State.setAddr0_werr (v : Word) : (s.setAddr0 v).werr = s.werr := rfl
@[simp] theorem State.setAddr0_aerr (v : Word) : (s.setAddr0 v).aerr = s.aerr := rfl
@[simp] theorem State.setAddr0_errcode (v : Word) : (s.setAddr0 v).errcode = s.errcode := rfl
@[simp] theorem State.setAddr0_tstate (v : Word) : (s.setAddr0 v).tstate = s.tstate := rfl
@[simp] theorem State.setAddr0_pend (v : Word) : (s.setAddr0 v).pend = s.pend := rfl
@[simp] theorem State.setAddr0_msgLen (v : Word) : (s.setAddr0 v).msgLen = s.msgLen := rfl
@[simp] theorem State.setAddr0_attrType (v : Word) : (s.setAddr0 v).attrType = s.attrType := rfl
@[simp] theorem State.setAddr0_attrOff (v : Word) : (s.setAddr0 v).attrOff = s.attrOff := rfl
@[simp] theorem State.setAddr0_keyLen (v : Word) : (s.setAddr0 v).keyLen = s.keyLen := rfl
@[simp] theorem State.setAddr0_xaFamily (v : Word) : (s.setAddr0 v).xaFamily = s.xaFamily := rfl
@[simp] theorem State.setAddr0_xaPort (v : Word) : (s.setAddr0 v).xaPort = s.xaPort := rfl
@[simp] theorem State.setAddr0_xaAddr0 (v : Word) : (s.setAddr0 v).xaAddr0 = v := rfl
@[simp] theorem State.setAddr0_xaAddr1 (v : Word) : (s.setAddr0 v).xaAddr1 = s.xaAddr1 := rfl
@[simp] theorem State.setAddr0_xaAddr2 (v : Word) : (s.setAddr0 v).xaAddr2 = s.xaAddr2 := rfl
@[simp] theorem State.setAddr0_xaAddr3 (v : Word) : (s.setAddr0 v).xaAddr3 = s.xaAddr3 := rfl
@[simp] theorem State.setAddr0_xaOff (v : Word) : (s.setAddr0 v).xaOff = s.xaOff := rfl
@[simp] theorem State.setAddr0_fpValue (v : Word) : (s.setAddr0 v).fpValue = s.fpValue := rfl
@[simp] theorem State.setAddr0_mac0 (v : Word) : (s.setAddr0 v).mac0 = s.mac0 := rfl
@[simp] theorem State.setAddr0_mac1 (v : Word) : (s.setAddr0 v).mac1 = s.mac1 := rfl
@[simp] theorem State.setAddr0_mac2 (v : Word) : (s.setAddr0 v).mac2 = s.mac2 := rfl
@[simp] theorem State.setAddr0_mac3 (v : Word) : (s.setAddr0 v).mac3 = s.mac3 := rfl
@[simp] theorem State.setAddr0_mac4 (v : Word) : (s.setAddr0 v).mac4 = s.mac4 := rfl
@[simp] theorem State.setAddr0_msg (v : Word) : (s.setAddr0 v).msg = s.msg := rfl
@[simp] theorem State.setAddr0_key (v : Word) : (s.setAddr0 v).key = s.key := rfl
@[simp] theorem State.setAddr0_resets (v : Word) : (s.setAddr0 v).resets = s.resets := rfl
@[simp] theorem State.setAddr0_script (v : Word) : (s.setAddr0 v).script = s.script := rfl
@[simp] theorem State.setAddr0_hostPc (v : Word) : (s.setAddr0 v).hostPc = s.hostPc := rfl
@[simp] theorem State.setAddr0_lastRead (v : Word) : (s.setAddr0 v).lastRead = s.lastRead := rfl
@[simp] theorem State.setAddr0_latencies (v : Word) : (s.setAddr0 v).latencies = s.latencies := rfl

/-! ### setAddr1 -/

@[simp] theorem State.setAddr1_irqEn (v : Word) : (s.setAddr1 v).irqEn = s.irqEn := rfl
@[simp] theorem State.setAddr1_done (v : Word) : (s.setAddr1 v).done = s.done := rfl
@[simp] theorem State.setAddr1_err (v : Word) : (s.setAddr1 v).err = s.err := rfl
@[simp] theorem State.setAddr1_matched (v : Word) : (s.setAddr1 v).matched = s.matched := rfl
@[simp] theorem State.setAddr1_werr (v : Word) : (s.setAddr1 v).werr = s.werr := rfl
@[simp] theorem State.setAddr1_aerr (v : Word) : (s.setAddr1 v).aerr = s.aerr := rfl
@[simp] theorem State.setAddr1_errcode (v : Word) : (s.setAddr1 v).errcode = s.errcode := rfl
@[simp] theorem State.setAddr1_tstate (v : Word) : (s.setAddr1 v).tstate = s.tstate := rfl
@[simp] theorem State.setAddr1_pend (v : Word) : (s.setAddr1 v).pend = s.pend := rfl
@[simp] theorem State.setAddr1_msgLen (v : Word) : (s.setAddr1 v).msgLen = s.msgLen := rfl
@[simp] theorem State.setAddr1_attrType (v : Word) : (s.setAddr1 v).attrType = s.attrType := rfl
@[simp] theorem State.setAddr1_attrOff (v : Word) : (s.setAddr1 v).attrOff = s.attrOff := rfl
@[simp] theorem State.setAddr1_keyLen (v : Word) : (s.setAddr1 v).keyLen = s.keyLen := rfl
@[simp] theorem State.setAddr1_xaFamily (v : Word) : (s.setAddr1 v).xaFamily = s.xaFamily := rfl
@[simp] theorem State.setAddr1_xaPort (v : Word) : (s.setAddr1 v).xaPort = s.xaPort := rfl
@[simp] theorem State.setAddr1_xaAddr0 (v : Word) : (s.setAddr1 v).xaAddr0 = s.xaAddr0 := rfl
@[simp] theorem State.setAddr1_xaAddr1 (v : Word) : (s.setAddr1 v).xaAddr1 = v := rfl
@[simp] theorem State.setAddr1_xaAddr2 (v : Word) : (s.setAddr1 v).xaAddr2 = s.xaAddr2 := rfl
@[simp] theorem State.setAddr1_xaAddr3 (v : Word) : (s.setAddr1 v).xaAddr3 = s.xaAddr3 := rfl
@[simp] theorem State.setAddr1_xaOff (v : Word) : (s.setAddr1 v).xaOff = s.xaOff := rfl
@[simp] theorem State.setAddr1_fpValue (v : Word) : (s.setAddr1 v).fpValue = s.fpValue := rfl
@[simp] theorem State.setAddr1_mac0 (v : Word) : (s.setAddr1 v).mac0 = s.mac0 := rfl
@[simp] theorem State.setAddr1_mac1 (v : Word) : (s.setAddr1 v).mac1 = s.mac1 := rfl
@[simp] theorem State.setAddr1_mac2 (v : Word) : (s.setAddr1 v).mac2 = s.mac2 := rfl
@[simp] theorem State.setAddr1_mac3 (v : Word) : (s.setAddr1 v).mac3 = s.mac3 := rfl
@[simp] theorem State.setAddr1_mac4 (v : Word) : (s.setAddr1 v).mac4 = s.mac4 := rfl
@[simp] theorem State.setAddr1_msg (v : Word) : (s.setAddr1 v).msg = s.msg := rfl
@[simp] theorem State.setAddr1_key (v : Word) : (s.setAddr1 v).key = s.key := rfl
@[simp] theorem State.setAddr1_resets (v : Word) : (s.setAddr1 v).resets = s.resets := rfl
@[simp] theorem State.setAddr1_script (v : Word) : (s.setAddr1 v).script = s.script := rfl
@[simp] theorem State.setAddr1_hostPc (v : Word) : (s.setAddr1 v).hostPc = s.hostPc := rfl
@[simp] theorem State.setAddr1_lastRead (v : Word) : (s.setAddr1 v).lastRead = s.lastRead := rfl
@[simp] theorem State.setAddr1_latencies (v : Word) : (s.setAddr1 v).latencies = s.latencies := rfl

/-! ### setAddr2 -/

@[simp] theorem State.setAddr2_irqEn (v : Word) : (s.setAddr2 v).irqEn = s.irqEn := rfl
@[simp] theorem State.setAddr2_done (v : Word) : (s.setAddr2 v).done = s.done := rfl
@[simp] theorem State.setAddr2_err (v : Word) : (s.setAddr2 v).err = s.err := rfl
@[simp] theorem State.setAddr2_matched (v : Word) : (s.setAddr2 v).matched = s.matched := rfl
@[simp] theorem State.setAddr2_werr (v : Word) : (s.setAddr2 v).werr = s.werr := rfl
@[simp] theorem State.setAddr2_aerr (v : Word) : (s.setAddr2 v).aerr = s.aerr := rfl
@[simp] theorem State.setAddr2_errcode (v : Word) : (s.setAddr2 v).errcode = s.errcode := rfl
@[simp] theorem State.setAddr2_tstate (v : Word) : (s.setAddr2 v).tstate = s.tstate := rfl
@[simp] theorem State.setAddr2_pend (v : Word) : (s.setAddr2 v).pend = s.pend := rfl
@[simp] theorem State.setAddr2_msgLen (v : Word) : (s.setAddr2 v).msgLen = s.msgLen := rfl
@[simp] theorem State.setAddr2_attrType (v : Word) : (s.setAddr2 v).attrType = s.attrType := rfl
@[simp] theorem State.setAddr2_attrOff (v : Word) : (s.setAddr2 v).attrOff = s.attrOff := rfl
@[simp] theorem State.setAddr2_keyLen (v : Word) : (s.setAddr2 v).keyLen = s.keyLen := rfl
@[simp] theorem State.setAddr2_xaFamily (v : Word) : (s.setAddr2 v).xaFamily = s.xaFamily := rfl
@[simp] theorem State.setAddr2_xaPort (v : Word) : (s.setAddr2 v).xaPort = s.xaPort := rfl
@[simp] theorem State.setAddr2_xaAddr0 (v : Word) : (s.setAddr2 v).xaAddr0 = s.xaAddr0 := rfl
@[simp] theorem State.setAddr2_xaAddr1 (v : Word) : (s.setAddr2 v).xaAddr1 = s.xaAddr1 := rfl
@[simp] theorem State.setAddr2_xaAddr2 (v : Word) : (s.setAddr2 v).xaAddr2 = v := rfl
@[simp] theorem State.setAddr2_xaAddr3 (v : Word) : (s.setAddr2 v).xaAddr3 = s.xaAddr3 := rfl
@[simp] theorem State.setAddr2_xaOff (v : Word) : (s.setAddr2 v).xaOff = s.xaOff := rfl
@[simp] theorem State.setAddr2_fpValue (v : Word) : (s.setAddr2 v).fpValue = s.fpValue := rfl
@[simp] theorem State.setAddr2_mac0 (v : Word) : (s.setAddr2 v).mac0 = s.mac0 := rfl
@[simp] theorem State.setAddr2_mac1 (v : Word) : (s.setAddr2 v).mac1 = s.mac1 := rfl
@[simp] theorem State.setAddr2_mac2 (v : Word) : (s.setAddr2 v).mac2 = s.mac2 := rfl
@[simp] theorem State.setAddr2_mac3 (v : Word) : (s.setAddr2 v).mac3 = s.mac3 := rfl
@[simp] theorem State.setAddr2_mac4 (v : Word) : (s.setAddr2 v).mac4 = s.mac4 := rfl
@[simp] theorem State.setAddr2_msg (v : Word) : (s.setAddr2 v).msg = s.msg := rfl
@[simp] theorem State.setAddr2_key (v : Word) : (s.setAddr2 v).key = s.key := rfl
@[simp] theorem State.setAddr2_resets (v : Word) : (s.setAddr2 v).resets = s.resets := rfl
@[simp] theorem State.setAddr2_script (v : Word) : (s.setAddr2 v).script = s.script := rfl
@[simp] theorem State.setAddr2_hostPc (v : Word) : (s.setAddr2 v).hostPc = s.hostPc := rfl
@[simp] theorem State.setAddr2_lastRead (v : Word) : (s.setAddr2 v).lastRead = s.lastRead := rfl
@[simp] theorem State.setAddr2_latencies (v : Word) : (s.setAddr2 v).latencies = s.latencies := rfl

/-! ### setAddr3 -/

@[simp] theorem State.setAddr3_irqEn (v : Word) : (s.setAddr3 v).irqEn = s.irqEn := rfl
@[simp] theorem State.setAddr3_done (v : Word) : (s.setAddr3 v).done = s.done := rfl
@[simp] theorem State.setAddr3_err (v : Word) : (s.setAddr3 v).err = s.err := rfl
@[simp] theorem State.setAddr3_matched (v : Word) : (s.setAddr3 v).matched = s.matched := rfl
@[simp] theorem State.setAddr3_werr (v : Word) : (s.setAddr3 v).werr = s.werr := rfl
@[simp] theorem State.setAddr3_aerr (v : Word) : (s.setAddr3 v).aerr = s.aerr := rfl
@[simp] theorem State.setAddr3_errcode (v : Word) : (s.setAddr3 v).errcode = s.errcode := rfl
@[simp] theorem State.setAddr3_tstate (v : Word) : (s.setAddr3 v).tstate = s.tstate := rfl
@[simp] theorem State.setAddr3_pend (v : Word) : (s.setAddr3 v).pend = s.pend := rfl
@[simp] theorem State.setAddr3_msgLen (v : Word) : (s.setAddr3 v).msgLen = s.msgLen := rfl
@[simp] theorem State.setAddr3_attrType (v : Word) : (s.setAddr3 v).attrType = s.attrType := rfl
@[simp] theorem State.setAddr3_attrOff (v : Word) : (s.setAddr3 v).attrOff = s.attrOff := rfl
@[simp] theorem State.setAddr3_keyLen (v : Word) : (s.setAddr3 v).keyLen = s.keyLen := rfl
@[simp] theorem State.setAddr3_xaFamily (v : Word) : (s.setAddr3 v).xaFamily = s.xaFamily := rfl
@[simp] theorem State.setAddr3_xaPort (v : Word) : (s.setAddr3 v).xaPort = s.xaPort := rfl
@[simp] theorem State.setAddr3_xaAddr0 (v : Word) : (s.setAddr3 v).xaAddr0 = s.xaAddr0 := rfl
@[simp] theorem State.setAddr3_xaAddr1 (v : Word) : (s.setAddr3 v).xaAddr1 = s.xaAddr1 := rfl
@[simp] theorem State.setAddr3_xaAddr2 (v : Word) : (s.setAddr3 v).xaAddr2 = s.xaAddr2 := rfl
@[simp] theorem State.setAddr3_xaAddr3 (v : Word) : (s.setAddr3 v).xaAddr3 = v := rfl
@[simp] theorem State.setAddr3_xaOff (v : Word) : (s.setAddr3 v).xaOff = s.xaOff := rfl
@[simp] theorem State.setAddr3_fpValue (v : Word) : (s.setAddr3 v).fpValue = s.fpValue := rfl
@[simp] theorem State.setAddr3_mac0 (v : Word) : (s.setAddr3 v).mac0 = s.mac0 := rfl
@[simp] theorem State.setAddr3_mac1 (v : Word) : (s.setAddr3 v).mac1 = s.mac1 := rfl
@[simp] theorem State.setAddr3_mac2 (v : Word) : (s.setAddr3 v).mac2 = s.mac2 := rfl
@[simp] theorem State.setAddr3_mac3 (v : Word) : (s.setAddr3 v).mac3 = s.mac3 := rfl
@[simp] theorem State.setAddr3_mac4 (v : Word) : (s.setAddr3 v).mac4 = s.mac4 := rfl
@[simp] theorem State.setAddr3_msg (v : Word) : (s.setAddr3 v).msg = s.msg := rfl
@[simp] theorem State.setAddr3_key (v : Word) : (s.setAddr3 v).key = s.key := rfl
@[simp] theorem State.setAddr3_resets (v : Word) : (s.setAddr3 v).resets = s.resets := rfl
@[simp] theorem State.setAddr3_script (v : Word) : (s.setAddr3 v).script = s.script := rfl
@[simp] theorem State.setAddr3_hostPc (v : Word) : (s.setAddr3 v).hostPc = s.hostPc := rfl
@[simp] theorem State.setAddr3_lastRead (v : Word) : (s.setAddr3 v).lastRead = s.lastRead := rfl
@[simp] theorem State.setAddr3_latencies (v : Word) : (s.setAddr3 v).latencies = s.latencies := rfl

/-! ### setAddr -/

@[simp] theorem State.setAddr_irqEn (a : List Byte) : (s.setAddr a).irqEn = s.irqEn := rfl
@[simp] theorem State.setAddr_done (a : List Byte) : (s.setAddr a).done = s.done := rfl
@[simp] theorem State.setAddr_err (a : List Byte) : (s.setAddr a).err = s.err := rfl
@[simp] theorem State.setAddr_matched (a : List Byte) : (s.setAddr a).matched = s.matched := rfl
@[simp] theorem State.setAddr_werr (a : List Byte) : (s.setAddr a).werr = s.werr := rfl
@[simp] theorem State.setAddr_aerr (a : List Byte) : (s.setAddr a).aerr = s.aerr := rfl
@[simp] theorem State.setAddr_errcode (a : List Byte) : (s.setAddr a).errcode = s.errcode := rfl
@[simp] theorem State.setAddr_tstate (a : List Byte) : (s.setAddr a).tstate = s.tstate := rfl
@[simp] theorem State.setAddr_pend (a : List Byte) : (s.setAddr a).pend = s.pend := rfl
@[simp] theorem State.setAddr_msgLen (a : List Byte) : (s.setAddr a).msgLen = s.msgLen := rfl
@[simp] theorem State.setAddr_attrType (a : List Byte) : (s.setAddr a).attrType = s.attrType := rfl
@[simp] theorem State.setAddr_attrOff (a : List Byte) : (s.setAddr a).attrOff = s.attrOff := rfl
@[simp] theorem State.setAddr_keyLen (a : List Byte) : (s.setAddr a).keyLen = s.keyLen := rfl
@[simp] theorem State.setAddr_xaFamily (a : List Byte) : (s.setAddr a).xaFamily = s.xaFamily := rfl
@[simp] theorem State.setAddr_xaPort (a : List Byte) : (s.setAddr a).xaPort = s.xaPort := rfl
@[simp] theorem State.setAddr_xaAddr0 (a : List Byte) : (s.setAddr a).xaAddr0 = wordAt (a ++ zeros (16 - a.length)) 0 := rfl
@[simp] theorem State.setAddr_xaAddr1 (a : List Byte) : (s.setAddr a).xaAddr1 = wordAt (a ++ zeros (16 - a.length)) 1 := rfl
@[simp] theorem State.setAddr_xaAddr2 (a : List Byte) : (s.setAddr a).xaAddr2 = wordAt (a ++ zeros (16 - a.length)) 2 := rfl
@[simp] theorem State.setAddr_xaAddr3 (a : List Byte) : (s.setAddr a).xaAddr3 = wordAt (a ++ zeros (16 - a.length)) 3 := rfl
@[simp] theorem State.setAddr_xaOff (a : List Byte) : (s.setAddr a).xaOff = s.xaOff := rfl
@[simp] theorem State.setAddr_fpValue (a : List Byte) : (s.setAddr a).fpValue = s.fpValue := rfl
@[simp] theorem State.setAddr_mac0 (a : List Byte) : (s.setAddr a).mac0 = s.mac0 := rfl
@[simp] theorem State.setAddr_mac1 (a : List Byte) : (s.setAddr a).mac1 = s.mac1 := rfl
@[simp] theorem State.setAddr_mac2 (a : List Byte) : (s.setAddr a).mac2 = s.mac2 := rfl
@[simp] theorem State.setAddr_mac3 (a : List Byte) : (s.setAddr a).mac3 = s.mac3 := rfl
@[simp] theorem State.setAddr_mac4 (a : List Byte) : (s.setAddr a).mac4 = s.mac4 := rfl
@[simp] theorem State.setAddr_msg (a : List Byte) : (s.setAddr a).msg = s.msg := rfl
@[simp] theorem State.setAddr_key (a : List Byte) : (s.setAddr a).key = s.key := rfl
@[simp] theorem State.setAddr_resets (a : List Byte) : (s.setAddr a).resets = s.resets := rfl
@[simp] theorem State.setAddr_script (a : List Byte) : (s.setAddr a).script = s.script := rfl
@[simp] theorem State.setAddr_hostPc (a : List Byte) : (s.setAddr a).hostPc = s.hostPc := rfl
@[simp] theorem State.setAddr_lastRead (a : List Byte) : (s.setAddr a).lastRead = s.lastRead := rfl
@[simp] theorem State.setAddr_latencies (a : List Byte) : (s.setAddr a).latencies = s.latencies := rfl

/-! ### setXaOff -/

@[simp] theorem State.setXaOff_irqEn (v : Word) : (s.setXaOff v).irqEn = s.irqEn := rfl
@[simp] theorem State.setXaOff_done (v : Word) : (s.setXaOff v).done = s.done := rfl
@[simp] theorem State.setXaOff_err (v : Word) : (s.setXaOff v).err = s.err := rfl
@[simp] theorem State.setXaOff_matched (v : Word) : (s.setXaOff v).matched = s.matched := rfl
@[simp] theorem State.setXaOff_werr (v : Word) : (s.setXaOff v).werr = s.werr := rfl
@[simp] theorem State.setXaOff_aerr (v : Word) : (s.setXaOff v).aerr = s.aerr := rfl
@[simp] theorem State.setXaOff_errcode (v : Word) : (s.setXaOff v).errcode = s.errcode := rfl
@[simp] theorem State.setXaOff_tstate (v : Word) : (s.setXaOff v).tstate = s.tstate := rfl
@[simp] theorem State.setXaOff_pend (v : Word) : (s.setXaOff v).pend = s.pend := rfl
@[simp] theorem State.setXaOff_msgLen (v : Word) : (s.setXaOff v).msgLen = s.msgLen := rfl
@[simp] theorem State.setXaOff_attrType (v : Word) : (s.setXaOff v).attrType = s.attrType := rfl
@[simp] theorem State.setXaOff_attrOff (v : Word) : (s.setXaOff v).attrOff = s.attrOff := rfl
@[simp] theorem State.setXaOff_keyLen (v : Word) : (s.setXaOff v).keyLen = s.keyLen := rfl
@[simp] theorem State.setXaOff_xaFamily (v : Word) : (s.setXaOff v).xaFamily = s.xaFamily := rfl
@[simp] theorem State.setXaOff_xaPort (v : Word) : (s.setXaOff v).xaPort = s.xaPort := rfl
@[simp] theorem State.setXaOff_xaAddr0 (v : Word) : (s.setXaOff v).xaAddr0 = s.xaAddr0 := rfl
@[simp] theorem State.setXaOff_xaAddr1 (v : Word) : (s.setXaOff v).xaAddr1 = s.xaAddr1 := rfl
@[simp] theorem State.setXaOff_xaAddr2 (v : Word) : (s.setXaOff v).xaAddr2 = s.xaAddr2 := rfl
@[simp] theorem State.setXaOff_xaAddr3 (v : Word) : (s.setXaOff v).xaAddr3 = s.xaAddr3 := rfl
@[simp] theorem State.setXaOff_xaOff (v : Word) : (s.setXaOff v).xaOff = v := rfl
@[simp] theorem State.setXaOff_fpValue (v : Word) : (s.setXaOff v).fpValue = s.fpValue := rfl
@[simp] theorem State.setXaOff_mac0 (v : Word) : (s.setXaOff v).mac0 = s.mac0 := rfl
@[simp] theorem State.setXaOff_mac1 (v : Word) : (s.setXaOff v).mac1 = s.mac1 := rfl
@[simp] theorem State.setXaOff_mac2 (v : Word) : (s.setXaOff v).mac2 = s.mac2 := rfl
@[simp] theorem State.setXaOff_mac3 (v : Word) : (s.setXaOff v).mac3 = s.mac3 := rfl
@[simp] theorem State.setXaOff_mac4 (v : Word) : (s.setXaOff v).mac4 = s.mac4 := rfl
@[simp] theorem State.setXaOff_msg (v : Word) : (s.setXaOff v).msg = s.msg := rfl
@[simp] theorem State.setXaOff_key (v : Word) : (s.setXaOff v).key = s.key := rfl
@[simp] theorem State.setXaOff_resets (v : Word) : (s.setXaOff v).resets = s.resets := rfl
@[simp] theorem State.setXaOff_script (v : Word) : (s.setXaOff v).script = s.script := rfl
@[simp] theorem State.setXaOff_hostPc (v : Word) : (s.setXaOff v).hostPc = s.hostPc := rfl
@[simp] theorem State.setXaOff_lastRead (v : Word) : (s.setXaOff v).lastRead = s.lastRead := rfl
@[simp] theorem State.setXaOff_latencies (v : Word) : (s.setXaOff v).latencies = s.latencies := rfl

/-! ### setFp -/

@[simp] theorem State.setFp_irqEn (v : Word) : (s.setFp v).irqEn = s.irqEn := rfl
@[simp] theorem State.setFp_done (v : Word) : (s.setFp v).done = s.done := rfl
@[simp] theorem State.setFp_err (v : Word) : (s.setFp v).err = s.err := rfl
@[simp] theorem State.setFp_matched (v : Word) : (s.setFp v).matched = s.matched := rfl
@[simp] theorem State.setFp_werr (v : Word) : (s.setFp v).werr = s.werr := rfl
@[simp] theorem State.setFp_aerr (v : Word) : (s.setFp v).aerr = s.aerr := rfl
@[simp] theorem State.setFp_errcode (v : Word) : (s.setFp v).errcode = s.errcode := rfl
@[simp] theorem State.setFp_tstate (v : Word) : (s.setFp v).tstate = s.tstate := rfl
@[simp] theorem State.setFp_pend (v : Word) : (s.setFp v).pend = s.pend := rfl
@[simp] theorem State.setFp_msgLen (v : Word) : (s.setFp v).msgLen = s.msgLen := rfl
@[simp] theorem State.setFp_attrType (v : Word) : (s.setFp v).attrType = s.attrType := rfl
@[simp] theorem State.setFp_attrOff (v : Word) : (s.setFp v).attrOff = s.attrOff := rfl
@[simp] theorem State.setFp_keyLen (v : Word) : (s.setFp v).keyLen = s.keyLen := rfl
@[simp] theorem State.setFp_xaFamily (v : Word) : (s.setFp v).xaFamily = s.xaFamily := rfl
@[simp] theorem State.setFp_xaPort (v : Word) : (s.setFp v).xaPort = s.xaPort := rfl
@[simp] theorem State.setFp_xaAddr0 (v : Word) : (s.setFp v).xaAddr0 = s.xaAddr0 := rfl
@[simp] theorem State.setFp_xaAddr1 (v : Word) : (s.setFp v).xaAddr1 = s.xaAddr1 := rfl
@[simp] theorem State.setFp_xaAddr2 (v : Word) : (s.setFp v).xaAddr2 = s.xaAddr2 := rfl
@[simp] theorem State.setFp_xaAddr3 (v : Word) : (s.setFp v).xaAddr3 = s.xaAddr3 := rfl
@[simp] theorem State.setFp_xaOff (v : Word) : (s.setFp v).xaOff = s.xaOff := rfl
@[simp] theorem State.setFp_fpValue (v : Word) : (s.setFp v).fpValue = v := rfl
@[simp] theorem State.setFp_mac0 (v : Word) : (s.setFp v).mac0 = s.mac0 := rfl
@[simp] theorem State.setFp_mac1 (v : Word) : (s.setFp v).mac1 = s.mac1 := rfl
@[simp] theorem State.setFp_mac2 (v : Word) : (s.setFp v).mac2 = s.mac2 := rfl
@[simp] theorem State.setFp_mac3 (v : Word) : (s.setFp v).mac3 = s.mac3 := rfl
@[simp] theorem State.setFp_mac4 (v : Word) : (s.setFp v).mac4 = s.mac4 := rfl
@[simp] theorem State.setFp_msg (v : Word) : (s.setFp v).msg = s.msg := rfl
@[simp] theorem State.setFp_key (v : Word) : (s.setFp v).key = s.key := rfl
@[simp] theorem State.setFp_resets (v : Word) : (s.setFp v).resets = s.resets := rfl
@[simp] theorem State.setFp_script (v : Word) : (s.setFp v).script = s.script := rfl
@[simp] theorem State.setFp_hostPc (v : Word) : (s.setFp v).hostPc = s.hostPc := rfl
@[simp] theorem State.setFp_lastRead (v : Word) : (s.setFp v).lastRead = s.lastRead := rfl
@[simp] theorem State.setFp_latencies (v : Word) : (s.setFp v).latencies = s.latencies := rfl

/-! ### setMac -/

@[simp] theorem State.setMac_irqEn (h : List Byte) : (s.setMac h).irqEn = s.irqEn := rfl
@[simp] theorem State.setMac_done (h : List Byte) : (s.setMac h).done = s.done := rfl
@[simp] theorem State.setMac_err (h : List Byte) : (s.setMac h).err = s.err := rfl
@[simp] theorem State.setMac_matched (h : List Byte) : (s.setMac h).matched = s.matched := rfl
@[simp] theorem State.setMac_werr (h : List Byte) : (s.setMac h).werr = s.werr := rfl
@[simp] theorem State.setMac_aerr (h : List Byte) : (s.setMac h).aerr = s.aerr := rfl
@[simp] theorem State.setMac_errcode (h : List Byte) : (s.setMac h).errcode = s.errcode := rfl
@[simp] theorem State.setMac_tstate (h : List Byte) : (s.setMac h).tstate = s.tstate := rfl
@[simp] theorem State.setMac_pend (h : List Byte) : (s.setMac h).pend = s.pend := rfl
@[simp] theorem State.setMac_msgLen (h : List Byte) : (s.setMac h).msgLen = s.msgLen := rfl
@[simp] theorem State.setMac_attrType (h : List Byte) : (s.setMac h).attrType = s.attrType := rfl
@[simp] theorem State.setMac_attrOff (h : List Byte) : (s.setMac h).attrOff = s.attrOff := rfl
@[simp] theorem State.setMac_keyLen (h : List Byte) : (s.setMac h).keyLen = s.keyLen := rfl
@[simp] theorem State.setMac_xaFamily (h : List Byte) : (s.setMac h).xaFamily = s.xaFamily := rfl
@[simp] theorem State.setMac_xaPort (h : List Byte) : (s.setMac h).xaPort = s.xaPort := rfl
@[simp] theorem State.setMac_xaAddr0 (h : List Byte) : (s.setMac h).xaAddr0 = s.xaAddr0 := rfl
@[simp] theorem State.setMac_xaAddr1 (h : List Byte) : (s.setMac h).xaAddr1 = s.xaAddr1 := rfl
@[simp] theorem State.setMac_xaAddr2 (h : List Byte) : (s.setMac h).xaAddr2 = s.xaAddr2 := rfl
@[simp] theorem State.setMac_xaAddr3 (h : List Byte) : (s.setMac h).xaAddr3 = s.xaAddr3 := rfl
@[simp] theorem State.setMac_xaOff (h : List Byte) : (s.setMac h).xaOff = s.xaOff := rfl
@[simp] theorem State.setMac_fpValue (h : List Byte) : (s.setMac h).fpValue = s.fpValue := rfl
@[simp] theorem State.setMac_mac0 (h : List Byte) : (s.setMac h).mac0 = wordAt h 0 := rfl
@[simp] theorem State.setMac_mac1 (h : List Byte) : (s.setMac h).mac1 = wordAt h 1 := rfl
@[simp] theorem State.setMac_mac2 (h : List Byte) : (s.setMac h).mac2 = wordAt h 2 := rfl
@[simp] theorem State.setMac_mac3 (h : List Byte) : (s.setMac h).mac3 = wordAt h 3 := rfl
@[simp] theorem State.setMac_mac4 (h : List Byte) : (s.setMac h).mac4 = wordAt h 4 := rfl
@[simp] theorem State.setMac_msg (h : List Byte) : (s.setMac h).msg = s.msg := rfl
@[simp] theorem State.setMac_key (h : List Byte) : (s.setMac h).key = s.key := rfl
@[simp] theorem State.setMac_resets (h : List Byte) : (s.setMac h).resets = s.resets := rfl
@[simp] theorem State.setMac_script (h : List Byte) : (s.setMac h).script = s.script := rfl
@[simp] theorem State.setMac_hostPc (h : List Byte) : (s.setMac h).hostPc = s.hostPc := rfl
@[simp] theorem State.setMac_lastRead (h : List Byte) : (s.setMac h).lastRead = s.lastRead := rfl
@[simp] theorem State.setMac_latencies (h : List Byte) : (s.setMac h).latencies = s.latencies := rfl

/-! ### latch -/

@[simp] theorem State.latch_irqEn (w : Word) (d : Nat) : (s.latch w d).irqEn = s.irqEn := rfl
@[simp] theorem State.latch_done (w : Word) (d : Nat) : (s.latch w d).done = s.done := rfl
@[simp] theorem State.latch_err (w : Word) (d : Nat) : (s.latch w d).err = s.err := rfl
@[simp] theorem State.latch_matched (w : Word) (d : Nat) : (s.latch w d).matched = s.matched := rfl
@[simp] theorem State.latch_werr (w : Word) (d : Nat) : (s.latch w d).werr = s.werr := rfl
@[simp] theorem State.latch_aerr (w : Word) (d : Nat) : (s.latch w d).aerr = s.aerr := rfl
@[simp] theorem State.latch_errcode (w : Word) (d : Nat) : (s.latch w d).errcode = s.errcode := rfl
@[simp] theorem State.latch_tstate (w : Word) (d : Nat) : (s.latch w d).tstate = s.tstate := rfl
@[simp] theorem State.latch_pend (w : Word) (d : Nat) : (s.latch w d).pend = some ⟨w, d⟩ := rfl
@[simp] theorem State.latch_msgLen (w : Word) (d : Nat) : (s.latch w d).msgLen = s.msgLen := rfl
@[simp] theorem State.latch_attrType (w : Word) (d : Nat) : (s.latch w d).attrType = s.attrType := rfl
@[simp] theorem State.latch_attrOff (w : Word) (d : Nat) : (s.latch w d).attrOff = s.attrOff := rfl
@[simp] theorem State.latch_keyLen (w : Word) (d : Nat) : (s.latch w d).keyLen = s.keyLen := rfl
@[simp] theorem State.latch_xaFamily (w : Word) (d : Nat) : (s.latch w d).xaFamily = s.xaFamily := rfl
@[simp] theorem State.latch_xaPort (w : Word) (d : Nat) : (s.latch w d).xaPort = s.xaPort := rfl
@[simp] theorem State.latch_xaAddr0 (w : Word) (d : Nat) : (s.latch w d).xaAddr0 = s.xaAddr0 := rfl
@[simp] theorem State.latch_xaAddr1 (w : Word) (d : Nat) : (s.latch w d).xaAddr1 = s.xaAddr1 := rfl
@[simp] theorem State.latch_xaAddr2 (w : Word) (d : Nat) : (s.latch w d).xaAddr2 = s.xaAddr2 := rfl
@[simp] theorem State.latch_xaAddr3 (w : Word) (d : Nat) : (s.latch w d).xaAddr3 = s.xaAddr3 := rfl
@[simp] theorem State.latch_xaOff (w : Word) (d : Nat) : (s.latch w d).xaOff = s.xaOff := rfl
@[simp] theorem State.latch_fpValue (w : Word) (d : Nat) : (s.latch w d).fpValue = s.fpValue := rfl
@[simp] theorem State.latch_mac0 (w : Word) (d : Nat) : (s.latch w d).mac0 = s.mac0 := rfl
@[simp] theorem State.latch_mac1 (w : Word) (d : Nat) : (s.latch w d).mac1 = s.mac1 := rfl
@[simp] theorem State.latch_mac2 (w : Word) (d : Nat) : (s.latch w d).mac2 = s.mac2 := rfl
@[simp] theorem State.latch_mac3 (w : Word) (d : Nat) : (s.latch w d).mac3 = s.mac3 := rfl
@[simp] theorem State.latch_mac4 (w : Word) (d : Nat) : (s.latch w d).mac4 = s.mac4 := rfl
@[simp] theorem State.latch_msg (w : Word) (d : Nat) : (s.latch w d).msg = s.msg := rfl
@[simp] theorem State.latch_key (w : Word) (d : Nat) : (s.latch w d).key = s.key := rfl
@[simp] theorem State.latch_resets (w : Word) (d : Nat) : (s.latch w d).resets = s.resets := rfl
@[simp] theorem State.latch_script (w : Word) (d : Nat) : (s.latch w d).script = s.script := rfl
@[simp] theorem State.latch_hostPc (w : Word) (d : Nat) : (s.latch w d).hostPc = s.hostPc := rfl
@[simp] theorem State.latch_lastRead (w : Word) (d : Nat) : (s.latch w d).lastRead = s.lastRead := rfl
@[simp] theorem State.latch_latencies (w : Word) (d : Nat) : (s.latch w d).latencies = s.latencies := rfl

/-! ### issue -/

@[simp] theorem State.issue_irqEn (w : Word) : (s.issue w).irqEn = s.irqEn := rfl
@[simp] theorem State.issue_done (w : Word) : (s.issue w).done = false := rfl
@[simp] theorem State.issue_err (w : Word) : (s.issue w).err = false := rfl
@[simp] theorem State.issue_matched (w : Word) : (s.issue w).matched = false := rfl
@[simp] theorem State.issue_werr (w : Word) : (s.issue w).werr = s.werr := rfl
@[simp] theorem State.issue_aerr (w : Word) : (s.issue w).aerr = s.aerr := rfl
@[simp] theorem State.issue_errcode (w : Word) : (s.issue w).errcode = .ok := rfl
@[simp] theorem State.issue_tstate (w : Word) : (s.issue w).tstate = s.tstate := rfl
@[simp] theorem State.issue_pend (w : Word) : (s.issue w).pend = some ⟨w, nextLatency s.latencies⟩ := rfl
@[simp] theorem State.issue_msgLen (w : Word) : (s.issue w).msgLen = s.msgLen := rfl
@[simp] theorem State.issue_attrType (w : Word) : (s.issue w).attrType = s.attrType := rfl
@[simp] theorem State.issue_attrOff (w : Word) : (s.issue w).attrOff = s.attrOff := rfl
@[simp] theorem State.issue_keyLen (w : Word) : (s.issue w).keyLen = s.keyLen := rfl
@[simp] theorem State.issue_xaFamily (w : Word) : (s.issue w).xaFamily = s.xaFamily := rfl
@[simp] theorem State.issue_xaPort (w : Word) : (s.issue w).xaPort = s.xaPort := rfl
@[simp] theorem State.issue_xaAddr0 (w : Word) : (s.issue w).xaAddr0 = s.xaAddr0 := rfl
@[simp] theorem State.issue_xaAddr1 (w : Word) : (s.issue w).xaAddr1 = s.xaAddr1 := rfl
@[simp] theorem State.issue_xaAddr2 (w : Word) : (s.issue w).xaAddr2 = s.xaAddr2 := rfl
@[simp] theorem State.issue_xaAddr3 (w : Word) : (s.issue w).xaAddr3 = s.xaAddr3 := rfl
@[simp] theorem State.issue_xaOff (w : Word) : (s.issue w).xaOff = s.xaOff := rfl
@[simp] theorem State.issue_fpValue (w : Word) : (s.issue w).fpValue = s.fpValue := rfl
@[simp] theorem State.issue_mac0 (w : Word) : (s.issue w).mac0 = s.mac0 := rfl
@[simp] theorem State.issue_mac1 (w : Word) : (s.issue w).mac1 = s.mac1 := rfl
@[simp] theorem State.issue_mac2 (w : Word) : (s.issue w).mac2 = s.mac2 := rfl
@[simp] theorem State.issue_mac3 (w : Word) : (s.issue w).mac3 = s.mac3 := rfl
@[simp] theorem State.issue_mac4 (w : Word) : (s.issue w).mac4 = s.mac4 := rfl
@[simp] theorem State.issue_msg (w : Word) : (s.issue w).msg = s.msg := rfl
@[simp] theorem State.issue_key (w : Word) : (s.issue w).key = s.key := rfl
@[simp] theorem State.issue_resets (w : Word) : (s.issue w).resets = s.resets := rfl
@[simp] theorem State.issue_script (w : Word) : (s.issue w).script = s.script := rfl
@[simp] theorem State.issue_hostPc (w : Word) : (s.issue w).hostPc = s.hostPc := rfl
@[simp] theorem State.issue_lastRead (w : Word) : (s.issue w).lastRead = s.lastRead := rfl
@[simp] theorem State.issue_latencies (w : Word) : (s.issue w).latencies = s.latencies.tail := rfl

/-! ### finish -/

@[simp] theorem State.finish_irqEn (m : Bool) : (s.finish m).irqEn = s.irqEn := rfl
@[simp] theorem State.finish_done (m : Bool) : (s.finish m).done = true := rfl
@[simp] theorem State.finish_err (m : Bool) : (s.finish m).err = false := rfl
@[simp] theorem State.finish_matched (m : Bool) : (s.finish m).matched = m := rfl
@[simp] theorem State.finish_werr (m : Bool) : (s.finish m).werr = s.werr := rfl
@[simp] theorem State.finish_aerr (m : Bool) : (s.finish m).aerr = s.aerr := rfl
@[simp] theorem State.finish_errcode (m : Bool) : (s.finish m).errcode = .ok := rfl
@[simp] theorem State.finish_tstate (m : Bool) : (s.finish m).tstate = s.tstate := rfl
@[simp] theorem State.finish_pend (m : Bool) : (s.finish m).pend = none := rfl
@[simp] theorem State.finish_msgLen (m : Bool) : (s.finish m).msgLen = s.msgLen := rfl
@[simp] theorem State.finish_attrType (m : Bool) : (s.finish m).attrType = s.attrType := rfl
@[simp] theorem State.finish_attrOff (m : Bool) : (s.finish m).attrOff = s.attrOff := rfl
@[simp] theorem State.finish_keyLen (m : Bool) : (s.finish m).keyLen = s.keyLen := rfl
@[simp] theorem State.finish_xaFamily (m : Bool) : (s.finish m).xaFamily = s.xaFamily := rfl
@[simp] theorem State.finish_xaPort (m : Bool) : (s.finish m).xaPort = s.xaPort := rfl
@[simp] theorem State.finish_xaAddr0 (m : Bool) : (s.finish m).xaAddr0 = s.xaAddr0 := rfl
@[simp] theorem State.finish_xaAddr1 (m : Bool) : (s.finish m).xaAddr1 = s.xaAddr1 := rfl
@[simp] theorem State.finish_xaAddr2 (m : Bool) : (s.finish m).xaAddr2 = s.xaAddr2 := rfl
@[simp] theorem State.finish_xaAddr3 (m : Bool) : (s.finish m).xaAddr3 = s.xaAddr3 := rfl
@[simp] theorem State.finish_xaOff (m : Bool) : (s.finish m).xaOff = s.xaOff := rfl
@[simp] theorem State.finish_fpValue (m : Bool) : (s.finish m).fpValue = s.fpValue := rfl
@[simp] theorem State.finish_mac0 (m : Bool) : (s.finish m).mac0 = s.mac0 := rfl
@[simp] theorem State.finish_mac1 (m : Bool) : (s.finish m).mac1 = s.mac1 := rfl
@[simp] theorem State.finish_mac2 (m : Bool) : (s.finish m).mac2 = s.mac2 := rfl
@[simp] theorem State.finish_mac3 (m : Bool) : (s.finish m).mac3 = s.mac3 := rfl
@[simp] theorem State.finish_mac4 (m : Bool) : (s.finish m).mac4 = s.mac4 := rfl
@[simp] theorem State.finish_msg (m : Bool) : (s.finish m).msg = s.msg := rfl
@[simp] theorem State.finish_key (m : Bool) : (s.finish m).key = s.key := rfl
@[simp] theorem State.finish_resets (m : Bool) : (s.finish m).resets = s.resets := rfl
@[simp] theorem State.finish_script (m : Bool) : (s.finish m).script = s.script := rfl
@[simp] theorem State.finish_hostPc (m : Bool) : (s.finish m).hostPc = s.hostPc := rfl
@[simp] theorem State.finish_lastRead (m : Bool) : (s.finish m).lastRead = s.lastRead := rfl
@[simp] theorem State.finish_latencies (m : Bool) : (s.finish m).latencies = s.latencies := rfl

/-! ### fail -/

@[simp] theorem State.fail_irqEn (c : ErrCode) : (s.fail c).irqEn = s.irqEn := rfl
@[simp] theorem State.fail_done (c : ErrCode) : (s.fail c).done = true := rfl
@[simp] theorem State.fail_err (c : ErrCode) : (s.fail c).err = true := rfl
@[simp] theorem State.fail_matched (c : ErrCode) : (s.fail c).matched = false := rfl
@[simp] theorem State.fail_werr (c : ErrCode) : (s.fail c).werr = s.werr := rfl
@[simp] theorem State.fail_aerr (c : ErrCode) : (s.fail c).aerr = s.aerr := rfl
@[simp] theorem State.fail_errcode (c : ErrCode) : (s.fail c).errcode = c := rfl
@[simp] theorem State.fail_tstate (c : ErrCode) : (s.fail c).tstate = s.tstate := rfl
@[simp] theorem State.fail_pend (c : ErrCode) : (s.fail c).pend = none := rfl
@[simp] theorem State.fail_msgLen (c : ErrCode) : (s.fail c).msgLen = s.msgLen := rfl
@[simp] theorem State.fail_attrType (c : ErrCode) : (s.fail c).attrType = s.attrType := rfl
@[simp] theorem State.fail_attrOff (c : ErrCode) : (s.fail c).attrOff = s.attrOff := rfl
@[simp] theorem State.fail_keyLen (c : ErrCode) : (s.fail c).keyLen = s.keyLen := rfl
@[simp] theorem State.fail_xaFamily (c : ErrCode) : (s.fail c).xaFamily = s.xaFamily := rfl
@[simp] theorem State.fail_xaPort (c : ErrCode) : (s.fail c).xaPort = s.xaPort := rfl
@[simp] theorem State.fail_xaAddr0 (c : ErrCode) : (s.fail c).xaAddr0 = s.xaAddr0 := rfl
@[simp] theorem State.fail_xaAddr1 (c : ErrCode) : (s.fail c).xaAddr1 = s.xaAddr1 := rfl
@[simp] theorem State.fail_xaAddr2 (c : ErrCode) : (s.fail c).xaAddr2 = s.xaAddr2 := rfl
@[simp] theorem State.fail_xaAddr3 (c : ErrCode) : (s.fail c).xaAddr3 = s.xaAddr3 := rfl
@[simp] theorem State.fail_xaOff (c : ErrCode) : (s.fail c).xaOff = s.xaOff := rfl
@[simp] theorem State.fail_fpValue (c : ErrCode) : (s.fail c).fpValue = s.fpValue := rfl
@[simp] theorem State.fail_mac0 (c : ErrCode) : (s.fail c).mac0 = s.mac0 := rfl
@[simp] theorem State.fail_mac1 (c : ErrCode) : (s.fail c).mac1 = s.mac1 := rfl
@[simp] theorem State.fail_mac2 (c : ErrCode) : (s.fail c).mac2 = s.mac2 := rfl
@[simp] theorem State.fail_mac3 (c : ErrCode) : (s.fail c).mac3 = s.mac3 := rfl
@[simp] theorem State.fail_mac4 (c : ErrCode) : (s.fail c).mac4 = s.mac4 := rfl
@[simp] theorem State.fail_msg (c : ErrCode) : (s.fail c).msg = s.msg := rfl
@[simp] theorem State.fail_key (c : ErrCode) : (s.fail c).key = s.key := rfl
@[simp] theorem State.fail_resets (c : ErrCode) : (s.fail c).resets = s.resets := rfl
@[simp] theorem State.fail_script (c : ErrCode) : (s.fail c).script = s.script := rfl
@[simp] theorem State.fail_hostPc (c : ErrCode) : (s.fail c).hostPc = s.hostPc := rfl
@[simp] theorem State.fail_lastRead (c : ErrCode) : (s.fail c).lastRead = s.lastRead := rfl
@[simp] theorem State.fail_latencies (c : ErrCode) : (s.fail c).latencies = s.latencies := rfl

/-! ### acknowledge -/

@[simp] theorem State.acknowledge_irqEn (d : Word) : (s.acknowledge d).irqEn = s.irqEn := rfl
@[simp] theorem State.acknowledge_done (d : Word) : (s.acknowledge d).done = (s.done && !d.getLsbD 1) := rfl
@[simp] theorem State.acknowledge_err (d : Word) : (s.acknowledge d).err = (s.err && !d.getLsbD 2) := rfl
@[simp] theorem State.acknowledge_matched (d : Word) : (s.acknowledge d).matched = s.matched := rfl
@[simp] theorem State.acknowledge_werr (d : Word) : (s.acknowledge d).werr = (s.werr && !d.getLsbD 4) := rfl
@[simp] theorem State.acknowledge_aerr (d : Word) : (s.acknowledge d).aerr = (s.aerr && !d.getLsbD 5) := rfl
@[simp] theorem State.acknowledge_errcode (d : Word) : (s.acknowledge d).errcode = s.errcode := rfl
@[simp] theorem State.acknowledge_tstate (d : Word) : (s.acknowledge d).tstate = s.tstate := rfl
@[simp] theorem State.acknowledge_pend (d : Word) : (s.acknowledge d).pend = s.pend := rfl
@[simp] theorem State.acknowledge_msgLen (d : Word) : (s.acknowledge d).msgLen = s.msgLen := rfl
@[simp] theorem State.acknowledge_attrType (d : Word) : (s.acknowledge d).attrType = s.attrType := rfl
@[simp] theorem State.acknowledge_attrOff (d : Word) : (s.acknowledge d).attrOff = s.attrOff := rfl
@[simp] theorem State.acknowledge_keyLen (d : Word) : (s.acknowledge d).keyLen = s.keyLen := rfl
@[simp] theorem State.acknowledge_xaFamily (d : Word) : (s.acknowledge d).xaFamily = s.xaFamily := rfl
@[simp] theorem State.acknowledge_xaPort (d : Word) : (s.acknowledge d).xaPort = s.xaPort := rfl
@[simp] theorem State.acknowledge_xaAddr0 (d : Word) : (s.acknowledge d).xaAddr0 = s.xaAddr0 := rfl
@[simp] theorem State.acknowledge_xaAddr1 (d : Word) : (s.acknowledge d).xaAddr1 = s.xaAddr1 := rfl
@[simp] theorem State.acknowledge_xaAddr2 (d : Word) : (s.acknowledge d).xaAddr2 = s.xaAddr2 := rfl
@[simp] theorem State.acknowledge_xaAddr3 (d : Word) : (s.acknowledge d).xaAddr3 = s.xaAddr3 := rfl
@[simp] theorem State.acknowledge_xaOff (d : Word) : (s.acknowledge d).xaOff = s.xaOff := rfl
@[simp] theorem State.acknowledge_fpValue (d : Word) : (s.acknowledge d).fpValue = s.fpValue := rfl
@[simp] theorem State.acknowledge_mac0 (d : Word) : (s.acknowledge d).mac0 = s.mac0 := rfl
@[simp] theorem State.acknowledge_mac1 (d : Word) : (s.acknowledge d).mac1 = s.mac1 := rfl
@[simp] theorem State.acknowledge_mac2 (d : Word) : (s.acknowledge d).mac2 = s.mac2 := rfl
@[simp] theorem State.acknowledge_mac3 (d : Word) : (s.acknowledge d).mac3 = s.mac3 := rfl
@[simp] theorem State.acknowledge_mac4 (d : Word) : (s.acknowledge d).mac4 = s.mac4 := rfl
@[simp] theorem State.acknowledge_msg (d : Word) : (s.acknowledge d).msg = s.msg := rfl
@[simp] theorem State.acknowledge_key (d : Word) : (s.acknowledge d).key = s.key := rfl
@[simp] theorem State.acknowledge_resets (d : Word) : (s.acknowledge d).resets = s.resets := rfl
@[simp] theorem State.acknowledge_script (d : Word) : (s.acknowledge d).script = s.script := rfl
@[simp] theorem State.acknowledge_hostPc (d : Word) : (s.acknowledge d).hostPc = s.hostPc := rfl
@[simp] theorem State.acknowledge_lastRead (d : Word) : (s.acknowledge d).lastRead = s.lastRead := rfl
@[simp] theorem State.acknowledge_latencies (d : Word) : (s.acknowledge d).latencies = s.latencies := rfl

/-! ### flagDropped -/

@[simp] theorem State.flagDropped_irqEn : (s.flagDropped).irqEn = s.irqEn := rfl
@[simp] theorem State.flagDropped_done : (s.flagDropped).done = s.done := rfl
@[simp] theorem State.flagDropped_err : (s.flagDropped).err = s.err := rfl
@[simp] theorem State.flagDropped_matched : (s.flagDropped).matched = s.matched := rfl
@[simp] theorem State.flagDropped_werr : (s.flagDropped).werr = true := rfl
@[simp] theorem State.flagDropped_aerr : (s.flagDropped).aerr = s.aerr := rfl
@[simp] theorem State.flagDropped_errcode : (s.flagDropped).errcode = s.errcode := rfl
@[simp] theorem State.flagDropped_tstate : (s.flagDropped).tstate = s.tstate := rfl
@[simp] theorem State.flagDropped_pend : (s.flagDropped).pend = s.pend := rfl
@[simp] theorem State.flagDropped_msgLen : (s.flagDropped).msgLen = s.msgLen := rfl
@[simp] theorem State.flagDropped_attrType : (s.flagDropped).attrType = s.attrType := rfl
@[simp] theorem State.flagDropped_attrOff : (s.flagDropped).attrOff = s.attrOff := rfl
@[simp] theorem State.flagDropped_keyLen : (s.flagDropped).keyLen = s.keyLen := rfl
@[simp] theorem State.flagDropped_xaFamily : (s.flagDropped).xaFamily = s.xaFamily := rfl
@[simp] theorem State.flagDropped_xaPort : (s.flagDropped).xaPort = s.xaPort := rfl
@[simp] theorem State.flagDropped_xaAddr0 : (s.flagDropped).xaAddr0 = s.xaAddr0 := rfl
@[simp] theorem State.flagDropped_xaAddr1 : (s.flagDropped).xaAddr1 = s.xaAddr1 := rfl
@[simp] theorem State.flagDropped_xaAddr2 : (s.flagDropped).xaAddr2 = s.xaAddr2 := rfl
@[simp] theorem State.flagDropped_xaAddr3 : (s.flagDropped).xaAddr3 = s.xaAddr3 := rfl
@[simp] theorem State.flagDropped_xaOff : (s.flagDropped).xaOff = s.xaOff := rfl
@[simp] theorem State.flagDropped_fpValue : (s.flagDropped).fpValue = s.fpValue := rfl
@[simp] theorem State.flagDropped_mac0 : (s.flagDropped).mac0 = s.mac0 := rfl
@[simp] theorem State.flagDropped_mac1 : (s.flagDropped).mac1 = s.mac1 := rfl
@[simp] theorem State.flagDropped_mac2 : (s.flagDropped).mac2 = s.mac2 := rfl
@[simp] theorem State.flagDropped_mac3 : (s.flagDropped).mac3 = s.mac3 := rfl
@[simp] theorem State.flagDropped_mac4 : (s.flagDropped).mac4 = s.mac4 := rfl
@[simp] theorem State.flagDropped_msg : (s.flagDropped).msg = s.msg := rfl
@[simp] theorem State.flagDropped_key : (s.flagDropped).key = s.key := rfl
@[simp] theorem State.flagDropped_resets : (s.flagDropped).resets = s.resets := rfl
@[simp] theorem State.flagDropped_script : (s.flagDropped).script = s.script := rfl
@[simp] theorem State.flagDropped_hostPc : (s.flagDropped).hostPc = s.hostPc := rfl
@[simp] theorem State.flagDropped_lastRead : (s.flagDropped).lastRead = s.lastRead := rfl
@[simp] theorem State.flagDropped_latencies : (s.flagDropped).latencies = s.latencies := rfl

/-! ### flagAccess -/

@[simp] theorem State.flagAccess_irqEn : (s.flagAccess).irqEn = s.irqEn := rfl
@[simp] theorem State.flagAccess_done : (s.flagAccess).done = s.done := rfl
@[simp] theorem State.flagAccess_err : (s.flagAccess).err = s.err := rfl
@[simp] theorem State.flagAccess_matched : (s.flagAccess).matched = s.matched := rfl
@[simp] theorem State.flagAccess_werr : (s.flagAccess).werr = s.werr := rfl
@[simp] theorem State.flagAccess_aerr : (s.flagAccess).aerr = true := rfl
@[simp] theorem State.flagAccess_errcode : (s.flagAccess).errcode = s.errcode := rfl
@[simp] theorem State.flagAccess_tstate : (s.flagAccess).tstate = s.tstate := rfl
@[simp] theorem State.flagAccess_pend : (s.flagAccess).pend = s.pend := rfl
@[simp] theorem State.flagAccess_msgLen : (s.flagAccess).msgLen = s.msgLen := rfl
@[simp] theorem State.flagAccess_attrType : (s.flagAccess).attrType = s.attrType := rfl
@[simp] theorem State.flagAccess_attrOff : (s.flagAccess).attrOff = s.attrOff := rfl
@[simp] theorem State.flagAccess_keyLen : (s.flagAccess).keyLen = s.keyLen := rfl
@[simp] theorem State.flagAccess_xaFamily : (s.flagAccess).xaFamily = s.xaFamily := rfl
@[simp] theorem State.flagAccess_xaPort : (s.flagAccess).xaPort = s.xaPort := rfl
@[simp] theorem State.flagAccess_xaAddr0 : (s.flagAccess).xaAddr0 = s.xaAddr0 := rfl
@[simp] theorem State.flagAccess_xaAddr1 : (s.flagAccess).xaAddr1 = s.xaAddr1 := rfl
@[simp] theorem State.flagAccess_xaAddr2 : (s.flagAccess).xaAddr2 = s.xaAddr2 := rfl
@[simp] theorem State.flagAccess_xaAddr3 : (s.flagAccess).xaAddr3 = s.xaAddr3 := rfl
@[simp] theorem State.flagAccess_xaOff : (s.flagAccess).xaOff = s.xaOff := rfl
@[simp] theorem State.flagAccess_fpValue : (s.flagAccess).fpValue = s.fpValue := rfl
@[simp] theorem State.flagAccess_mac0 : (s.flagAccess).mac0 = s.mac0 := rfl
@[simp] theorem State.flagAccess_mac1 : (s.flagAccess).mac1 = s.mac1 := rfl
@[simp] theorem State.flagAccess_mac2 : (s.flagAccess).mac2 = s.mac2 := rfl
@[simp] theorem State.flagAccess_mac3 : (s.flagAccess).mac3 = s.mac3 := rfl
@[simp] theorem State.flagAccess_mac4 : (s.flagAccess).mac4 = s.mac4 := rfl
@[simp] theorem State.flagAccess_msg : (s.flagAccess).msg = s.msg := rfl
@[simp] theorem State.flagAccess_key : (s.flagAccess).key = s.key := rfl
@[simp] theorem State.flagAccess_resets : (s.flagAccess).resets = s.resets := rfl
@[simp] theorem State.flagAccess_script : (s.flagAccess).script = s.script := rfl
@[simp] theorem State.flagAccess_hostPc : (s.flagAccess).hostPc = s.hostPc := rfl
@[simp] theorem State.flagAccess_lastRead : (s.flagAccess).lastRead = s.lastRead := rfl
@[simp] theorem State.flagAccess_latencies : (s.flagAccess).latencies = s.latencies := rfl

/-! ### tick -/

@[simp] theorem State.tick_irqEn : (s.tick).irqEn = s.irqEn := rfl
@[simp] theorem State.tick_done : (s.tick).done = s.done := rfl
@[simp] theorem State.tick_err : (s.tick).err = s.err := rfl
@[simp] theorem State.tick_matched : (s.tick).matched = s.matched := rfl
@[simp] theorem State.tick_werr : (s.tick).werr = s.werr := rfl
@[simp] theorem State.tick_aerr : (s.tick).aerr = s.aerr := rfl
@[simp] theorem State.tick_errcode : (s.tick).errcode = s.errcode := rfl
@[simp] theorem State.tick_tstate : (s.tick).tstate = s.tstate := rfl
@[simp] theorem State.tick_pend : (s.tick).pend = s.pend.map fun p => ⟨p.word, p.delay - 1⟩ := rfl
@[simp] theorem State.tick_msgLen : (s.tick).msgLen = s.msgLen := rfl
@[simp] theorem State.tick_attrType : (s.tick).attrType = s.attrType := rfl
@[simp] theorem State.tick_attrOff : (s.tick).attrOff = s.attrOff := rfl
@[simp] theorem State.tick_keyLen : (s.tick).keyLen = s.keyLen := rfl
@[simp] theorem State.tick_xaFamily : (s.tick).xaFamily = s.xaFamily := rfl
@[simp] theorem State.tick_xaPort : (s.tick).xaPort = s.xaPort := rfl
@[simp] theorem State.tick_xaAddr0 : (s.tick).xaAddr0 = s.xaAddr0 := rfl
@[simp] theorem State.tick_xaAddr1 : (s.tick).xaAddr1 = s.xaAddr1 := rfl
@[simp] theorem State.tick_xaAddr2 : (s.tick).xaAddr2 = s.xaAddr2 := rfl
@[simp] theorem State.tick_xaAddr3 : (s.tick).xaAddr3 = s.xaAddr3 := rfl
@[simp] theorem State.tick_xaOff : (s.tick).xaOff = s.xaOff := rfl
@[simp] theorem State.tick_fpValue : (s.tick).fpValue = s.fpValue := rfl
@[simp] theorem State.tick_mac0 : (s.tick).mac0 = s.mac0 := rfl
@[simp] theorem State.tick_mac1 : (s.tick).mac1 = s.mac1 := rfl
@[simp] theorem State.tick_mac2 : (s.tick).mac2 = s.mac2 := rfl
@[simp] theorem State.tick_mac3 : (s.tick).mac3 = s.mac3 := rfl
@[simp] theorem State.tick_mac4 : (s.tick).mac4 = s.mac4 := rfl
@[simp] theorem State.tick_msg : (s.tick).msg = s.msg := rfl
@[simp] theorem State.tick_key : (s.tick).key = s.key := rfl
@[simp] theorem State.tick_resets : (s.tick).resets = s.resets := rfl
@[simp] theorem State.tick_script : (s.tick).script = s.script := rfl
@[simp] theorem State.tick_hostPc : (s.tick).hostPc = s.hostPc := rfl
@[simp] theorem State.tick_lastRead : (s.tick).lastRead = s.lastRead := rfl
@[simp] theorem State.tick_latencies : (s.tick).latencies = s.latencies := rfl

/-! ### resetRegs -/

@[simp] theorem State.resetRegs_irqEn : (s.resetRegs).irqEn = State.reset.irqEn := rfl
@[simp] theorem State.resetRegs_done : (s.resetRegs).done = State.reset.done := rfl
@[simp] theorem State.resetRegs_err : (s.resetRegs).err = State.reset.err := rfl
@[simp] theorem State.resetRegs_matched : (s.resetRegs).matched = State.reset.matched := rfl
@[simp] theorem State.resetRegs_werr : (s.resetRegs).werr = State.reset.werr := rfl
@[simp] theorem State.resetRegs_aerr : (s.resetRegs).aerr = State.reset.aerr := rfl
@[simp] theorem State.resetRegs_errcode : (s.resetRegs).errcode = State.reset.errcode := rfl
@[simp] theorem State.resetRegs_tstate : (s.resetRegs).tstate = State.reset.tstate := rfl
@[simp] theorem State.resetRegs_pend : (s.resetRegs).pend = State.reset.pend := rfl
@[simp] theorem State.resetRegs_msgLen : (s.resetRegs).msgLen = State.reset.msgLen := rfl
@[simp] theorem State.resetRegs_attrType : (s.resetRegs).attrType = State.reset.attrType := rfl
@[simp] theorem State.resetRegs_attrOff : (s.resetRegs).attrOff = State.reset.attrOff := rfl
@[simp] theorem State.resetRegs_keyLen : (s.resetRegs).keyLen = State.reset.keyLen := rfl
@[simp] theorem State.resetRegs_xaFamily : (s.resetRegs).xaFamily = State.reset.xaFamily := rfl
@[simp] theorem State.resetRegs_xaPort : (s.resetRegs).xaPort = State.reset.xaPort := rfl
@[simp] theorem State.resetRegs_xaAddr0 : (s.resetRegs).xaAddr0 = State.reset.xaAddr0 := rfl
@[simp] theorem State.resetRegs_xaAddr1 : (s.resetRegs).xaAddr1 = State.reset.xaAddr1 := rfl
@[simp] theorem State.resetRegs_xaAddr2 : (s.resetRegs).xaAddr2 = State.reset.xaAddr2 := rfl
@[simp] theorem State.resetRegs_xaAddr3 : (s.resetRegs).xaAddr3 = State.reset.xaAddr3 := rfl
@[simp] theorem State.resetRegs_xaOff : (s.resetRegs).xaOff = State.reset.xaOff := rfl
@[simp] theorem State.resetRegs_fpValue : (s.resetRegs).fpValue = State.reset.fpValue := rfl
@[simp] theorem State.resetRegs_mac0 : (s.resetRegs).mac0 = State.reset.mac0 := rfl
@[simp] theorem State.resetRegs_mac1 : (s.resetRegs).mac1 = State.reset.mac1 := rfl
@[simp] theorem State.resetRegs_mac2 : (s.resetRegs).mac2 = State.reset.mac2 := rfl
@[simp] theorem State.resetRegs_mac3 : (s.resetRegs).mac3 = State.reset.mac3 := rfl
@[simp] theorem State.resetRegs_mac4 : (s.resetRegs).mac4 = State.reset.mac4 := rfl
@[simp] theorem State.resetRegs_msg : (s.resetRegs).msg = s.msg := rfl
@[simp] theorem State.resetRegs_key : (s.resetRegs).key = s.key := rfl
@[simp] theorem State.resetRegs_resets : (s.resetRegs).resets = s.resets := rfl
@[simp] theorem State.resetRegs_script : (s.resetRegs).script = s.script := rfl
@[simp] theorem State.resetRegs_hostPc : (s.resetRegs).hostPc = s.hostPc := rfl
@[simp] theorem State.resetRegs_lastRead : (s.resetRegs).lastRead = s.lastRead := rfl
@[simp] theorem State.resetRegs_latencies : (s.resetRegs).latencies = s.latencies := rfl

/-! ### hwReset -/

@[simp] theorem State.hwReset_irqEn : (s.hwReset).irqEn = State.reset.irqEn := rfl
@[simp] theorem State.hwReset_done : (s.hwReset).done = State.reset.done := rfl
@[simp] theorem State.hwReset_err : (s.hwReset).err = State.reset.err := rfl
@[simp] theorem State.hwReset_matched : (s.hwReset).matched = State.reset.matched := rfl
@[simp] theorem State.hwReset_werr : (s.hwReset).werr = State.reset.werr := rfl
@[simp] theorem State.hwReset_aerr : (s.hwReset).aerr = State.reset.aerr := rfl
@[simp] theorem State.hwReset_errcode : (s.hwReset).errcode = State.reset.errcode := rfl
@[simp] theorem State.hwReset_tstate : (s.hwReset).tstate = State.reset.tstate := rfl
@[simp] theorem State.hwReset_pend : (s.hwReset).pend = State.reset.pend := rfl
@[simp] theorem State.hwReset_msgLen : (s.hwReset).msgLen = State.reset.msgLen := rfl
@[simp] theorem State.hwReset_attrType : (s.hwReset).attrType = State.reset.attrType := rfl
@[simp] theorem State.hwReset_attrOff : (s.hwReset).attrOff = State.reset.attrOff := rfl
@[simp] theorem State.hwReset_keyLen : (s.hwReset).keyLen = State.reset.keyLen := rfl
@[simp] theorem State.hwReset_xaFamily : (s.hwReset).xaFamily = State.reset.xaFamily := rfl
@[simp] theorem State.hwReset_xaPort : (s.hwReset).xaPort = State.reset.xaPort := rfl
@[simp] theorem State.hwReset_xaAddr0 : (s.hwReset).xaAddr0 = State.reset.xaAddr0 := rfl
@[simp] theorem State.hwReset_xaAddr1 : (s.hwReset).xaAddr1 = State.reset.xaAddr1 := rfl
@[simp] theorem State.hwReset_xaAddr2 : (s.hwReset).xaAddr2 = State.reset.xaAddr2 := rfl
@[simp] theorem State.hwReset_xaAddr3 : (s.hwReset).xaAddr3 = State.reset.xaAddr3 := rfl
@[simp] theorem State.hwReset_xaOff : (s.hwReset).xaOff = State.reset.xaOff := rfl
@[simp] theorem State.hwReset_fpValue : (s.hwReset).fpValue = State.reset.fpValue := rfl
@[simp] theorem State.hwReset_mac0 : (s.hwReset).mac0 = State.reset.mac0 := rfl
@[simp] theorem State.hwReset_mac1 : (s.hwReset).mac1 = State.reset.mac1 := rfl
@[simp] theorem State.hwReset_mac2 : (s.hwReset).mac2 = State.reset.mac2 := rfl
@[simp] theorem State.hwReset_mac3 : (s.hwReset).mac3 = State.reset.mac3 := rfl
@[simp] theorem State.hwReset_mac4 : (s.hwReset).mac4 = State.reset.mac4 := rfl
@[simp] theorem State.hwReset_msg : (s.hwReset).msg = State.reset.msg := rfl
@[simp] theorem State.hwReset_key : (s.hwReset).key = State.reset.key := rfl
@[simp] theorem State.hwReset_resets : (s.hwReset).resets = s.resets + 1 := rfl
@[simp] theorem State.hwReset_script : (s.hwReset).script = s.script := rfl
@[simp] theorem State.hwReset_hostPc : (s.hwReset).hostPc = s.hostPc := rfl
@[simp] theorem State.hwReset_lastRead : (s.hwReset).lastRead = s.lastRead := rfl
@[simp] theorem State.hwReset_latencies : (s.hwReset).latencies = s.latencies := rfl

/-! ### setHostPc -/

@[simp] theorem State.setHostPc_irqEn (n : Nat) : (s.setHostPc n).irqEn = s.irqEn := rfl
@[simp] theorem State.setHostPc_done (n : Nat) : (s.setHostPc n).done = s.done := rfl
@[simp] theorem State.setHostPc_err (n : Nat) : (s.setHostPc n).err = s.err := rfl
@[simp] theorem State.setHostPc_matched (n : Nat) : (s.setHostPc n).matched = s.matched := rfl
@[simp] theorem State.setHostPc_werr (n : Nat) : (s.setHostPc n).werr = s.werr := rfl
@[simp] theorem State.setHostPc_aerr (n : Nat) : (s.setHostPc n).aerr = s.aerr := rfl
@[simp] theorem State.setHostPc_errcode (n : Nat) : (s.setHostPc n).errcode = s.errcode := rfl
@[simp] theorem State.setHostPc_tstate (n : Nat) : (s.setHostPc n).tstate = s.tstate := rfl
@[simp] theorem State.setHostPc_pend (n : Nat) : (s.setHostPc n).pend = s.pend := rfl
@[simp] theorem State.setHostPc_msgLen (n : Nat) : (s.setHostPc n).msgLen = s.msgLen := rfl
@[simp] theorem State.setHostPc_attrType (n : Nat) : (s.setHostPc n).attrType = s.attrType := rfl
@[simp] theorem State.setHostPc_attrOff (n : Nat) : (s.setHostPc n).attrOff = s.attrOff := rfl
@[simp] theorem State.setHostPc_keyLen (n : Nat) : (s.setHostPc n).keyLen = s.keyLen := rfl
@[simp] theorem State.setHostPc_xaFamily (n : Nat) : (s.setHostPc n).xaFamily = s.xaFamily := rfl
@[simp] theorem State.setHostPc_xaPort (n : Nat) : (s.setHostPc n).xaPort = s.xaPort := rfl
@[simp] theorem State.setHostPc_xaAddr0 (n : Nat) : (s.setHostPc n).xaAddr0 = s.xaAddr0 := rfl
@[simp] theorem State.setHostPc_xaAddr1 (n : Nat) : (s.setHostPc n).xaAddr1 = s.xaAddr1 := rfl
@[simp] theorem State.setHostPc_xaAddr2 (n : Nat) : (s.setHostPc n).xaAddr2 = s.xaAddr2 := rfl
@[simp] theorem State.setHostPc_xaAddr3 (n : Nat) : (s.setHostPc n).xaAddr3 = s.xaAddr3 := rfl
@[simp] theorem State.setHostPc_xaOff (n : Nat) : (s.setHostPc n).xaOff = s.xaOff := rfl
@[simp] theorem State.setHostPc_fpValue (n : Nat) : (s.setHostPc n).fpValue = s.fpValue := rfl
@[simp] theorem State.setHostPc_mac0 (n : Nat) : (s.setHostPc n).mac0 = s.mac0 := rfl
@[simp] theorem State.setHostPc_mac1 (n : Nat) : (s.setHostPc n).mac1 = s.mac1 := rfl
@[simp] theorem State.setHostPc_mac2 (n : Nat) : (s.setHostPc n).mac2 = s.mac2 := rfl
@[simp] theorem State.setHostPc_mac3 (n : Nat) : (s.setHostPc n).mac3 = s.mac3 := rfl
@[simp] theorem State.setHostPc_mac4 (n : Nat) : (s.setHostPc n).mac4 = s.mac4 := rfl
@[simp] theorem State.setHostPc_msg (n : Nat) : (s.setHostPc n).msg = s.msg := rfl
@[simp] theorem State.setHostPc_key (n : Nat) : (s.setHostPc n).key = s.key := rfl
@[simp] theorem State.setHostPc_resets (n : Nat) : (s.setHostPc n).resets = s.resets := rfl
@[simp] theorem State.setHostPc_script (n : Nat) : (s.setHostPc n).script = s.script := rfl
@[simp] theorem State.setHostPc_hostPc (n : Nat) : (s.setHostPc n).hostPc = n := rfl
@[simp] theorem State.setHostPc_lastRead (n : Nat) : (s.setHostPc n).lastRead = s.lastRead := rfl
@[simp] theorem State.setHostPc_latencies (n : Nat) : (s.setHostPc n).latencies = s.latencies := rfl

/-! ### setLastRead -/

@[simp] theorem State.setLastRead_irqEn (v : Word) : (s.setLastRead v).irqEn = s.irqEn := rfl
@[simp] theorem State.setLastRead_done (v : Word) : (s.setLastRead v).done = s.done := rfl
@[simp] theorem State.setLastRead_err (v : Word) : (s.setLastRead v).err = s.err := rfl
@[simp] theorem State.setLastRead_matched (v : Word) : (s.setLastRead v).matched = s.matched := rfl
@[simp] theorem State.setLastRead_werr (v : Word) : (s.setLastRead v).werr = s.werr := rfl
@[simp] theorem State.setLastRead_aerr (v : Word) : (s.setLastRead v).aerr = s.aerr := rfl
@[simp] theorem State.setLastRead_errcode (v : Word) : (s.setLastRead v).errcode = s.errcode := rfl
@[simp] theorem State.setLastRead_tstate (v : Word) : (s.setLastRead v).tstate = s.tstate := rfl
@[simp] theorem State.setLastRead_pend (v : Word) : (s.setLastRead v).pend = s.pend := rfl
@[simp] theorem State.setLastRead_msgLen (v : Word) : (s.setLastRead v).msgLen = s.msgLen := rfl
@[simp] theorem State.setLastRead_attrType (v : Word) : (s.setLastRead v).attrType = s.attrType := rfl
@[simp] theorem State.setLastRead_attrOff (v : Word) : (s.setLastRead v).attrOff = s.attrOff := rfl
@[simp] theorem State.setLastRead_keyLen (v : Word) : (s.setLastRead v).keyLen = s.keyLen := rfl
@[simp] theorem State.setLastRead_xaFamily (v : Word) : (s.setLastRead v).xaFamily = s.xaFamily := rfl
@[simp] theorem State.setLastRead_xaPort (v : Word) : (s.setLastRead v).xaPort = s.xaPort := rfl
@[simp] theorem State.setLastRead_xaAddr0 (v : Word) : (s.setLastRead v).xaAddr0 = s.xaAddr0 := rfl
@[simp] theorem State.setLastRead_xaAddr1 (v : Word) : (s.setLastRead v).xaAddr1 = s.xaAddr1 := rfl
@[simp] theorem State.setLastRead_xaAddr2 (v : Word) : (s.setLastRead v).xaAddr2 = s.xaAddr2 := rfl
@[simp] theorem State.setLastRead_xaAddr3 (v : Word) : (s.setLastRead v).xaAddr3 = s.xaAddr3 := rfl
@[simp] theorem State.setLastRead_xaOff (v : Word) : (s.setLastRead v).xaOff = s.xaOff := rfl
@[simp] theorem State.setLastRead_fpValue (v : Word) : (s.setLastRead v).fpValue = s.fpValue := rfl
@[simp] theorem State.setLastRead_mac0 (v : Word) : (s.setLastRead v).mac0 = s.mac0 := rfl
@[simp] theorem State.setLastRead_mac1 (v : Word) : (s.setLastRead v).mac1 = s.mac1 := rfl
@[simp] theorem State.setLastRead_mac2 (v : Word) : (s.setLastRead v).mac2 = s.mac2 := rfl
@[simp] theorem State.setLastRead_mac3 (v : Word) : (s.setLastRead v).mac3 = s.mac3 := rfl
@[simp] theorem State.setLastRead_mac4 (v : Word) : (s.setLastRead v).mac4 = s.mac4 := rfl
@[simp] theorem State.setLastRead_msg (v : Word) : (s.setLastRead v).msg = s.msg := rfl
@[simp] theorem State.setLastRead_key (v : Word) : (s.setLastRead v).key = s.key := rfl
@[simp] theorem State.setLastRead_resets (v : Word) : (s.setLastRead v).resets = s.resets := rfl
@[simp] theorem State.setLastRead_script (v : Word) : (s.setLastRead v).script = s.script := rfl
@[simp] theorem State.setLastRead_hostPc (v : Word) : (s.setLastRead v).hostPc = s.hostPc := rfl
@[simp] theorem State.setLastRead_lastRead (v : Word) : (s.setLastRead v).lastRead = v := rfl
@[simp] theorem State.setLastRead_latencies (v : Word) : (s.setLastRead v).latencies = s.latencies := rfl

/-! ### loadScript -/

@[simp] theorem State.loadScript_irqEn (p : List HostStmt) (l : List Nat) : (s.loadScript p l).irqEn = s.irqEn := rfl
@[simp] theorem State.loadScript_done (p : List HostStmt) (l : List Nat) : (s.loadScript p l).done = s.done := rfl
@[simp] theorem State.loadScript_err (p : List HostStmt) (l : List Nat) : (s.loadScript p l).err = s.err := rfl
@[simp] theorem State.loadScript_matched (p : List HostStmt) (l : List Nat) : (s.loadScript p l).matched = s.matched := rfl
@[simp] theorem State.loadScript_werr (p : List HostStmt) (l : List Nat) : (s.loadScript p l).werr = s.werr := rfl
@[simp] theorem State.loadScript_aerr (p : List HostStmt) (l : List Nat) : (s.loadScript p l).aerr = s.aerr := rfl
@[simp] theorem State.loadScript_errcode (p : List HostStmt) (l : List Nat) : (s.loadScript p l).errcode = s.errcode := rfl
@[simp] theorem State.loadScript_tstate (p : List HostStmt) (l : List Nat) : (s.loadScript p l).tstate = s.tstate := rfl
@[simp] theorem State.loadScript_pend (p : List HostStmt) (l : List Nat) : (s.loadScript p l).pend = s.pend := rfl
@[simp] theorem State.loadScript_msgLen (p : List HostStmt) (l : List Nat) : (s.loadScript p l).msgLen = s.msgLen := rfl
@[simp] theorem State.loadScript_attrType (p : List HostStmt) (l : List Nat) : (s.loadScript p l).attrType = s.attrType := rfl
@[simp] theorem State.loadScript_attrOff (p : List HostStmt) (l : List Nat) : (s.loadScript p l).attrOff = s.attrOff := rfl
@[simp] theorem State.loadScript_keyLen (p : List HostStmt) (l : List Nat) : (s.loadScript p l).keyLen = s.keyLen := rfl
@[simp] theorem State.loadScript_xaFamily (p : List HostStmt) (l : List Nat) : (s.loadScript p l).xaFamily = s.xaFamily := rfl
@[simp] theorem State.loadScript_xaPort (p : List HostStmt) (l : List Nat) : (s.loadScript p l).xaPort = s.xaPort := rfl
@[simp] theorem State.loadScript_xaAddr0 (p : List HostStmt) (l : List Nat) : (s.loadScript p l).xaAddr0 = s.xaAddr0 := rfl
@[simp] theorem State.loadScript_xaAddr1 (p : List HostStmt) (l : List Nat) : (s.loadScript p l).xaAddr1 = s.xaAddr1 := rfl
@[simp] theorem State.loadScript_xaAddr2 (p : List HostStmt) (l : List Nat) : (s.loadScript p l).xaAddr2 = s.xaAddr2 := rfl
@[simp] theorem State.loadScript_xaAddr3 (p : List HostStmt) (l : List Nat) : (s.loadScript p l).xaAddr3 = s.xaAddr3 := rfl
@[simp] theorem State.loadScript_xaOff (p : List HostStmt) (l : List Nat) : (s.loadScript p l).xaOff = s.xaOff := rfl
@[simp] theorem State.loadScript_fpValue (p : List HostStmt) (l : List Nat) : (s.loadScript p l).fpValue = s.fpValue := rfl
@[simp] theorem State.loadScript_mac0 (p : List HostStmt) (l : List Nat) : (s.loadScript p l).mac0 = s.mac0 := rfl
@[simp] theorem State.loadScript_mac1 (p : List HostStmt) (l : List Nat) : (s.loadScript p l).mac1 = s.mac1 := rfl
@[simp] theorem State.loadScript_mac2 (p : List HostStmt) (l : List Nat) : (s.loadScript p l).mac2 = s.mac2 := rfl
@[simp] theorem State.loadScript_mac3 (p : List HostStmt) (l : List Nat) : (s.loadScript p l).mac3 = s.mac3 := rfl
@[simp] theorem State.loadScript_mac4 (p : List HostStmt) (l : List Nat) : (s.loadScript p l).mac4 = s.mac4 := rfl
@[simp] theorem State.loadScript_msg (p : List HostStmt) (l : List Nat) : (s.loadScript p l).msg = s.msg := rfl
@[simp] theorem State.loadScript_key (p : List HostStmt) (l : List Nat) : (s.loadScript p l).key = s.key := rfl
@[simp] theorem State.loadScript_resets (p : List HostStmt) (l : List Nat) : (s.loadScript p l).resets = s.resets := rfl
@[simp] theorem State.loadScript_script (p : List HostStmt) (l : List Nat) : (s.loadScript p l).script = p := rfl
@[simp] theorem State.loadScript_hostPc (p : List HostStmt) (l : List Nat) : (s.loadScript p l).hostPc = 0 := rfl
@[simp] theorem State.loadScript_lastRead (p : List HostStmt) (l : List Nat) : (s.loadScript p l).lastRead = s.lastRead := rfl
@[simp] theorem State.loadScript_latencies (p : List HostStmt) (l : List Nat) : (s.loadScript p l).latencies = l := rfl

/-! ### reset -/

@[simp] theorem State.reset_irqEn : State.reset.irqEn = false := rfl
@[simp] theorem State.reset_done : State.reset.done = false := rfl
@[simp] theorem State.reset_err : State.reset.err = false := rfl
@[simp] theorem State.reset_matched : State.reset.matched = false := rfl
@[simp] theorem State.reset_werr : State.reset.werr = false := rfl
@[simp] theorem State.reset_aerr : State.reset.aerr = false := rfl
@[simp] theorem State.reset_errcode : State.reset.errcode = .ok := rfl
@[simp] theorem State.reset_tstate : State.reset.tstate = .opened := rfl
@[simp] theorem State.reset_pend : State.reset.pend = none := rfl
@[simp] theorem State.reset_msgLen : State.reset.msgLen = 0 := rfl
@[simp] theorem State.reset_attrType : State.reset.attrType = 0 := rfl
@[simp] theorem State.reset_attrOff : State.reset.attrOff = 0 := rfl
@[simp] theorem State.reset_keyLen : State.reset.keyLen = 0 := rfl
@[simp] theorem State.reset_xaFamily : State.reset.xaFamily = 0 := rfl
@[simp] theorem State.reset_xaPort : State.reset.xaPort = 0 := rfl
@[simp] theorem State.reset_xaAddr0 : State.reset.xaAddr0 = 0 := rfl
@[simp] theorem State.reset_xaAddr1 : State.reset.xaAddr1 = 0 := rfl
@[simp] theorem State.reset_xaAddr2 : State.reset.xaAddr2 = 0 := rfl
@[simp] theorem State.reset_xaAddr3 : State.reset.xaAddr3 = 0 := rfl
@[simp] theorem State.reset_xaOff : State.reset.xaOff = 0 := rfl
@[simp] theorem State.reset_fpValue : State.reset.fpValue = 0 := rfl
@[simp] theorem State.reset_mac0 : State.reset.mac0 = 0 := rfl
@[simp] theorem State.reset_mac1 : State.reset.mac1 = 0 := rfl
@[simp] theorem State.reset_mac2 : State.reset.mac2 = 0 := rfl
@[simp] theorem State.reset_mac3 : State.reset.mac3 = 0 := rfl
@[simp] theorem State.reset_mac4 : State.reset.mac4 = 0 := rfl
@[simp] theorem State.reset_msg : State.reset.msg = [] := rfl
@[simp] theorem State.reset_key : State.reset.key = [] := rfl
@[simp] theorem State.reset_resets : State.reset.resets = 0 := rfl
@[simp] theorem State.reset_script : State.reset.script = [] := rfl
@[simp] theorem State.reset_hostPc : State.reset.hostPc = 0 := rfl
@[simp] theorem State.reset_lastRead : State.reset.lastRead = 0 := rfl
@[simp] theorem State.reset_latencies : State.reset.latencies = [] := rfl

end Sys2Proof.Machine
end

