-- ==== Sys2Proof/Laws/Memory.lean ====
section
/-! SUPPORT. The buffers: a read after a write, that writes keep the canonical form, and what reads of MSG give after a
store. -/

namespace Sys2Proof.Machine

open Sys2Proof

/-! ### One byte -/

/-- What a write of one byte does to every read. -/
theorem Memory.find_put (m : Memory) (a x : Nat) (v : Byte) :
    Memory.find (Memory.put m a v) x = if x = a then some v else Memory.find m x := by
  induction m with
  | nil => simp [Memory.put, Memory.find]
  | cons c m ih =>
    obtain ⟨k, w⟩ := c
    simp only [Memory.put]
    split
    · simp [Memory.find]
    · split
      · subst_vars
        simp only [Memory.find]
        split <;> rfl
      · simp only [Memory.find, ih]
        split
        · split
          · omega
          · rfl
        · rfl

theorem Memory.mem_put (m : Memory) (a : Nat) (v : Byte) (c : Host.Cell) (h : c ∈ Memory.put m a v) :
    c = (a, v) ∨ c ∈ m := by
  induction m with
  | nil => simpa [Memory.put] using h
  | cons d m ih =>
    obtain ⟨k, w⟩ := d
    simp only [Memory.put] at h
    split at h
    · simpa using h
    · split at h
      · rcases List.mem_cons.mp h with h | h
        · exact .inl h
        · exact .inr (List.mem_cons_of_mem _ h)
      · rcases List.mem_cons.mp h with h | h
        · exact .inr (h ▸ List.mem_cons_self)
        · exact (ih h).imp id (List.mem_cons_of_mem _)

/-- A write inside the buffer keeps the canonical form. -/
theorem Memory.put_wf {bound : Nat} {m : Memory} (hm : Memory.wf bound m) {a : Nat} (ha : a < bound) (v : Byte) :
    Memory.wf bound (Memory.put m a v) := by
  refine ⟨?_, fun c hc => ?_⟩
  · obtain ⟨hp, -⟩ := hm
    induction m with
    | nil => simp [Memory.put]
    | cons d m ih =>
      obtain ⟨k, w⟩ := d
      rw [List.pairwise_cons] at hp
      simp only [Memory.put]
      split
      · refine List.pairwise_cons.mpr ⟨fun c hc => ?_, List.pairwise_cons.mpr hp⟩
        rcases List.mem_cons.mp hc with rfl | hc
        · assumption
        · have := hp.1 c hc; simp only at this ⊢; omega
      · split
        · subst_vars; exact List.pairwise_cons.mpr hp
        · refine List.pairwise_cons.mpr ⟨fun c hc => ?_, ih hp.2⟩
          rcases Memory.mem_put m a v c hc with rfl | hc
          · simp only; omega
          · exact hp.1 c hc
  · rcases Memory.mem_put m a v c hc with rfl | hc
    · exact ha
    · exact hm.2 c hc

/-! ### A byte string -/

/-- What a write of a byte string does to every read. -/
theorem Memory.find_putBytes (m : Memory) (a x : Nat) (bs : List Byte) :
    Memory.find (Memory.putBytes m a bs) x =
      if a ≤ x then (bs[x - a]?).or (Memory.find m x) else Memory.find m x := by
  induction bs generalizing m a with
  | nil => simp [Memory.putBytes]
  | cons b bs ih =>
    rw [Memory.putBytes, ih, Memory.find_put]
    by_cases h : a + 1 ≤ x
    · rw [if_pos h, if_neg (show ¬ x = a by omega), if_pos (show a ≤ x by omega),
        show x - a = (x - (a + 1)) + 1 by omega]
      simp
    · rw [if_neg h]
      by_cases hx : x = a
      · subst hx; simp
      · rw [if_neg hx, if_neg (show ¬ a ≤ x by omega)]

/-- A write of a byte string inside the buffer keeps the canonical form. -/
theorem Memory.putBytes_wf {bound : Nat} {m : Memory} (hm : Memory.wf bound m) {a : Nat} {bs : List Byte}
    (h : a + bs.length ≤ bound) : Memory.wf bound (Memory.putBytes m a bs) := by
  induction bs generalizing m a with
  | nil => exact hm
  | cons b bs ih =>
    rw [List.length_cons] at h
    exact ih (Memory.put_wf hm (by omega) b) (by omega)

theorem Memory.nil_wf (bound : Nat) : Memory.wf bound [] := by simp [Memory.wf]

/-! ### Reads of MSG -/

@[simp] theorem State.memBytes_length (s : State) (a n : Nat) : (s.memBytes a n).length = n := by simp [State.memBytes]

@[simp] theorem State.keyBytes_length (s : State) (n : Nat) : (s.keyBytes n).length = n := by simp [State.keyBytes]

@[simp] theorem txId_length (s : State) : (txId s).length = 12 := by simp [txId]

/-- MSG after a store: the stored bytes where they went, the old bytes elsewhere. -/
theorem State.msgAt_storeMsg (s : State) (a x : Nat) (bs : List Byte) :
    (s.storeMsg a bs).msgAt x = if a ≤ x then (bs[x - a]?).getD (s.msgAt x) else s.msgAt x := by
  rw [State.msgAt, State.storeMsg_msg, State.storeMsg_resets, Memory.find_putBytes]
  split
  · rw [State.msgAt]
    cases bs[x - a]? <;> simp
  · rfl

theorem State.msgAt_memWrite (s : State) (a n v x : Nat) :
    (s.memWrite a n v).msgAt x = if a ≤ x then ((beBytes n v)[x - a]?).getD (s.msgAt x) else s.msgAt x :=
  s.msgAt_storeMsg a x (beBytes n v)

/-- A store leaves every byte outside it alone. -/
theorem State.msgAt_storeMsg_outside (s : State) {a x : Nat} {bs : List Byte} (h : x < a ∨ a + bs.length ≤ x) :
    (s.storeMsg a bs).msgAt x = s.msgAt x := by
  rw [State.msgAt_storeMsg]
  split
  · rw [List.getElem?_eq_none (by omega)]; rfl
  · rfl

theorem State.msgAt_memWrite_outside (s : State) {a n v x : Nat} (h : x < a ∨ a + n ≤ x) :
    (s.memWrite a n v).msgAt x = s.msgAt x := s.msgAt_storeMsg_outside (by simpa using h)

/-- MSG reads depend on the buffer and the count of resets only. -/
theorem State.msgAt_congr {s t : State} (h : t.msg = s.msg) (hr : t.resets = s.resets) (x : Nat) :
    t.msgAt x = s.msgAt x := by rw [State.msgAt, State.msgAt, h, hr]

theorem State.keyAt_congr {s t : State} (h : t.key = s.key) (hr : t.resets = s.resets) (x : Nat) :
    t.keyAt x = s.keyAt x := by rw [State.keyAt, State.keyAt, h, hr]

theorem State.memBytes_congr {s t : State} {a n : Nat} (h : ∀ x, a ≤ x → x < a + n → t.msgAt x = s.msgAt x) :
    t.memBytes a n = s.memBytes a n := by
  refine List.map_congr_left fun i hi => h _ (by omega) ?_
  have := List.mem_range.mp hi
  omega

theorem State.memRead_congr {s t : State} {a n : Nat} (h : ∀ x, a ≤ x → x < a + n → t.msgAt x = s.msgAt x) :
    t.memRead a n = s.memRead a n := by rw [State.memRead, State.memRead, State.memBytes_congr h]

theorem State.keyBytes_congr {s t : State} {n : Nat} (h : ∀ x, x < n → t.keyAt x = s.keyAt x) :
    t.keyBytes n = s.keyBytes n := List.map_congr_left fun i hi => h i (List.mem_range.mp hi)

theorem span_congr {s t : State} {len e : Nat} (h : ∀ x, x < e → x ≠ 2 → x ≠ 3 → t.msgAt x = s.msgAt x) (he : 4 ≤ e) :
    span t len e = span s len e := by
  rw [span, span, State.memBytes_congr (s := s) (t := t) (a := 0) (fun x _ hx => h x (by omega) (by omega) (by omega)),
    State.memBytes_congr (s := s) (t := t) (a := 4) (fun x h1 h2 => h x (by omega) (by omega) (by omega))]

/-- Reading back exactly what was stored. -/
theorem State.memBytes_storeMsg (s : State) (a : Nat) (bs : List Byte) :
    (s.storeMsg a bs).memBytes a bs.length = bs := by
  apply List.ext_getElem (by simp)
  intro i h1 h2
  simp only [State.memBytes, List.getElem_map, List.getElem_range, State.msgAt_storeMsg]
  rw [if_pos (by omega), Nat.add_sub_cancel_left, List.getElem?_eq_getElem h2]
  rfl

theorem State.memBytes_memWrite (s : State) (a n v : Nat) : (s.memWrite a n v).memBytes a n = beBytes n v := by
  have h := s.memBytes_storeMsg a (beBytes n v)
  rwa [beBytes_length] at h

/-- MemRead after MemWrite gives the low 8n bits (00_scope R16). -/
theorem State.memRead_memWrite (s : State) (a n v : Nat) : (s.memWrite a n v).memRead a n = v % 256 ^ n := by
  rw [State.memRead, State.memBytes_memWrite, beNat_beBytes]

theorem State.memRead_lt (s : State) (a n : Nat) : s.memRead a n < 256 ^ n := by
  have := beNat_lt (s.memBytes a n)
  rwa [State.memBytes_length] at this

/-- The bytes from a on: those of the first part, then those of the second. -/
theorem State.memBytes_add (s : State) (a m n : Nat) :
    s.memBytes a (m + n) = s.memBytes a m ++ s.memBytes (a + m) n := by
  simp [State.memBytes, List.range_add, Nat.add_assoc]

theorem State.wordOf_memBytes (s : State) (a : Nat) : wordOf (s.memBytes a 4) = BitVec.ofNat 32 (s.memRead a 4) := rfl

theorem State.be32_memRead (s : State) (a : Nat) : be32 (BitVec.ofNat 32 (s.memRead a 4)) = s.memBytes a 4 :=
  be32_wordOf _ (by simp)

/-- TxId as three words. -/
theorem txId_words (s : State) :
    txId s = be32 (BitVec.ofNat 32 (s.memRead 8 4)) ++ be32 (BitVec.ofNat 32 (s.memRead 12 4)) ++
      be32 (BitVec.ofNat 32 (s.memRead 16 4)) := by
  rw [State.be32_memRead, State.be32_memRead, State.be32_memRead, txId, ← State.memBytes_add, ← State.memBytes_add]

end Sys2Proof.Machine
end

