-- ==== Sys2Proof/Laws/Bus.lean ====
section
/-! SUPPORT. What a bus access can do: which accesses are decoded, that a read changes at most AERR, and every case of a
write. -/

namespace Sys2Proof.Machine

open Sys2Proof

/-! ### The address map -/

@[simp] theorem keyBase_eq : keyBase = 0x400 := rfl

@[simp] theorem keyEnd_eq : keyEnd = 0x800 := rfl

@[simp] theorem msgBase_eq : msgBase = 0x10000 := rfl

theorem regAt_offset (r : Reg) : regAt r.offset = some r := by cases r <;> rfl

theorem regAt_eq_some {off : Nat} {r : Reg} (h : regAt off = some r) : r.offset = off := by
  simpa using List.find?_some h

/-- A decoded access to KEY lies inside the key buffer (20_memory R82). -/
theorem decodeAccess_key {addr : BitVec 17} {size k : Nat} (h : decodeAccess addr size = some (.key k)) :
    (size = 1 ∨ size = 2 ∨ size = 4) ∧ addr.toNat % size = 0 ∧ addr.toNat = 0x400 + k ∧ k + size ≤ 128 := by
  simp only [decodeAccess, keyBase_eq, keyEnd_eq, msgBase_eq] at h
  have hb : Config.keyBufBytes = 128 := rfl
  split_ifs at h <;> grind [Option.map_eq_some_iff]

/-- A decoded access to MSG lies inside the message buffer (20_memory R83). -/
theorem decodeAccess_msg {addr : BitVec 17} {size k : Nat} (h : decodeAccess addr size = some (.msg k)) :
    (size = 1 ∨ size = 2 ∨ size = 4) ∧ addr.toNat % size = 0 ∧ addr.toNat = 0x10000 + k ∧ k + size ≤ 4096 := by
  simp only [decodeAccess, keyBase_eq, keyEnd_eq, msgBase_eq] at h
  have hb : Config.bufBytes = 4096 := rfl
  split_ifs at h <;> grind [Option.map_eq_some_iff]

/-- A decoded access to a register has size 4 and the register's offset (20_memory R81). -/
theorem decodeAccess_reg {addr : BitVec 17} {size : Nat} {r : Reg} (h : decodeAccess addr size = some (.reg r)) :
    size = 4 ∧ addr.toNat = r.offset := by
  simp only [decodeAccess] at h
  split_ifs at h
  · exact ⟨by assumption, by
      obtain ⟨r', hr, he⟩ := Option.map_eq_some_iff.mp h
      cases he
      exact (regAt_eq_some hr).symm⟩
  · simp at h
  · simp at h

/-! ### Accesses -/

/-- A read changes nothing but AERR, and that only where it is not decoded (20_memory R85, R92). -/
theorem State.busRead_state (s : State) (addr : BitVec 17) (size : Nat) :
    (s.busRead addr size).1 = if decodeAccess addr size = none then s.flagAccess else s := by
  simp only [State.busRead]
  cases h : decodeAccess addr size with
  | none => rfl
  | some tg => cases tg <;> rfl

@[simp] theorem State.unlessBusy_idle {s : State} (h : s.busy = false) (t : State) : s.unlessBusy t = t := by
  simp [State.unlessBusy, h]

@[simp] theorem State.unlessBusy_busy {s : State} (h : s.busy = true) (t : State) : s.unlessBusy t = s.flagDropped := by
  simp [State.unlessBusy, h]

/-- Every case of a write of a register while a command is pending (10_state R58). -/
theorem State.writeReg_busy {s : State} (h : s.busy = true) (r : Reg) (d : Word) :
    s.writeReg r d = s ∨ s.writeReg r d = s.setIrqEn (d.getLsbD 0) ∨ s.writeReg r d = s.acknowledge d ∨
      s.writeReg r d = s.flagDropped := by
  cases r <;> simp [State.writeReg, h]

/-- Every case of a write while a command is pending (10_state R58, 20_memory R85). -/
theorem State.busWrite_busy {s : State} (h : s.busy = true) (addr : BitVec 17) (size : Nat) (d : Word) :
    s.busWrite addr size d = s ∨ s.busWrite addr size d = s.setIrqEn (d.getLsbD 0) ∨
      s.busWrite addr size d = s.acknowledge d ∨ s.busWrite addr size d = s.flagDropped ∨
      s.busWrite addr size d = s.flagAccess := by
  simp only [State.busWrite]
  cases decodeAccess addr size with
  | none => simp
  | some tg =>
    cases tg with
    | reg r => rcases s.writeReg_busy h r d with h | h | h | h <;> simp [h]
    | key k => simp [h]
    | msg k => simp [h]

/-- Every case of a write: it is not decoded, it reaches a register, or a buffer (20_memory R85, R88). -/
theorem State.busWrite_cases (s : State) (addr : BitVec 17) (size : Nat) (d : Word) :
    (decodeAccess addr size = none ∧ s.busWrite addr size d = s.flagAccess) ∨
      (∃ r, decodeAccess addr size = some (.reg r) ∧ s.busWrite addr size d = s.writeReg r d) ∨
      (∃ k, decodeAccess addr size = some (.key k) ∧
        s.busWrite addr size d = s.unlessBusy (s.storeKey k (beBytes size d.toNat))) ∨
      (∃ k, decodeAccess addr size = some (.msg k) ∧
        s.busWrite addr size d = s.unlessBusy (s.memWrite k size d.toNat)) := by
  simp only [State.busWrite]
  cases decodeAccess addr size with
  | none => simp
  | some tg => cases tg <;> simp

end Sys2Proof.Machine
end

