-- ==== Sys2Proof/Laws/Commands.lean ====
section
/-! SUPPORT. What each command can do: its checks as propositions, and one lemma per command that says when it succeeds
and what it then answers. -/

namespace Sys2Proof.Machine

open Sys2Proof

/-! ### The shared checks -/

@[simp] theorem bufBytes_eq : Config.bufBytes = 4096 := rfl

@[simp] theorem keyBufBytes_eq : Config.keyBufBytes = 128 := rfl

theorem addrLen_eq (fam : Byte) (h : famOK fam) : addrLen fam = 4 ∧ fam = 1 ∨ addrLen fam = 16 ∧ fam = 2 := by
  rcases h with rfl | rfl <;> simp [addrLen]

/-! ### Completion (10_state R60) -/

@[simp] theorem State.complete_ok (s t : State) (m : Bool) : s.complete (.ok (t, m)) = t.finish m := rfl

@[simp] theorem State.complete_error (s : State) (c : ErrCode) : s.complete (.error c) = s.fail c := rfl

/-- Everything a completion can be. -/
theorem State.complete_cases (s : State) (r : Except ErrCode (State × Bool)) :
    (∃ t m, r = .ok (t, m) ∧ s.complete r = t.finish m) ∨ (∃ c, r = .error c ∧ s.complete r = s.fail c) := by
  rcases r with c | ⟨t, m⟩
  · exact .inr ⟨c, rfl, rfl⟩
  · exact .inl ⟨t, m, rfl, rfl⟩

/-- The outcome of a command before its completion. -/
def cmdResult (i : Instr) (s : State) : Except ErrCode (State × Bool) :=
  match i with
  | .nop => .ok (s, false)
  | .srst => .ok (s.resetRegs, false)
  | .xaMask => xaMask Config.xportMask s
  | .xaEnc x => xaEnc Config.xportMask x s
  | .xaDec x => xaDec Config.xportMask x s
  | .fpGen => fpGen s
  | .fpChk => fpChk s
  | .miGen => miGen s
  | .miChk => miChk s
  | .locate => locate s

/-- Every command completes (10_state R59, R60). -/
theorem exec_eq (i : Instr) (s : State) : exec i s = .next (s.complete (cmdResult i s)) := by cases i <;> rfl

/-- What a command that answers a next state has done. -/
theorem exec_cases {i : Instr} {s t : State} (h : exec i s = .next t) :
    (∃ u m, cmdResult i s = .ok (u, m) ∧ t = u.finish m) ∨ (∃ c, cmdResult i s = .error c ∧ t = s.fail c) := by
  rw [exec_eq] at h
  injection h with h
  subst h
  exact s.complete_cases (cmdResult i s)

/-! ### XOR address masker -/

/-- When XA.MASK succeeds, and what it then answers (40_xor_address R146). -/
theorem xaMask_ok_iff (xm : BitVec 16) (s : State) (r : State × Bool) :
    xaMask xm s = .ok r ↔ msgLenOK s ∧ famOK s.xaFamily ∧ portOK s ∧
      r = (if s.xaFamily = 1 then
            (s.setPort (xorPort xm s.xaPort)).setAddr0
              (wordOf (xorb (addrBytes s s.xaFamily) (xmask s (addrLen s.xaFamily))))
          else (s.setPort (xorPort xm s.xaPort)).setAddr
              (xorb (addrBytes s s.xaFamily) (xmask s (addrLen s.xaFamily))), false) := by
  simp only [xaMask]
  split_ifs with h1 h2 h3 h4 <;> grind

/-- When XA.ENC succeeds, and what it then answers (40_xor_address R147). -/
theorem xaEnc_ok_iff (xm : BitVec 16) (x : Bool) (s : State) (r : State × Bool) :
    xaEnc xm x s = .ok r ↔ msgLenOK s ∧ famOK s.xaFamily ∧ portOK s ∧
      (20 ≤ s.xaOff.toNat ∧ s.xaOff.toNat % 4 = 0 ∧
        s.xaOff.toNat + 4 + (4 + addrLen s.xaFamily) ≤ s.msgLen.toNat) ∧
      r = (s.storeMsg s.xaOff.toNat (addrTLV xm x s), false) := by
  simp only [xaEnc]
  split_ifs with h1 h2 h3 h4 <;> grind

/-- When XA.DEC succeeds, and what it then answers (40_xor_address R148). -/
theorem xaDec_ok_iff (xm : BitVec 16) (x : Bool) (s : State) (r : State × Bool) :
    xaDec xm x s = .ok r ↔ msgLenOK s ∧
      (20 ≤ s.xaOff.toNat ∧ s.xaOff.toNat % 4 = 0 ∧ s.xaOff.toNat + 4 ≤ s.msgLen.toNat) ∧
      s.memRead s.xaOff.toNat 2 = addrType x ∧
      s.xaOff.toNat + 4 + s.memRead (s.xaOff.toNat + 2) 2 ≤ s.msgLen.toNat ∧
      famOK (s.msgAt (s.xaOff.toNat + 5)) ∧
      s.memRead (s.xaOff.toNat + 2) 2 = 4 + addrLen (s.msgAt (s.xaOff.toNat + 5)) ∧
      r = (((s.setFamily (s.msgAt (s.xaOff.toNat + 5))).setPort
            (if x then xorPort xm (wordOf (s.memBytes (s.xaOff.toNat + 6) 2))
              else wordOf (s.memBytes (s.xaOff.toNat + 6) 2))).setAddr
            (if x then xorb (s.memBytes (s.xaOff.toNat + 8) (addrLen (s.msgAt (s.xaOff.toNat + 5))))
                (xmask s (addrLen (s.msgAt (s.xaOff.toNat + 5))))
              else s.memBytes (s.xaOff.toNat + 8) (addrLen (s.msgAt (s.xaOff.toNat + 5)))), false) := by
  simp only [xaDec]
  split_ifs with h1 h2 h3 h4 h5 h6 h7 <;> grind

/-! ### Fingerprint generator -/

/-- The state FP.GEN writes (41_fingerprint R163). -/
def fpGenState (s : State) : State :=
  let n := s.msgLen.toNat
  let v := fpValueOf s (n - 20 + 8) n
  (((((s.setFp v).memWrite n 2 0x8028).memWrite (n + 2) 2 0x0004).memWrite (n + 4) 4 v.toNat).memWrite 2 2
    (n - 20 + 8)).setMsgLen (BitVec.ofNat 32 (n + 8)) .fpDone

/-- When FP.GEN succeeds, and what it then answers (41_fingerprint R163). -/
theorem fpGen_ok_iff (s : State) (r : State × Bool) :
    fpGen s = .ok r ↔ msgLenOK s ∧ s.tstate ≠ .fpDone ∧ s.msgLen.toNat + 8 ≤ 4096 ∧ r = (fpGenState s, false) := by
  simp only [fpGen, bufBytes_eq]
  split_ifs with h1 h2 h3 <;> grind [bufBytes_eq, fpGenState]

/-- When FP.CHK succeeds, and what it then answers (41_fingerprint R164). -/
theorem fpChk_ok_iff (s : State) (r : State × Bool) :
    fpChk s = .ok r ↔ msgLenOK s ∧ trailerAt s s.attrOff.toNat 0x8028 0x0004 ∧
      r = (s.setFp (fpValueOf s (s.attrOff.toNat - 20 + 8) s.attrOff.toNat),
        decide (s.memRead 2 2 = s.attrOff.toNat - 20 + 8 ∧
          s.memRead (s.attrOff.toNat + 4) 4 =
            (fpValueOf s (s.attrOff.toNat - 20 + 8) s.attrOff.toNat).toNat)) := by
  simp only [fpChk]
  split_ifs with h1 h2 <;> grind

/-! ### Message-integrity engine -/

/-- The HMAC of MI.GEN (42_message_integrity R186). -/
def miGenMac (s : State) : List Byte := hmac (macKey s) (span s (s.msgLen.toNat - 20 + 24) s.msgLen.toNat)

/-- The state MI.GEN writes (42_message_integrity R186). -/
def miGenState (s : State) : State :=
  let n := s.msgLen.toNat
  (((((s.setMac (miGenMac s)).memWrite n 2 0x0008).memWrite (n + 2) 2 0x0014).storeMsg (n + 4) (miGenMac s)).memWrite 2 2
    (n - 20 + 24)).setMsgLen (BitVec.ofNat 32 (n + 24)) .miDone

/-- When MI.GEN succeeds, and what it then answers (42_message_integrity R186). -/
theorem miGen_ok_iff (s : State) (r : State × Bool) :
    miGen s = .ok r ↔ msgLenOK s ∧ keyLenOK s ∧ s.tstate = .opened ∧ s.msgLen.toNat + 24 ≤ 4096 ∧
      r = (miGenState s, false) := by
  simp only [miGen, bufBytes_eq]
  split_ifs with h1 h2 h3 h4 <;> grind [bufBytes_eq, miGenState, miGenMac]

/-- When MI.CHK succeeds, and what it then answers (42_message_integrity R187). -/
theorem miChk_ok_iff (s : State) (r : State × Bool) :
    miChk s = .ok r ↔ msgLenOK s ∧ keyLenOK s ∧ trailerAt s s.attrOff.toNat 0x0008 0x0014 ∧
      r = (s.setMac (hmac (macKey s) (span s (s.attrOff.toNat - 20 + 24) s.attrOff.toNat)),
        decide (hmac (macKey s) (span s (s.attrOff.toNat - 20 + 24) s.attrOff.toNat) =
          s.memBytes (s.attrOff.toNat + 4) 20)) := by
  simp only [miChk]
  split_ifs with h1 h2 h3 <;> grind

/-! ### Attribute locator -/

/-- When LOCATE succeeds, and what it then answers (43_locate R210). -/
theorem locate_ok_iff (s : State) (r : State × Bool) :
    locate s = .ok r ↔ msgLenOK s ∧
      ((∃ pos, locateWalk s s.msgLen.toNat s.attrType.toNat (s.msgLen.toNat / 4) 20 = .found pos ∧
          r = (s.setAttrOff (BitVec.ofNat 32 pos), true)) ∨
        (locateWalk s s.msgLen.toNat s.attrType.toNat (s.msgLen.toNat / 4) 20 = .notFound ∧ r = (s, false))) := by
  simp only [locate]
  split_ifs with h1
  · cases locateWalk s s.msgLen.toNat s.attrType.toNat (s.msgLen.toNat / 4) 20 <;> grind
  · grind

/-- One TLV of the walk. -/
theorem locateWalk_succ (s : State) (n want fuel pos : Nat) :
    locateWalk s n want (fuel + 1) pos =
      if n ≤ pos then .notFound
      else if n < pos + 4 then .truncated
      else if n < pos + 4 + s.memRead (pos + 2) 2 then .truncated
      else if s.memRead pos 2 = want then .found pos
      else locateWalk s n want fuel (nextTLV pos (s.memRead (pos + 2) 2)) := rfl

/-- A walk from a place inside the message finds a place inside the message (43_locate R211). -/
theorem locateWalk_found {s : State} {n want fuel pos p : Nat} (h : locateWalk s n want fuel pos = .found p)
    (h4 : pos % 4 = 0) :
    pos ≤ p ∧ p % 4 = 0 ∧ p + 4 + s.memRead (p + 2) 2 ≤ n ∧ s.memRead p 2 = want := by
  induction fuel generalizing pos with
  | zero => simp [locateWalk] at h
  | succ fuel ih =>
    rw [locateWalk_succ] at h
    split at h
    · cases h
    · split at h
      · cases h
      · split at h
        · cases h
        · split at h
          · cases h
            exact ⟨Nat.le_refl _, h4, by omega, by assumption⟩
          · have := ih h (by rw [nextTLV]; omega)
            exact ⟨by have := this.1; rw [nextTLV] at this; omega, this.2⟩

/-! ### Errors -/

/-- A failing command names an error: ERRCODE is not 0 (60_exceptions R230). -/
theorem cmdResult_error_ne_ok {i : Instr} {s : State} {c : ErrCode} (h : cmdResult i s = .error c) : c ≠ .ok := by
  rintro rfl
  cases i <;> simp only [cmdResult, xaMask, xaEnc, xaDec, fpGen, fpChk, miGen, miChk, locate] at h <;>
    repeat (first | (split at h) | cases h)

end Sys2Proof.Machine
end

