-- ==== Sys2Proof/Laws/Hashes.lean ====
section
/-! SUPPORT. The recursions of CRC-32 and SHA-1 as folds over the numbers the rules count with, and the lengths of what
the hashes give. -/

namespace Sys2Proof.Machine

open Sys2Proof

/-- n steps of a byte are n times the one step (41_fingerprint R160). -/
theorem crcBits_eq_foldl (n : Nat) (c : Word) : crcBits n c = (List.range n).foldl (fun c _ => crcBit c) c := by
  induction n generalizing c with
  | zero => rfl
  | succ n ih => rw [crcBits, ih, List.range_succ_eq_map, List.foldl_cons, List.foldl_map]

/-- The rounds of a schedule, counted from t on (42_message_integrity R181). -/
theorem shaRounds_eq_foldl (t : Nat) (h : Sha) (ws : List Word) :
    shaRounds t h ws = (List.range ws.length).foldl (fun v i => shaRound (t + i) v (ws.getD i 0)) h := by
  induction ws generalizing t h with
  | nil => rfl
  | cons w ws ih =>
    rw [shaRounds, ih, List.length_cons, List.range_succ_eq_map, List.foldl_cons, List.foldl_map]
    simp [Nat.add_comm, Nat.add_left_comm]

/-- The blocks of a padded message, the first first (42_message_integrity R180). -/
theorem shaBlocks_eq_foldl (n : Nat) (h : Sha) (s : List Byte) :
    shaBlocks n h s = (List.range n).foldl (fun h i => shaBlock h ((s.drop (64 * i)).take 64)) h := by
  induction n generalizing h s with
  | zero => rfl
  | succ n ih =>
    rw [shaBlocks, ih, List.range_succ_eq_map, List.foldl_cons, List.foldl_map]
    simp [Nat.mul_add, Nat.add_comm]

@[simp] theorem shaExtend_length (n : Nat) (ws : List Word) : (shaExtend n ws).length = n + ws.length := by
  induction n generalizing ws with
  | zero => simp [shaExtend]
  | succ n ih => rw [shaExtend, ih, List.length_cons]; omega

/-- Extending a schedule keeps its words (42_message_integrity R181). -/
theorem shaExtend_old (n : Nat) (ws : List Word) {t : Nat} (ht : t < ws.length) :
    (shaExtend n ws).reverse.getD t 0 = ws.reverse.getD t 0 := by
  induction n generalizing ws with
  | zero => rfl
  | succ n ih =>
    rw [shaExtend, ih _ (by simp; omega), List.reverse_cons, List.getD_append _ _ _ _ (by simpa using ht)]

/-- A word the extension adds is made of the words 3, 8, 14 and 16 places before it (42_message_integrity R181). -/
theorem shaExtend_new (n : Nat) (ws : List Word) {t : Nat} (hl : 16 ≤ ws.length) (h1 : ws.length ≤ t)
    (h2 : t < ws.length + n) :
    let w := (shaExtend n ws).reverse
    w.getD t 0 = (w.getD (t - 3) 0 ^^^ w.getD (t - 8) 0 ^^^ w.getD (t - 14) 0 ^^^ w.getD (t - 16) 0).rotateLeft 1 := by
  induction n generalizing ws with
  | zero => omega
  | succ n ih =>
    rcases Nat.lt_or_ge ws.length t with h | h
    · exact ih _ (by simp; omega) (by simpa using h) (by simp; omega)
    · obtain rfl : t = ws.length := by omega
      have back (k : Nat) (hk : k < ws.length) : ws.reverse.getD (ws.length - (k + 1)) 0 = ws.getD k 0 := by
        rw [List.getD_eq_getElem _ _ (by simp; omega), List.getD_eq_getElem _ _ hk, List.getElem_reverse]
        congr 1; omega
      intro w
      have old (k : Nat) (hk : k < ws.length) : w.getD (ws.length - (k + 1)) 0 = ws.getD k 0 := by
        rw [← back k hk]; exact shaExtend_old (n + 1) ws (by omega)
      have new : w.getD ws.length 0 =
          (ws.getD 2 0 ^^^ ws.getD 7 0 ^^^ ws.getD 13 0 ^^^ ws.getD 15 0).rotateLeft 1 := by
        show (shaExtend n _).reverse.getD _ 0 = _
        rw [shaExtend_old n _ (by simp), List.reverse_cons, List.getD_append_right _ _ _ _ (by simp)]
        simp
      rw [new, ← old 2 (by omega), ← old 7 (by omega), ← old 13 (by omega), ← old 15 (by omega)]

@[simp] theorem sha1_length (s : List Byte) : (sha1 s).length = 20 := by simp [sha1]

end Sys2Proof.Machine
end

