-- ==== Sys2Proof/Laws/PerInstr.lean ====
section
/-! SUPPORT. Facts about every command as syntax, one lemma per constructor of Instr. -/

namespace Sys2Proof.Laws.WordLegal

open Sys2Proof

/-- The command's word passes the three checks of 30_encoding R111, and its fields are the command's OP and X. -/
def Statement (i : Instr) : Prop :=
  (CmdWord.ofWord (encode i)).wellFormed = true ∧ CmdWord.ofWord (encode i) = ⟨i.op, i.xBit, 0⟩

theorem nop : Statement .nop := by unfold Statement; decide
theorem srst : Statement .srst := by unfold Statement; decide
theorem xaMask : Statement .xaMask := by unfold Statement; decide
theorem xaEnc (x : Bool) : Statement (.xaEnc x) := by unfold Statement; cases x <;> decide
theorem xaDec (x : Bool) : Statement (.xaDec x) := by unfold Statement; cases x <;> decide
theorem fpGen : Statement .fpGen := by unfold Statement; decide
theorem fpChk : Statement .fpChk := by unfold Statement; decide
theorem miGen : Statement .miGen := by unfold Statement; decide
theorem miChk : Statement .miChk := by unfold Statement; decide
theorem locate : Statement .locate := by unfold Statement; decide

end Sys2Proof.Laws.WordLegal
end

