-- ==== Sys2Proof/Laws/Step.lean ====
section
/-! SUPPORT. What one step can be, and what one host statement can be. -/

namespace Sys2Proof.Machine

open Sys2Proof

/-! ### Whose turn it is -/

/-- The engine's turn: a command is pending, and its latency has passed or the host has ended (00_scope R23). -/
theorem turn_engine_iff (s : State) (w : Word) :
    turn s = .engine w ↔ ∃ p, s.pend = some p ∧ p.word = w ∧ (p.delay = 0 ∨ nextStmt s = none) := by
  simp only [turn]
  cases s.pend <;> cases nextStmt s <;> simp
  split <;> simp [*]

/-- The host's turn: it has a statement, and no command is pending whose latency has passed. -/
theorem turn_host_iff (s : State) (st : HostStmt) :
    turn s = .host st ↔ nextStmt s = some st ∧ ∀ p, s.pend = some p → p.delay ≠ 0 := by
  simp only [turn]
  cases s.pend <;> cases nextStmt s <;> simp
  split <;> simp [*]

theorem turn_idle_iff (s : State) : turn s = .idle ↔ s.pend = none ∧ nextStmt s = none := by
  simp only [turn]
  cases s.pend <;> cases nextStmt s <;> simp
  split <;> simp

/-- The host's next statement is not HALT. -/
theorem nextStmt_ne_halt {s : State} {st : HostStmt} (h : nextStmt s = some st) :
    s.script[s.hostPc]? = some st ∧ st ≠ .halt := by
  simp only [nextStmt] at h
  split at h
  · cases h
  · cases h
  · rename_i st' hne hs
    cases h
    exact ⟨hs, hne⟩

/-! ### Steps -/

theorem step_engine {s : State} {w : Word} {i : Instr} (ht : turn s = .engine w) (hd : decode w = .ok i) :
    step s = exec i s := by simp only [step, ht, hd]

theorem step_illegal {s : State} {w : Word} {e : DecodeError} (ht : turn s = .engine w) (hd : decode w = .error e) :
    step s = .next (s.fail .illegal) := by simp only [step, ht, hd]; rfl

theorem step_host {s : State} {st : HostStmt} (ht : turn s = .host st) : step s = .next (hostTurn st s) := by
  simp only [step, ht]

theorem step_idle {s : State} (ht : turn s = .idle) : step s = .next s := by simp only [step, ht]

/-- Everything a step can be. -/
theorem step_cases {s t : State} (h : step s = .next t) :
    (∃ w i, turn s = .engine w ∧ decode w = .ok i ∧ exec i s = .next t) ∨
      (∃ w e, turn s = .engine w ∧ decode w = .error e ∧ t = s.fail .illegal) ∨
      (∃ st, turn s = .host st ∧ t = hostTurn st s) ∨ (turn s = .idle ∧ t = s) := by
  cases ht : turn s with
  | engine w =>
    cases hd : decode w with
    | ok i => exact .inl ⟨w, i, rfl, hd, (step_engine ht hd).symm.trans h⟩
    | error e =>
      rw [step_illegal ht hd] at h
      injection h with h
      exact .inr (.inl ⟨w, e, rfl, hd, h.symm⟩)
  | host st =>
    rw [step_host ht] at h
    injection h with h
    exact .inr (.inr (.inl ⟨st, rfl, h.symm⟩))
  | idle =>
    rw [step_idle ht] at h
    injection h with h
    exact .inr (.inr (.inr ⟨rfl, h.symm⟩))

/-- Every step answers a next state: nothing in the spec stops the machine (60_exceptions R231). -/
theorem step_next (s : State) : ∃ t, step s = .next t := by
  cases ht : turn s with
  | engine w =>
    cases hd : decode w with
    | ok i => exact ⟨_, (step_engine ht hd).trans (exec_eq i s)⟩
    | error e => exact ⟨_, step_illegal ht hd⟩
  | host st => exact ⟨_, step_host ht⟩
  | idle => exact ⟨_, step_idle ht⟩

@[simp] theorem State.busy_tick (s : State) : s.tick.busy = s.busy := by simp [State.busy]

@[simp] theorem State.tick_of_none {s : State} (h : s.pend = none) : s.tick = s := by
  simp [State.tick, h]
  cases s
  simp_all

theorem State.tick_pend_some {s : State} {p : Pending} (h : s.pend = some p) :
    s.tick.pend = some ⟨p.word, p.delay - 1⟩ := by simp [h]

end Sys2Proof.Machine
end

