-- ==== Sys2Proof/Tests/Slice0.lean ====
section
/-! SUPPORT. The model's own tests. Expected results are those of 95_test_vectors.md and of the rules' examples; each
theorem's comment names its source. After them, a witness for each statement that has hypotheses, one per clause. -/

namespace Sys2Proof.Tests

open Sys2Proof Sys2Proof.Machine

-- One theorem at a time: many evaluations at once would need a large stack each.
set_option Elab.async false

/-! ### Inputs -/

/-- The state an outcome carries. -/
def out : Host.Outcome State Fault Refusal → State
  | .next t => t
  | .fault f => nomatch f
  | .refused _ => State.reset

/-- A message at MSG[0..), with MSG_LEN. -/
def loaded (bs : List Byte) (n : Nat) : State := (State.reset.storeMsg 0 bs).setMsgLen (BitVec.ofNat 32 n) .opened

/-- HDR-A of 95_test_vectors. -/
def hdrA : List Byte :=
  [0x00, 0x01, 0x00, 0x00, 0x21, 0x12, 0xa4, 0x42, 0x00, 0x01, 0x02, 0x03, 0x04, 0x05, 0x06, 0x07,
  0x08, 0x09, 0x0a, 0x0b]

/-- HDR-B of 95_test_vectors. -/
def hdrB : List Byte :=
  [0x00, 0x01, 0x00, 0x00, 0x21, 0x12, 0xa4, 0x42, 0xb7, 0xe7, 0xa7, 0x01, 0xbc, 0x34, 0xd6, 0x86,
  0xfa, 0x87, 0xdf, 0xae]

/-- RFC5769-REQ of 95_test_vectors. -/
def req : List Byte :=
  [0x00, 0x01, 0x00, 0x58, 0x21, 0x12, 0xa4, 0x42, 0xb7, 0xe7, 0xa7, 0x01, 0xbc, 0x34, 0xd6, 0x86,
  0xfa, 0x87, 0xdf, 0xae, 0x80, 0x22, 0x00, 0x10, 0x53, 0x54, 0x55, 0x4e, 0x20, 0x74, 0x65, 0x73,
  0x74, 0x20, 0x63, 0x6c, 0x69, 0x65, 0x6e, 0x74, 0x00, 0x24, 0x00, 0x04, 0x6e, 0x00, 0x01, 0xff,
  0x80, 0x29, 0x00, 0x08, 0x93, 0x2f, 0xf9, 0xb1, 0x51, 0x26, 0x3b, 0x36, 0x00, 0x06, 0x00, 0x09,
  0x65, 0x76, 0x74, 0x6a, 0x3a, 0x68, 0x36, 0x76, 0x59, 0x20, 0x20, 0x20, 0x00, 0x08, 0x00, 0x14,
  0x9a, 0xea, 0xa7, 0x0c, 0xbf, 0xd8, 0xcb, 0x56, 0x78, 0x1e, 0xf2, 0xb5, 0xb2, 0xd3, 0xf2, 0x49,
  0xc1, 0xb5, 0x71, 0xa2, 0x80, 0x28, 0x00, 0x04, 0xe5, 0x7a, 0x3b, 0xcf]

/-- PW of 95_test_vectors, the key of RFC5769-REQ. -/
def pw : List Byte :=
  [0x56, 0x4f, 0x6b, 0x4a, 0x78, 0x62, 0x52, 0x6c, 0x31, 0x52, 0x6d, 0x54, 0x78, 0x55, 0x6b, 0x2f,
  0x57, 0x76, 0x4a, 0x78, 0x42, 0x74]

/-- XA-1's setup: HDR-B, family 1, port 32853, address 192.0.2.1. -/
def v4 (n : Nat) : State := ((((loaded hdrB n).setFamily 1).setPort 0x8055).setAddr0 0xC0000201).setXaOff 20

/-- XA-2's setup: HDR-B, family 2, port 32853, address 2001:db8:1234:5678:11:2233:4455:6677. -/
def v6 (n : Nat) : State :=
  ((((((loaded hdrB n).setFamily 2).setPort 0x8055).setAddr0 0x20010DB8).setAddr1 0x12345678).setAddr2 0x00112233).setAddr3
    0x44556677

/-- XA-3's end state, a masked family-1 TLV at 20. -/
def tlv4 (bs : List Byte) : State := ((loaded (hdrB ++ bs) 32).setXaOff 20).setAddr1 0x55

/-- RFC5769-REQ with its key, ready to verify. -/
def received (off : Nat) : State := ((((loaded req 108).storeKey 0 pw).setKeyLen 22).setAttrOff (BitVec.ofNat 32 off)).setAttrType 0x0008

/-- FP-1's end state as a received message. -/
def sealedA : State := (loaded (hdrA ++ [0x80, 0x28, 0x00, 0x04, 0x5b, 0x0f, 0xf6, 0xfc]) 28).storeMsg 2 [0x00, 0x08]

/-- MI-2's end state as a received message. -/
def signedA : State :=
  (loaded (hdrA ++ [0x00, 0x08, 0x00, 0x14, 0x22, 0x2c, 0xce, 0xe8, 0x62, 0x3c, 0xf3, 0x01, 0xe1, 0xd2, 0xf8, 0x9a,
    0x45, 0x16, 0x26, 0x2c, 0x0f, 0x6e, 0xb9, 0x7e]) 44).storeMsg 2 [0x00, 0x18]

/-! ### Well-formedness refuses one ill-formed term per check -/

theorem test_rsvd_refused : (CmdWord.ofWord 0x00000200).wellFormed = false ∧ (CmdWord.ofWord 0x00000200).rsvdOk = false := by
  decide
theorem test_op_refused : (CmdWord.ofWord 0x00000002).wellFormed = false ∧ (CmdWord.ofWord 0x00000002).opOk = false := by
  decide
theorem test_x_refused : (CmdWord.ofWord 0x00000110).wellFormed = false ∧ (CmdWord.ofWord 0x00000110).xOk = false := by
  decide
theorem test_size_refused : (HostStmt.write 0x10000 3 1).sizeOk = false ∧ scriptWellFormed [.read 0x10000 3] = false := by
  decide
theorem test_label_refused : scriptWellFormed [.branch .bnz0 2, .halt] = false := by decide
theorem test_script_accepted : scriptWellFormed [cmd .nop, rd .status, .branch .bnz0 1, .halt] = true := by decide

/-! ### Decoding, word by word from 30_encoding R110 and R112: RSVD, X, OP -/

theorem test_decode_control :
    decode 0b00000000000000000000000_0_00000000 = .ok .nop ∧ decode 0b00000000000000000000000_0_00000001 = .ok .srst := by
  decide
theorem test_decode_xor :
    decode 0b00000000000000000000000_0_00010000 = .ok .xaMask ∧
    decode 0b00000000000000000000000_0_00010001 = .ok (.xaEnc false) ∧
    decode 0b00000000000000000000000_1_00010001 = .ok (.xaEnc true) ∧
    decode 0b00000000000000000000000_0_00010010 = .ok (.xaDec false) ∧
    decode 0b00000000000000000000000_1_00010010 = .ok (.xaDec true) := by decide
theorem test_decode_fingerprint :
    decode 0b00000000000000000000000_0_00100000 = .ok .fpGen ∧ decode 0b00000000000000000000000_0_00100001 = .ok .fpChk := by
  decide
theorem test_decode_integrity :
    decode 0b00000000000000000000000_0_00110000 = .ok .miGen ∧ decode 0b00000000000000000000000_0_00110001 = .ok .miChk := by
  decide
theorem test_decode_locate : decode 0b00000000000000000000000_0_01000000 = .ok .locate := by decide

/-- CT-4's illegal words, each refused by the first check of R111 it fails. -/
theorem test_decode_rejects :
    decode 0x00000110 = .error .xNotAllowed ∧ decode 0x00000121 = .error .xNotAllowed ∧
    decode 0x00000002 = .error .unknownOpcode ∧ decode 0x00000013 = .error .unknownOpcode ∧
    decode 0x000000FF = .error .unknownOpcode ∧ decode 0x00000200 = .error .reservedBits ∧
    decode 0x80000000 = .error .reservedBits := by decide

/-- No word is selected by two rows: their patterns differ in a bit that both masks keep (30_encoding R112). -/
theorem test_rows_disjoint : opTable.Pairwise fun a b => (a.pattern ^^^ b.pattern) &&& a.mask &&& b.mask ≠ 0 := by decide

/-- The host's view of a table word: 32 bits, the word itself. -/
theorem test_table_word : decodeTableWord 32 0x111 = some (.xaEnc true) ∧ decodeTableWord 32 0x200 = none := by decide

/-- The assembler's words (30_encoding R129): the .X suffix sets bit 8. -/
theorem test_assemble :
    assemble "XA.DEC.X" = some (.write 0x0000C 4 0x112) ∧ assemble "MI.GEN" = some (.write 0x0000C 4 0x30) ∧
    assemble "nop" = none := by decide

/-! ### Functions -/

/-- PR-1, PR-2 (41_fingerprint R161). -/
theorem test_crc32 :
    crc32 [0x31, 0x32, 0x33, 0x34, 0x35, 0x36, 0x37, 0x38, 0x39] = 0xCBF43926 ∧ crc32 [] = 0x00000000 := by decide +kernel

/-- PR-3, PR-4 (42_message_integrity R183). -/
theorem test_sha1 :
    sha1 [0x61, 0x62, 0x63] =
      be32 0xa9993e36 ++ be32 0x4706816a ++ be32 0xba3e2571 ++ be32 0x7850c26c ++ be32 0x9cd0d89d ∧
    sha1 [] = be32 0xda39a3ee ++ be32 0x5e6b4b0d ++ be32 0x3255bfef ++ be32 0x95601890 ++ be32 0xafd80709 := by
  decide +kernel

/-- PR-5, two blocks (42_message_integrity R183). -/
theorem test_sha1_two_blocks :
    sha1 [0x61, 0x62, 0x63, 0x64, 0x62, 0x63, 0x64, 0x65, 0x63, 0x64, 0x65, 0x66, 0x64, 0x65, 0x66, 0x67, 0x65, 0x66, 0x67, 0x68, 0x66, 0x67, 0x68, 0x69, 0x67, 0x68, 0x69, 0x6a,
      0x68, 0x69, 0x6a, 0x6b, 0x69, 0x6a, 0x6b, 0x6c, 0x6a, 0x6b, 0x6c, 0x6d, 0x6b, 0x6c, 0x6d, 0x6e, 0x6c, 0x6d, 0x6e, 0x6f, 0x6d, 0x6e, 0x6f, 0x70, 0x6e, 0x6f, 0x70, 0x71] =
      be32 0x84983e44 ++ be32 0x1c3bd26e ++ be32 0xbaae4aa1 ++ be32 0xf95129e5 ++ be32 0xe54670f1 := by decide +kernel

/-- PR-6 and PR-8, the hashed key (42_message_integrity R185). -/
theorem test_hmac :
    hmac (List.replicate 20 0x0b) [0x48, 0x69, 0x20, 0x54, 0x68, 0x65, 0x72, 0x65] =
      be32 0xb6173186 ++ be32 0x55057264 ++ be32 0xe28bc0b6 ++ be32 0xfb378c8e ++ be32 0xf146be00 ∧
    hmac (List.replicate 80 0xaa)
      [0x54, 0x65, 0x73, 0x74, 0x20, 0x55, 0x73, 0x69, 0x6e, 0x67, 0x20, 0x4c, 0x61, 0x72, 0x67, 0x65, 0x72, 0x20, 0x54, 0x68, 0x61, 0x6e, 0x20, 0x42, 0x6c, 0x6f, 0x63, 0x6b, 0x2d, 0x53, 0x69, 0x7a, 0x65,
       0x20, 0x4b, 0x65, 0x79, 0x20, 0x2d, 0x20, 0x48, 0x61, 0x73, 0x68, 0x20, 0x4b, 0x65, 0x79, 0x20, 0x46, 0x69, 0x72, 0x73, 0x74] =
      be32 0xaa4ae5e1 ++ be32 0x5272d00e ++ be32 0x95705637 ++ be32 0xce8a3b55 ++ be32 0xed402112 := by decide +kernel

/-! ### Commands, one step each -/

/-- R220's example: NOP clears ERR and ERRCODE. -/
theorem test_nop : (out (exec .nop (loaded hdrA 20 |>.fail .overflow))).status = 0x00000002 := by decide +kernel

/-- CT-3: SRST clears the registers, keeps MSG. -/
theorem test_srst :
    let t := out (exec .srst (((loaded req 108).setIrqEn true).flagAccess.setMsgLen 108 .fpDone))
    t.status = 0x00000002 ∧ t.msgLen = 0 ∧ t.ctrl = 0 ∧ t.irq = false ∧ t.memBytes 0 108 = req := by decide +kernel

/-- CT-4: an illegal word completes with ILLEGAL. -/
theorem test_illegal : (out (step ((loaded hdrA 20).withFetchWord 32 0x110))).status = 0x00000106 := by decide +kernel

/-- XA-1. -/
theorem test_xaMask_v4 :
    let t := out (exec .xaMask (v4 20))
    t.status = 0x00000002 ∧ t.xaPort = 0x00002417 ∧ t.xaAddr0 = 0xE112A643 := by decide +kernel

/-- XA-2. -/
theorem test_xaMask_v6 :
    let t := out (exec .xaMask (v6 20))
    t.xaPort = 0x00002417 ∧ t.xaAddr0 = 0x0113A9FA ∧ t.xaAddr1 = 0xA5D3F179 ∧ t.xaAddr2 = 0xBC25F4B5 ∧
      t.xaAddr3 = 0xBED2B9D9 := by decide +kernel

/-- XA-3 and XA-4. -/
theorem test_xaEnc_v4 :
    (out (exec (.xaEnc true) (v4 32))).memBytes 20 12 =
      [0x00, 0x20, 0x00, 0x08, 0x00, 0x01, 0x24, 0x17, 0xe1, 0x12, 0xa6, 0x43] ∧
    (out (exec (.xaEnc false) (v4 32))).memBytes 20 12 =
      [0x00, 0x01, 0x00, 0x08, 0x00, 0x01, 0x80, 0x55, 0xc0, 0x00, 0x02, 0x01] := by decide +kernel

/-- XA-6. -/
theorem test_xaEnc_v6 :
    (out (exec (.xaEnc true) ((v6 44).setXaOff 20))).memBytes 20 24 =
      [0x00, 0x20, 0x00, 0x14, 0x00, 0x02, 0x24, 0x17, 0x01, 0x13, 0xa9, 0xfa, 0xa5, 0xd3, 0xf1, 0x79,
       0xbc, 0x25, 0xf4, 0xb5, 0xbe, 0xd2, 0xb9, 0xd9] := by
  decide +kernel

/-- XA-5. -/
theorem test_xaDec_v4 :
    let t := out (exec (.xaDec true) (tlv4 [0x00, 0x20, 0x00, 0x08, 0x00, 0x01, 0x24, 0x17, 0xe1, 0x12, 0xa6, 0x43]))
    t.status = 0x00000002 ∧ t.xaFamily = 1 ∧ t.xaPort = 0x00008055 ∧ t.xaAddr0 = 0xC0000201 ∧ t.xaAddr1 = 0 := by
  decide +kernel

/-- XA-14 and XA-19: the wrong variant, and a bad family. -/
theorem test_xaDec_errors :
    (out (exec (.xaDec false) (tlv4 [0x00, 0x20, 0x00, 0x08, 0x00, 0x01, 0x24, 0x17, 0xe1, 0x12, 0xa6, 0x43]))).status = 0x00000A06 ∧
    (out (exec (.xaDec true)
      (tlv4 [0x00, 0x20, 0x00, 0x08, 0x00, 0x03, 0x24, 0x17, 0xe1, 0x12, 0xa6, 0x43]))).status = 0x00000806 := by
  decide +kernel

/-- FP-1. -/
theorem test_fpGen :
    let t := out (exec .fpGen (loaded hdrA 20))
    t.status = 0x00020002 ∧ t.fpValue = 0x5B0FF6FC ∧ t.msgLen = 28 ∧ t.memRead 2 2 = 0x0008 ∧
      t.memBytes 20 8 = [0x80, 0x28, 0x00, 0x04, 0x5b, 0x0f, 0xf6, 0xfc] := by decide +kernel

/-- FP-9 and FP-11: ORDER on a sealed message, OVERFLOW at 4092. -/
theorem test_fpGen_errors :
    (out (exec .fpGen ((loaded hdrA 28).setMsgLen 28 .fpDone))).status = 0x00020406 ∧
    (out (exec .fpGen (loaded hdrA 4092))).status = 0x00000306 := by decide +kernel

/-- FP-14. -/
theorem test_fpChk :
    let t := out (exec .fpChk (sealedA.setAttrOff 20))
    t.status = 0x0000000A ∧ t.fpValue = 0x5B0FF6FC := by decide +kernel

/-- As FP-5 and FP-7: a wrong header length is a mismatch; a misplaced offset is ABSENT. -/
theorem test_fpChk_mismatch :
    (out (exec .fpChk ((sealedA.setAttrOff 20).storeMsg 3 [0x0c]))).status = 0x00000002 ∧
    (out (exec .fpChk (sealedA.setAttrOff 24))).status = 0x00000506 := by decide +kernel

/-- MI-2, the empty key. -/
theorem test_miGen :
    let t := out (exec .miGen (loaded hdrA 20))
    t.status = 0x00010002 ∧ t.mac0 = 0x222CCEE8 ∧ t.mac4 = 0x0F6EB97E ∧ t.msgLen = 44 ∧ t.memRead 2 2 = 0x0018 := by
  decide +kernel

/-- MI-16 and MI-14: BADKEY comes before ORDER; OVERFLOW at 4076. -/
theorem test_miGen_errors :
    (out (exec .miGen (((loaded hdrA 28).setMsgLen 28 .fpDone).setKeyLen 129))).status = 0x00020706 ∧
    (out (exec .miGen (loaded hdrA 4076))).status = 0x00000306 := by decide +kernel

/-- R188 on MI-2's message, with a header length as in MI-6 that is not read. -/
theorem test_miChk :
    (out (exec .miChk ((signedA.setAttrOff 20).storeMsg 3 [0x5c]))).status = 0x0000000A := by decide +kernel

/-- MI-9 and MI-10: BADKEY, and no MESSAGE-INTEGRITY at the offset. -/
theorem test_miChk_errors :
    (out (exec .miChk ((received 76).setKeyLen 129))).status = 0x00000706 ∧
    (out (exec .miChk (received 100))).status = 0x00000506 := by decide +kernel

/-- LO-1 and LO-7: found at 76; not found, ATTR_OFF kept. -/
theorem test_locate :
    (out (exec .locate (received 0x1234))).attrOff = 76 ∧
    (out (exec .locate (received 0x1234))).status = 0x0000000A ∧
    (out (exec .locate ((received 0x1234).setAttrType 0x0020))).status = 0x00000002 ∧
    (out (exec .locate ((received 0x1234).setAttrType 0x0020))).attrOff = 0x1234 := by decide +kernel

/-- LO-9: a TLV on the way that runs past the message. -/
theorem test_locate_truncated :
    (out (exec .locate ((received 0x1234).storeMsg 62 [0x00, 0x40]))).status = 0x00000606 := by decide +kernel

/-! ### The host -/

/-- BUS-1, BUS-2. -/
theorem test_msg_access :
    let t := State.reset.busWrite 0x10000 4 0x00010000
    (t.busRead 0x10000 2).2 = 0x0001 ∧ (t.busRead 0x10002 2).2 = 0x0000 ∧ (t.busRead 0x10001 1).2 = 0x01 ∧
      t.aerr = false ∧ (t.busRead 0x10001 2).2 = 0 ∧ (t.busRead 0x10001 2).1.status = 0x00000020 := by decide +kernel

/-- BUS-4: KEY is written, and reads 0. -/
theorem test_key_access :
    let t := State.reset.busWrite 0x00400 4 0x41424344
    t.keyBytes 4 = [0x41, 0x42, 0x43, 0x44] ∧ (t.busRead 0x00400 4).2 = 0 ∧ t.aerr = false := by decide +kernel

/-- BUS-3, BUS-5 to BUS-8: accesses that are not decoded. -/
theorem test_undecoded :
    (State.reset.busWrite 0x00010 2 5).msgLen = 0 ∧ (State.reset.busWrite 0x00010 2 5).aerr = true ∧
    (State.reset.busWrite 0x00480 4 1).aerr = true ∧ (State.reset.busWrite 0x11000 4 1).aerr = true ∧
    (State.reset.busWrite 0x00100 4 1).aerr = true ∧ (State.reset.busWrite 0x00044 4 1).aerr = true ∧
    (State.reset.busWrite 0x10000 3 1).aerr = true := by decide +kernel

/-- BUS-9 and LO-15: read-only registers ignore writes; ATTR_TYPE keeps 16 bits. -/
theorem test_registers :
    ((State.reset.busWrite 0x00000 4 5).busWrite 0x00040 4 5) = State.reset ∧
    ((State.reset.busWrite 0x00014 4 0x00012345).busRead 0x00014 4).2 = 0x00002345 := by decide +kernel

/-- CT-6: while a command is pending MSG_LEN and MSG writes are dropped, CTRL is written, STATUS reads 0x11. -/
theorem test_busy :
    let s := (loaded hdrA 20).busWrite 0x0000C 4 0x20
    let t := ((s.busWrite 0x00010 4 0).busWrite 0x10000 4 0xFFFFFFFF).busWrite 0x00004 4 1
    s.status = 0x00000001 ∧ t.status = 0x00000011 ∧ t.irq = false ∧ t.msgLen = 20 ∧ t.msgAt 0 = 0x00 := by decide +kernel

/-- CT-10: acknowledging keeps ERRCODE. -/
theorem test_acknowledge :
    (((loaded hdrA 28).setMsgLen 28 .fpDone |>.fail .order).busWrite 0x00008 4 0x36).status = 0x00020400 := by
  decide +kernel

/-- CT-9: a hardware reset abandons the pending command. -/
theorem test_hardware_reset :
    let t := (State.latch (loaded hdrA 20) 0x20 1).hwReset
    t.status = 0 ∧ t.msgLen = 0 ∧ t.pend = none := by decide +kernel

/-- CLRST and BERR (30_encoding R130): the branch is taken on bit 2 of the last read. -/
theorem test_branches :
    (hostExec (.branch .berr 7) (State.reset.setLastRead 0x00000406)).hostPc = 7 ∧
    (hostExec (.branch .bnmatch 7) (State.reset.setLastRead 0x00000008)).hostPc = 1 ∧
    clrst = .write 0x00008 4 0x00000036 := by decide +kernel

/-- WRMSG pads with zeros to whole words (30_encoding R130). -/
theorem test_wrmsg : wrmsg 4 [0x01, 0x02, 0x03, 0x04, 0x05] = [.write 0x10004 4 0x01020304, .write 0x10008 4 0x05000000] := by
  decide +kernel

/-- HALT ends the host, and the pending command then completes (70_reset R273). -/
theorem test_halt_completes :
    (out (step ((State.latch (loaded hdrA 20) 0x00 5).loadScript [.halt] []))).status = 0x00000002 := by decide +kernel

/-! ### Witnesses: for each statement, states and operands that meet the hypotheses of each of its clauses -/

/-- An idle host with one statement to run, and a command pending with the given latency. -/
def running (st : HostStmt) (d : Nat) : State := ((loaded hdrA 20).latch 0x20 d).loadScript [st] []

/-- The same host with nothing pending. -/
def hosted (st : HostStmt) : State := (loaded hdrA 20).loadScript [st] []

/-- Every command answers a next state, the one `out` names. -/
theorem exec_out (i : Instr) (s : State) : exec i s = .next (out (exec i s)) := by cases i <;> rfl

theorem witness_DecodeInvertsEncode : (Instr.xaEnc true).wellFormed = true ∧ (Instr.locate).wellFormed = true := by decide

/-- Each way for a word to be illegal, at the edges of the gaps between the opcodes. -/
theorem witness_IllegalWordCompletes :
    let bad (w : Word) := turn ((loaded hdrA 20).withFetchWord 32 w.toNat) = .engine w
    bad 0x200 ∧ bad 0x80000000 ∧ bad 0x02 ∧ bad 0x0F ∧ bad 0x13 ∧ bad 0x1F ∧ bad 0x22 ∧ bad 0x2F ∧ bad 0x32 ∧ bad 0x3F ∧
      bad 0x41 ∧ bad 0xFF ∧ bad 0x100 ∧ bad 0x110 ∧ bad 0x140 ∧
      (0x200 : Word).extractLsb' 9 23 ≠ 0 ∧
      (0x41 : Word).extractLsb' 0 8 ∉ ([0x00, 0x01, 0x10, 0x11, 0x12, 0x20, 0x21, 0x30, 0x31, 0x40] : List (BitVec 8)) ∧
      ((0x110 : Word).getLsbD 8 = true ∧ (0x110 : Word).extractLsb' 0 8 ≠ 0x11 ∧ (0x110 : Word).extractLsb' 0 8 ≠ 0x12) := by
  decide +kernel

/-- A latency that has passed under a running host, and a host that has ended before it has. -/
theorem witness_StepRunsDecodedCommand :
    (running .reset 0).pend = some ⟨0x20, 0⟩ ∧
      ((running .halt 5).pend = some ⟨0x20, 5⟩ ∧ nextStmt (running .halt 5) = none) ∧ decode 0x20 = .ok .fpGen ∧
      Instr.fpGen.wellFormed = true := by decide +kernel

/-- A host with nothing pending, with the last statement of a latency to run, and an idle machine. -/
theorem witness_StepRunsHostStatement :
    (nextStmt (hosted (rd .status)) = some (rd .status) ∧ (hosted (rd .status)).pend = none) ∧
      (nextStmt (running (rd .status) 1) = some (rd .status) ∧ (running (rd .status) 1).pend = some ⟨0x20, 1⟩) ∧
      (nextStmt State.reset = none ∧ State.reset.pend = none) := by decide +kernel

theorem witness_CommandCompletesWithinLatency :
    (running .reset 0).pend = some ⟨0x20, 0⟩ ∧ (running .reset 7).pend = some ⟨0x20, 7⟩ := by decide +kernel

/-- The invariant at reset, and a step from it. -/
theorem witness_StepKeepsInvariant : State.reset.Inv ∧ step State.reset = .next State.reset := by
  refine ⟨⟨by decide, by decide, by decide, by decide, by decide, by decide, by decide, by decide⟩, rfl⟩

theorem witness_BusyFreezesInputs :
    let s := running (wr .msgLen 0) 1
    s.pend = some ⟨0x20, 1⟩ ∧ turn s = .host (wr .msgLen 0) ∧ wr .msgLen 0 ≠ .reset ∧ ∃ t, step s = .next t :=
  ⟨by decide +kernel, by decide +kernel, by decide, _, rfl⟩

/-- TSTATE changed by a command, by a write of MSG_LEN and by a reset. -/
theorem witness_TrailerStateWriters :
    let sealedS := (loaded hdrA 28).setMsgLen 28 .fpDone
    let changes (s : State) := ∃ t, step s = .next t ∧ t.tstate ≠ s.tstate
    changes (sealedS.withFetchWord 32 0x01) ∧ changes (sealedS.loadScript [wr .msgLen 28] []) ∧
      changes (sealedS.loadScript [.reset] []) :=
  ⟨⟨_, rfl, by decide +kernel⟩, ⟨_, rfl, by decide +kernel⟩, ⟨_, rfl, by decide +kernel⟩⟩

/-- A command that is not a MAC command, and a host write of KEY. -/
theorem witness_KeyReachesOnlyTheMac :
    let s := (loaded hdrA 20).withFetchWord 32 0x20
    let h := hosted (.write 0x00400 4 0x41424344)
    (turn s = .engine 0x20 ∧ decode 0x20 ≠ .ok .miGen ∧ decode 0x20 ≠ .ok .miChk ∧ ∃ t, step s = .next t) ∧
      (turn h = .host (.write 0x00400 4 0x41424344) ∧ ∃ t, step h = .next t) :=
  ⟨⟨by decide +kernel, by decide, by decide, _, rfl⟩, by decide +kernel, _, rfl⟩

theorem witness_ErrorsArePrecise : ∃ t, exec .locate State.reset = .next t ∧ t.err = true := ⟨_, rfl, by decide +kernel⟩

/-- Lengths just outside MsgLenOK: 16, 4100 and 22. -/
theorem witness_BadLengthFailsFirst :
    let bad (n : Nat) := ¬ (20 ≤ (loaded [] n).msgLen.toNat ∧ (loaded [] n).msgLen.toNat ≤ 4096 ∧
      (loaded [] n).msgLen.toNat % 4 = 0)
    bad 16 ∧ bad 4100 ∧ bad 22 ∧ Instr.fpGen ≠ .nop ∧ Instr.fpGen ≠ .srst := by decide +kernel

theorem witness_CommandFrame : ∃ t, exec .fpGen (loaded hdrA 20) = .next t ∧ Instr.fpGen ≠ .srst := ⟨_, rfl, by decide⟩

/-- Each command answers a next state; XA.MASK of family 1, and a LOCATE that finds nothing. -/
theorem witness_RegisterCommandsFrame :
    (∃ t, exec .nop State.reset = .next t) ∧ ((v4 20).xaFamily = 1 ∧ ∃ t, exec .xaMask (v4 20) = .next t) ∧
      (∃ t, exec (.xaDec true) (v4 32) = .next t) ∧ (∃ t, exec .fpChk (loaded hdrA 20) = .next t) ∧
      (∃ t, exec .miChk (loaded hdrA 20) = .next t) ∧
      ∃ t, exec .locate (loaded hdrA 20) = .next t ∧ t.matched = false :=
  ⟨⟨_, rfl⟩, ⟨by decide +kernel, _, rfl⟩, ⟨_, rfl⟩, ⟨_, rfl⟩, ⟨_, rfl⟩, _, rfl, by decide +kernel⟩

/-- Each command answers a next state, and an address lies outside what it stores on either side. -/
theorem witness_StoringCommandsFrame :
    ((∃ t, exec (.xaEnc true) (v4 32) = .next t) ∧ 19 < (v4 32).xaOff.toNat ∧
        (v4 32).xaOff.toNat + (8 + addrLen (v4 32).xaFamily) ≤ 32) ∧
      ((∃ t, exec .fpGen (loaded hdrA 20) = .next t) ∧ 19 < (loaded hdrA 20).msgLen.toNat ∧
        (loaded hdrA 20).msgLen.toNat + 8 ≤ 28) ∧
      ((∃ t, exec .miGen (loaded hdrA 20) = .next t) ∧ (loaded hdrA 20).msgLen.toNat + 24 ≤ 44) :=
  ⟨⟨⟨_, rfl⟩, by decide +kernel, by decide +kernel⟩, ⟨⟨_, rfl⟩, by decide +kernel, by decide +kernel⟩, ⟨_, rfl⟩,
    by decide +kernel⟩

theorem witness_ResultRegisterWriters :
    (∃ t, exec .fpGen (loaded hdrA 20) = .next t ∧ t.fpValue ≠ (loaded hdrA 20).fpValue) ∧
      (∃ t, exec .srst ((loaded hdrA 20).setMac (be32 1)) = .next t ∧ t.mac0 ≠ ((loaded hdrA 20).setMac (be32 1)).mac0) :=
  ⟨⟨_, rfl, by decide +kernel⟩, _, rfl, by decide +kernel⟩

/-- Each branch of XA.MASK's outcome: length 16 and 4100, family 0 and 3, port 0x10000, and success at both families with
the least and the greatest length and the greatest port. -/
theorem witness_XaMaskOutcome :
    ¬ msgLenOK (v4 16) ∧ ¬ msgLenOK (v4 4100) ∧ (msgLenOK (v4 20) ∧ ¬ famOK ((v4 20).setFamily 0).xaFamily) ∧
      ¬ famOK ((v4 20).setFamily 3).xaFamily ∧ ¬ portOK ((v4 20).setPort 0x10000) ∧
      (msgLenOK (v4 20) ∧ famOK (v4 20).xaFamily ∧ portOK ((v4 20).setPort 0xFFFF) ∧ (v4 20).xaFamily = 1) ∧
      (msgLenOK (v6 4096) ∧ famOK (v6 4096).xaFamily ∧ portOK (v6 4096) ∧ (v6 4096).xaFamily = 2) := by decide +kernel

/-- Success with two values of XPORT_MASK, and an error. -/
theorem witness_XaMaskTwiceRestores : (∃ t m, xaMask 0x2112 (v6 20) = .ok (t, m)) ∧ (∃ t m, xaMask 0xA442 (v6 20) = .ok (t, m)) ∧
    ∃ c, xaMask 0xA442 (v6 22) = .error c := ⟨⟨_, _, rfl⟩, ⟨_, _, rfl⟩, _, rfl⟩

/-- Each clause of XA.ENC's outcome; XA_OFF at 16, 22 and one word too far; the TLV ending exactly at MSG_LEN. -/
theorem witness_XaEncOutcome :
    let offOk (s : State) := 20 ≤ s.xaOff.toNat ∧ s.xaOff.toNat % 4 = 0 ∧
      s.xaOff.toNat + 4 + (4 + (if s.xaFamily = 1 then 4 else 16)) ≤ s.msgLen.toNat
    ¬ msgLenOK (v4 18) ∧ (msgLenOK (v4 32) ∧ ¬ famOK ((v4 32).setFamily 0).xaFamily) ∧
      (famOK (v4 32).xaFamily ∧ ¬ portOK ((v4 32).setPort 0x10000)) ∧
      (portOK (v4 32) ∧ ¬ offOk ((v4 32).setXaOff 16) ∧ ¬ offOk ((v4 40).setXaOff 22) ∧ ¬ offOk ((v4 32).setXaOff 24) ∧
        ¬ offOk ((v6 32).setXaOff 20)) ∧
      (msgLenOK (v4 32) ∧ famOK (v4 32).xaFamily ∧ portOK (v4 32) ∧ offOk (v4 32)) ∧
      (msgLenOK (v6 4096) ∧ famOK (v6 4096).xaFamily ∧ portOK (v6 4096) ∧ offOk ((v6 4096).setXaOff 4072)) := by
  decide +kernel

/-- Each branch of XA.DEC's outcome, by the completion code it gives. -/
theorem witness_XaDecOutcome :
    let code (s : State) := (out (exec (.xaDec true) s)).errcode
    code (v4 18) = .badlen ∧ code ((v4 32).setXaOff 32) = .badoff ∧
      code (tlv4 [0x00, 0x01, 0x00, 0x08, 0x00, 0x01]) = .badtype ∧
      code (tlv4 [0x00, 0x20, 0x00, 0x09, 0x00, 0x01]) = .truncated ∧
      code (tlv4 [0x00, 0x20, 0x00, 0x03, 0x00, 0x01]) = .badxlen ∧
      code (tlv4 [0x00, 0x20, 0x00, 0x04, 0x00, 0x03]) = .badfam ∧
      code (tlv4 [0x00, 0x20, 0x00, 0x08, 0x00, 0x02]) = .badxlen ∧
      code (tlv4 [0x00, 0x20, 0x00, 0x08, 0x00, 0x01]) = .ok ∧
      code ((tlv4 [0x00, 0x20, 0x00, 0x14, 0x00, 0x02]).setMsgLen 44 .opened) = .ok := by decide +kernel

theorem ok_of_isSome {r : Except ErrCode (State × Bool)} (h : r.toOption.isSome = true) : ∃ p, r = .ok p := by
  cases r with
  | ok p => exact ⟨p, rfl⟩
  | error c => simp [Except.toOption] at h

/-- A TLV encoded in each family, read back on a state with other address registers. -/
theorem witness_XaEncDecRoundTrip :
    (∃ t, xaEnc 0x2112 true (v4 32) = .ok (t, false) ∧ (t.setAddr0 0).msgLen = t.msgLen ∧ (t.setAddr0 0).xaOff = t.xaOff ∧
        ∀ a, (t.setAddr0 0).msgAt a = t.msgAt a) ∧
      (v4 32).xaFamily = 1 ∧
      (∃ t, xaEnc 0xA442 false ((v6 44).setXaOff 20) = .ok (t, false)) ∧
      ((v6 44).setXaOff 20).xaFamily = 2 ∧ (∃ c, xaEnc 0xA442 true (v4 18) = .error c) ∧
      (∃ c, xaDec 0xA442 true (v4 18) = .error c) ∧
      ∃ p, xaDec 0xA442 true (tlv4 [0x00, 0x20, 0x00, 0x08, 0x00, 0x01, 0x24, 0x17, 0xe1, 0x12, 0xa6, 0x43]) = .ok p :=
  ⟨⟨_, rfl, rfl, rfl, fun _ => rfl⟩, by decide +kernel, ⟨_, rfl⟩, by decide +kernel, ⟨_, rfl⟩, ⟨_, rfl⟩,
    ok_of_isSome (by decide +kernel)⟩

/-- Each clause of FP.GEN's outcome; the trailer just fits at 4088 and just does not at 4092. -/
theorem witness_FpGenOutcome :
    ¬ msgLenOK (loaded hdrA 22) ∧ (msgLenOK (loaded hdrA 28) ∧ ((loaded hdrA 28).setMsgLen 28 .fpDone).tstate = .fpDone) ∧
      (msgLenOK (loaded hdrA 4092) ∧ (loaded hdrA 4092).tstate ≠ .fpDone ∧ ¬ (loaded hdrA 4092).msgLen.toNat + 8 ≤ 4096) ∧
      (msgLenOK (loaded hdrA 4088) ∧ (loaded hdrA 4088).tstate ≠ .fpDone ∧ (loaded hdrA 4088).msgLen.toNat + 8 ≤ 4096) ∧
      (msgLenOK (loaded hdrA 20) ∧ ((loaded hdrA 20).setMsgLen 20 .miDone).tstate ≠ .fpDone) := by decide +kernel

/-- Each branch of FP.CHK's outcome, both answers of the last. -/
theorem witness_FpChkOutcome :
    ¬ msgLenOK (sealedA.setMsgLen 24 .opened |>.setMsgLen 26 .opened) ∧
      ((out (exec .fpChk (sealedA.setAttrOff 24))).errcode = .absent ∧
        (out (exec .fpChk (sealedA.setAttrOff 22))).errcode = .absent ∧
        (out (exec .fpChk (sealedA.setAttrOff 16))).errcode = .absent ∧
        (out (exec .fpChk (sealedA.setAttrOff 0xFFFFFFFC))).errcode = .absent) ∧
      (out (exec .fpChk (sealedA.setAttrOff 20))).matched = true ∧
      (out (exec .fpChk ((sealedA.setAttrOff 20).storeMsg 27 [0x00]))).matched = false := by decide +kernel

/-- FP.GEN succeeds, and what it leaves is checked with the old MSG_LEN in ATTR_OFF. -/
theorem witness_FpGenThenChkMatches :
    ∃ t, exec .fpGen (loaded hdrA 20) = .next t ∧ t.err = false ∧ (t.setAttrOff 20).msgLen = t.msgLen ∧
      (t.setAttrOff 20).attrOff = (loaded hdrA 20).msgLen ∧
      ∀ a, a < (loaded hdrA 20).msgLen.toNat + 8 → (t.setAttrOff 20).msgAt a = t.msgAt a :=
  ⟨out (exec .fpGen (loaded hdrA 20)), exec_out _ _, by decide +kernel, by decide +kernel, by decide +kernel,
    fun a _ => State.msgAt_congr (State.setAttrOff_msg _ _) (State.setAttrOff_resets _ _) a⟩

/-- A sealed message with its first byte, a byte of its length field, or its last byte before the trailer changed. -/
theorem witness_FpDetectsChangedByte :
    ∃ t, exec .fpGen (loaded hdrA 20) = .next t ∧ t.err = false ∧
      ∀ b ∈ [0, 3, 19], b < (loaded hdrA 20).msgLen.toNat ∧
        ((t.setAttrOff 20).storeMsg b [0xFF]).msgLen = t.msgLen ∧
        ((t.setAttrOff 20).storeMsg b [0xFF]).attrOff = (loaded hdrA 20).msgLen ∧
        ((t.setAttrOff 20).storeMsg b [0xFF]).msgAt b ≠ t.msgAt b ∧
        ∀ a, a < (loaded hdrA 20).msgLen.toNat + 8 → a ≠ b → ((t.setAttrOff 20).storeMsg b [0xFF]).msgAt a = t.msgAt a :=
  ⟨_, rfl, by decide +kernel, by decide +kernel⟩

/-- The same with the first and the last byte of the TLV head and of the stored value changed. -/
theorem witness_FpTrailerChangesDetected :
    ∃ t, exec .fpGen (loaded hdrA 20) = .next t ∧ t.err = false ∧
      ∀ b ∈ [20, 23, 24, 27], ((t.setAttrOff 20).storeMsg b [0xFF]).msgLen = t.msgLen ∧
        ((t.setAttrOff 20).storeMsg b [0xFF]).attrOff = (loaded hdrA 20).msgLen ∧
        ((t.setAttrOff 20).storeMsg b [0xFF]).msgAt b ≠ t.msgAt b ∧
        ∀ a, a < (loaded hdrA 20).msgLen.toNat + 8 → a ≠ b → ((t.setAttrOff 20).storeMsg b [0xFF]).msgAt a = t.msgAt a :=
  ⟨_, rfl, by decide +kernel, by decide +kernel⟩

theorem witness_TrailerOrderEnforced :
    (∃ t, exec .fpGen (loaded hdrA 20) = .next t ∧ t.err = false ∧ t.keyLen.toNat ≤ 128) ∧
      ∃ t, exec .miGen (loaded hdrA 20) = .next t ∧ t.err = false :=
  ⟨⟨_, rfl, by decide +kernel, by decide +kernel⟩, _, rfl, by decide +kernel⟩

/-- Each clause of MI.GEN's outcome; key lengths 128 and 129; the trailer just fits at 4072 and just does not at 4076. -/
theorem witness_MiGenOutcome :
    ¬ msgLenOK (loaded hdrA 22) ∧ (msgLenOK (loaded hdrA 20) ∧ ¬ ((loaded hdrA 20).setKeyLen 129).keyLen.toNat ≤ 128) ∧
      (((loaded hdrA 20).setKeyLen 128).keyLen.toNat ≤ 128 ∧ ((loaded hdrA 20).setMsgLen 20 .miDone).tstate ≠ .opened) ∧
      (msgLenOK (loaded hdrA 4076) ∧ (loaded hdrA 4076).tstate = .opened ∧ ¬ (loaded hdrA 4076).msgLen.toNat + 24 ≤ 4096) ∧
      (msgLenOK (loaded hdrA 4072) ∧ (loaded hdrA 4072).tstate = .opened ∧ (loaded hdrA 4072).keyLen.toNat ≤ 128 ∧
        (loaded hdrA 4072).msgLen.toNat + 24 ≤ 4096) := by decide +kernel

/-- Each clause of MI.CHK's outcome; the trailer ends exactly at MSG_LEN, or 4 bytes past it. -/
theorem witness_MiChkOutcome :
    let there (s : State) := trailerAt s s.attrOff.toNat 0x0008 0x0014
    ¬ msgLenOK (signedA.setMsgLen 46 .opened) ∧ (msgLenOK signedA ∧ ¬ (signedA.setKeyLen 129).keyLen.toNat ≤ 128) ∧
      ((signedA.setKeyLen 128).keyLen.toNat ≤ 128 ∧ ¬ there (signedA.setAttrOff 24) ∧
        ¬ there ((signedA.setAttrOff 20).setMsgLen 40 .opened)) ∧
      there (signedA.setAttrOff 20) := by decide +kernel

/-- MI.GEN succeeds, and what it leaves is checked under the same key with another header length. -/
theorem witness_MiGenThenChkMatches :
    ∃ t, exec .miGen (loaded hdrA 20) = .next t ∧ t.err = false ∧
      let u := (t.setAttrOff 20).storeMsg 2 [0x00, 0x00]
      (t.msgLen.toNat ≤ u.msgLen.toNat ∧ u.msgLen.toNat ≤ 4096 ∧ u.msgLen.toNat % 4 = 0) ∧
        u.attrOff = (loaded hdrA 20).msgLen ∧ u.keyLen = (loaded hdrA 20).keyLen ∧
        (∀ k, k < (loaded hdrA 20).keyLen.toNat → u.keyAt k = (loaded hdrA 20).keyAt k) ∧
        ∀ a, a < (loaded hdrA 20).msgLen.toNat + 24 → a ≠ 2 → a ≠ 3 → u.msgAt a = t.msgAt a :=
  ⟨out (exec .miGen (loaded hdrA 20)), exec_out _ _, by decide +kernel, by decide +kernel, by decide +kernel,
    by decide +kernel, fun k h => by rw [show (loaded hdrA 20).keyLen.toNat = 0 by decide +kernel] at h; omega,
    fun a _ h2 h3 => (State.msgAt_storeMsg_outside _ (by simp only [List.length_cons, List.length_nil]; omega)).trans
      (State.msgAt_congr (State.setAttrOff_msg _ _) (State.setAttrOff_resets _ _) a)⟩

theorem witness_BothTrailersVerify :
    ∃ t u, exec .miGen (loaded hdrA 20) = .next t ∧ t.err = false ∧ exec .fpGen t = .next u ∧ u.err = false :=
  ⟨out (exec .miGen (loaded hdrA 20)), out (exec .fpGen (out (exec .miGen (loaded hdrA 20)))), exec_out _ _,
    by decide +kernel, exec_out _ _, by decide +kernel⟩

theorem witness_TrailingZeroKeysCollide : ([0x41] : List Byte).length + 63 ≤ 64 := by decide

/-- Each clause: found at the first TLV, the end at the empty attribute section, a TLV too long by one byte. -/
theorem witness_LocateOutcome :
    let tlv (l : Byte) := (loaded (hdrA ++ [0x00, 0x08, 0x00, l]) 28).setAttrType 0x0008
    (msgLenOK (tlv 4) ∧ walkReaches (tlv 4) 0 ∧ walkPos (tlv 4) 0 < (tlv 4).msgLen.toNat ∧ tlvFits (tlv 4) (walkPos (tlv 4) 0) ∧
        (tlv 4).memRead (walkPos (tlv 4) 0) 2 = (tlv 4).attrType.toNat) ∧
      (msgLenOK (loaded hdrA 20) ∧ walkReaches (loaded hdrA 20) 0 ∧ (loaded hdrA 20).msgLen.toNat ≤ walkPos (loaded hdrA 20) 0) ∧
      (walkReaches (tlv 5) 0 ∧ walkPos (tlv 5) 0 < (tlv 5).msgLen.toNat ∧ ¬ tlvFits (tlv 5) (walkPos (tlv 5) 0)) ∧
      (walkReaches ((tlv 4).setAttrType 1) 1 ∧ ((tlv 4).setAttrType 1).msgLen.toNat ≤ walkPos ((tlv 4).setAttrType 1) 1) := by
  decide +kernel

theorem witness_LocateFindsInsideMessage :
    ∃ t, exec .locate (received 0) = .next t ∧ t.matched = true := ⟨_, rfl, by decide +kernel⟩

/-- A TLV of each trailer's type with a wrong length, found and then ABSENT. -/
theorem witness_LocatedTrailerAbsentOnlyByLength :
    (∃ t u, exec .locate ((loaded (hdrA ++ [0x80, 0x28, 0x00, 0x03]) 28).setAttrType 0x8028) = .next t ∧ t.matched = true ∧
        t.attrType = 0x8028 ∧ exec .fpChk t = .next u ∧ u.errcode = .absent) ∧
      ∃ t u, exec .locate ((loaded (hdrA ++ [0x00, 0x08, 0x00, 0x03]) 28).setAttrType 0x0008) = .next t ∧ t.matched = true ∧
        t.attrType = 0x0008 ∧ exec .miChk t = .next u ∧ u.errcode = .absent :=
  ⟨⟨_, _, rfl, by decide +kernel, rfl, rfl, by decide +kernel⟩, _, _, rfl, by decide +kernel, rfl, rfl, by decide +kernel⟩

/-- The first and the last access of each region, and those just outside. -/
theorem witness_DecodedAccesses :
    decodeAccess 0x00000 4 = some (.reg .id) ∧ decodeAccess 0x00060 4 = some (.reg .mac4) ∧ decodeAccess 0x00064 4 = none ∧
      decodeAccess 0x00400 1 = some (.key 0) ∧ decodeAccess 0x0047F 1 = some (.key 127) ∧ decodeAccess 0x00480 1 = none ∧
      decodeAccess 0x003FF 1 = none ∧ decodeAccess 0x10000 4 = some (.msg 0) ∧ decodeAccess 0x10FFC 4 = some (.msg 4092) ∧
      decodeAccess 0x11000 4 = none ∧ decodeAccess 0x0FFFC 4 = none ∧ decodeAccess 0x10002 4 = none := by decide +kernel

theorem witness_UndecodedAccessSetsAerr : decodeAccess 0x1FFFF 1 = none ∧ decodeAccess 0x00008 2 = none := by decide +kernel

theorem witness_DecodedReads :
    decodeAccess 0x00008 4 = some (.reg .status) ∧ decodeAccess 0x0047C 4 = some (.key 124) ∧
      decodeAccess 0x10FFC 4 = some (.msg 4092) ∧ decodeAccess 0x10FFE 2 = some (.msg 4094) ∧
      decodeAccess 0x10FFF 1 = some (.msg 4095) := by decide +kernel

theorem witness_BufferWrites :
    State.reset.busy = false ∧ decodeAccess 0x10FFE 2 = some (.msg 4094) ∧ decodeAccess 0x0047F 1 = some (.key 127) := by
  decide +kernel

/-- The register and operand offsets those statements write and read are decoded, CTRL first and XA_OFF last. -/
theorem witness_RegisterReadBack :
    decodeAccess 0x00004 4 = some (.reg .ctrl) ∧ decodeAccess 0x00010 4 = some (.reg .msgLen) ∧
      decodeAccess 0x00038 4 = some (.reg .xaOff) ∧ State.reset.busy = false ∧ (loaded hdrA 20).busy = false := by decide +kernel

/-- A decoded write, a register other than the one written and STATUS, and an idle machine. -/
theorem witness_RegisterWriteFrame : decodeAccess 0x0000C 4 = some (.reg .cmd) ∧ State.reset.busy = false ∧ Reg.msgLen ≠ Reg.cmd ∧ Reg.msgLen ≠ Reg.status ∧ Reg.cmd ≠ Reg.status := by decide

/-- The first and the last read-only register. -/
theorem witness_ReadOnlyRegistersIgnoreWrites :
    decodeAccess 0x00000 4 = some (.reg .id) ∧ decodeAccess 0x00040 4 = some (.reg .fpValue) ∧
      decodeAccess 0x00060 4 = some (.reg .mac4) := by decide +kernel

/-- A pending command, and each kind of target. -/
theorem witness_BusyDropsWrites :
    (running .halt 1).busy = true ∧ decodeAccess 0x0000C 4 = some (.reg .cmd) ∧ decodeAccess 0x00038 4 = some (.reg .xaOff) ∧
      decodeAccess 0x00004 4 = some (.reg .ctrl) ∧ decodeAccess 0x00008 4 = some (.reg .status) ∧
      decodeAccess 0x00040 4 = some (.reg .fpValue) ∧ decodeAccess 0x0047F 1 = some (.key 127) ∧
      decodeAccess 0x10FFF 1 = some (.msg 4095) := by decide +kernel

/-- An idle machine with no latency left, and with one. -/
theorem witness_IssueLatchesCommand :
    (State.reset.busy = false ∧ State.reset.latencies = []) ∧
      (State.reset.loadScript [] [3]).busy = false ∧ (State.reset.loadScript [] [3]).latencies = 3 :: [] := by decide +kernel

theorem witness_IrqLevel : ∃ n, n ≠ Config.pIrq := ⟨Config.pIrq + 1, by omega⟩

/-- STATUS data with and without bit 1, an idle machine, SRST, and DONE = 1. -/
theorem witness_IrqClearedAndSet :
    (0x2 : Word).getLsbD 1 = true ∧ State.reset.busy = false ∧ (0x0 : Word).getLsbD 0 = false ∧
      (∃ t, exec .srst (State.reset.finish false) = .next t) ∧ (0x1 : Word).getLsbD 0 = true ∧
      (State.reset.finish false).done = true :=
  ⟨by decide, by decide, by decide, ⟨_, rfl⟩, by decide, by decide⟩

/-- A reset by an idle host, and one that abandons a pending command. -/
theorem witness_HardwareResetClears :
    (turn (hosted .reset) = .host .reset ∧ ∃ t, step (hosted .reset) = .next t) ∧
      turn (running .reset 1) = .host .reset ∧ ∃ t, step (running .reset 1) = .next t :=
  ⟨⟨by decide +kernel, _, rfl⟩, by decide +kernel, _, rfl⟩

theorem witness_ResetState : Reg.mac4 ≠ Reg.id ∧ Reg.ctrl ≠ Reg.id := by decide

theorem witness_MemReadAfterMemWrite : ((4095 : Nat) < 4096 ∨ 4096 + 4 ≤ (4095 : Nat)) ∧ (3 : Nat) < 4 := by decide

theorem witness_HostBranchesTestLastRead :
    (0x00000009 : Word).getLsbD 0 = true ∧ (0x00000009 : Word).getLsbD 3 = true ∧ (0x00000001 : Word).getLsbD 3 = false ∧
      (0x00000406 : Word).getLsbD 2 = true := by decide

/-- A block of 64 bytes; the last word taken from it, and the first and the last word made of earlier ones. -/
theorem witness_Crc32AndSha1AsSpecified :
    (List.replicate 64 (0x61 : Byte)).length = 64 ∧ (15 : Nat) < 16 ∧ (16 ≤ 16 ∧ (16 : Nat) < 80) ∧ 16 ≤ 79 ∧ (79 : Nat) < 80 := by
  decide

end Sys2Proof.Tests
end

section
/-! SUPPORT. The laws behind the scope's statements: bytes in network order, whose turn it is, and how a pending command
ends. -/

/-! ### Bytes of a number, most significant first (00_scope R16) -/

namespace Sys2Proof.Machine

open Sys2Proof

theorem two_pow_eight_mul (k : Nat) : 2 ^ (8 * k) = 256 ^ k := pow_mul 2 8 k

theorem getElem_beBytes (n v i : Nat) (h : i < (beBytes n v).length) :
    (beBytes n v)[i] = BitVec.ofNat 8 (v / 256 ^ (n - 1 - i)) := by
  simp [beBytes]

/-- Byte i of the n bytes of v, with the place written in bits as in 00_scope R16. -/
theorem toNat_getD_beBytes {n i : Nat} (v : Nat) (h : i < n) :
    ((beBytes n v).getD i 0).toNat = v / 2 ^ (8 * (n - 1 - i)) % 2 ^ 8 := by
  have hi : i < (beBytes n v).length := by simpa using h
  rw [List.getD_eq_getElem _ _ hi, getElem_beBytes, BitVec.toNat_ofNat, two_pow_eight_mul]

theorem be32_eq_extractLsb' (w : Word) :
    be32 w = [w.extractLsb' 24 8, w.extractLsb' 16 8, w.extractLsb' 8 8, w.extractLsb' 0 8] := by
  have byte (k : Nat) : BitVec.ofNat 8 (w.toNat / 256 ^ k) = w.extractLsb' (8 * k) 8 := by
    apply BitVec.eq_of_toNat_eq
    rw [BitVec.toNat_ofNat, BitVec.extractLsb'_toNat, Nat.shiftRight_eq_div_pow, two_pow_eight_mul]
  change [BitVec.ofNat 8 (w.toNat / 256 ^ 3), BitVec.ofNat 8 (w.toNat / 256 ^ 2), BitVec.ofNat 8 (w.toNat / 256 ^ 1),
    BitVec.ofNat 8 (w.toNat / 256 ^ 0)] = _
  rw [byte 3, byte 2, byte 1, byte 0]

/-- Inside the written span, MSG holds the bytes of the value. -/
theorem State.msgAt_memWrite_inside (s : State) {a n v i : Nat} (h : i < n) :
    (s.memWrite a n v).msgAt (a + i) = (beBytes n v).getD i 0 := by
  have hi : i < (beBytes n v).length := by simpa using h
  rw [State.msgAt_memWrite, if_pos (Nat.le_add_right a i), Nat.add_sub_cancel_left,
    List.getElem?_eq_getElem hi, List.getD_eq_getElem _ _ hi, Option.getD_some]

@[simp] theorem State.memRead_zero (s : State) (a : Nat) : s.memRead a 0 = 0 := rfl

/-- MemRead takes one further byte as the least significant. -/
theorem State.memRead_succ (s : State) (a n : Nat) :
    s.memRead a (n + 1) = s.memRead a n * 256 + (s.msgAt (a + n)).toNat := by
  rw [State.memRead, State.memBytes_add]
  exact beNat_snoc (s.memBytes a n) (s.msgAt (a + n))

/-! ### Whose turn it is, and the host's statements (00_scope R22, R23, 30_encoding R130) -/

/-- The host's next statement is the one at its place in the script, unless that is HALT. -/
theorem nextStmt_eq_some_iff (s : State) (st : HostStmt) :
    nextStmt s = some st ↔ s.script[s.hostPc]? = some st ∧ st ≠ .halt := by
  refine ⟨nextStmt_ne_halt, fun ⟨hs, hne⟩ => ?_⟩
  cases st <;> simp_all [nextStmt]

theorem hostExec_branch (c : BranchCond) (n : Nat) (s : State) :
    hostExec (.branch c n) s = { s with hostPc := if branchTaken c s.lastRead = true then n else s.hostPc + 1 } := rfl

/-! ### One step of a machine with a pending command -/

/-- A command that succeeds has not reset the SIB's hardware. -/
theorem cmdResult_ok_resets {i : Instr} {s u : State} {m : Bool} (h : cmdResult i s = .ok (u, m)) :
    u.resets = s.resets := by
  cases i with
  | nop => cases h; rfl
  | srst => cases h; rfl
  | xaMask =>
    obtain ⟨-, -, -, hu⟩ := (xaMask_ok_iff _ s _).mp h
    cases hu
    split <;> rfl
  | xaEnc x =>
    obtain ⟨-, -, -, -, hu⟩ := (xaEnc_ok_iff _ x s _).mp h
    cases hu; rfl
  | xaDec x =>
    obtain ⟨-, -, -, -, -, -, hu⟩ := (xaDec_ok_iff _ x s _).mp h
    cases hu; rfl
  | fpGen =>
    obtain ⟨-, -, -, hu⟩ := (fpGen_ok_iff s _).mp h
    obtain ⟨rfl, -⟩ := Prod.mk.inj hu
    simp [fpGenState]
  | fpChk =>
    obtain ⟨-, -, hu⟩ := (fpChk_ok_iff s _).mp h
    cases hu; rfl
  | miGen =>
    obtain ⟨-, -, -, -, hu⟩ := (miGen_ok_iff s _).mp h
    obtain ⟨rfl, -⟩ := Prod.mk.inj hu
    simp [miGenState]
  | miChk =>
    obtain ⟨-, -, -, hu⟩ := (miChk_ok_iff s _).mp h
    cases hu; rfl
  | locate =>
    obtain ⟨-, ⟨pos, -, hu⟩ | ⟨-, hu⟩⟩ := (locate_ok_iff s _).mp h <;> cases hu <;> rfl

/-- The engine's step completes the latched word, legal or not, and resets no hardware (10_state R60). -/
theorem step_engine_completes {s : State} {w : Word} (ht : turn s = .engine w) :
    ∃ t, step s = .next t ∧ t.pend = none ∧ t.done = true ∧ t.resets = s.resets := by
  cases hd : decode w with
  | error e => exact ⟨_, step_illegal ht hd, rfl, rfl, rfl⟩
  | ok i =>
    refine ⟨_, (step_engine ht hd).trans (exec_eq i s), ?_⟩
    rcases s.complete_cases (cmdResult i s) with ⟨u, m, hr, hc⟩ | ⟨c, -, hc⟩ <;> rw [hc]
    · exact ⟨rfl, rfl, (u.finish_resets m).trans (cmdResult_ok_resets hr)⟩
    · exact ⟨rfl, rfl, rfl⟩

/-- No bus write withdraws a pending command or resets the hardware (10_state R58). -/
theorem State.busWrite_busy_keeps_pend {s : State} (h : s.busy = true) (addr : BitVec 17) (size : Nat) (d : Word) :
    (s.busWrite addr size d).pend = s.pend ∧ (s.busWrite addr size d).resets = s.resets := by
  rcases s.busWrite_busy h addr size d with h | h | h | h | h <;> rw [h] <;> exact ⟨rfl, rfl⟩

theorem State.busRead_keeps_pend (s : State) (addr : BitVec 17) (size : Nat) :
    (s.busRead addr size).1.pend = s.pend ∧ (s.busRead addr size).1.resets = s.resets := by
  rw [State.busRead_state]
  split <;> exact ⟨rfl, rfl⟩

/-- While a command is pending, a host statement leaves it pending unless it is Reset, which abandons it. -/
theorem hostExec_busy {s : State} (h : s.busy = true) (st : HostStmt) :
    ((hostExec st s).pend = s.pend ∧ (hostExec st s).resets = s.resets) ∨
      ((hostExec st s).pend = none ∧ (hostExec st s).resets = s.resets + 1) := by
  cases st with
  | read a n => exact .inl (s.busRead_keeps_pend a n)
  | write a n d => exact .inl (State.busWrite_busy_keeps_pend h a n d)
  | reset => exact .inr ⟨rfl, rfl⟩
  | branch c t => exact .inl ⟨rfl, rfl⟩
  | halt => exact .inl ⟨rfl, rfl⟩

/-- The host's step brings the pending command one statement nearer, or abandons it by a hardware reset. -/
theorem step_host_pending {s : State} {p : Pending} {st : HostStmt} (hp : s.pend = some p) (ht : turn s = .host st) :
    ∃ t, step s = .next t ∧ ((t.pend = some ⟨p.word, p.delay - 1⟩ ∧ t.resets = s.resets) ∨
      (t.pend = none ∧ t.resets = s.resets + 1)) := by
  have hb : s.tick.busy = true := by rw [State.busy_tick, State.busy, hp]; rfl
  refine ⟨_, step_host ht, ?_⟩
  rw [← State.tick_pend_some hp]
  exact hostExec_busy hb st

/-- One step and then a run of n steps is a run of n + 1 steps. -/
theorem run_succ_of_step {M : Host.Core} {s t : M.State} (h : M.step s = .next t) (n : Nat) :
    M.run (n + 1) s = M.run n t := by rw [Host.Core.run, h]

/-- Some run of at most k steps leaves nothing pending: the command has completed, or a hardware reset abandoned it. -/
def ResolvesWithin (s : State) (k : Nat) : Prop :=
  ∃ n t, n ≤ k ∧ Host.Core.run core n s = .next t ∧ t.pend = none ∧
    ((t.done = true ∧ t.resets = s.resets) ∨ t.resets = s.resets + 1)

theorem resolvesWithin_of_engine {s : State} {w : Word} (ht : turn s = .engine w) (k : Nat) :
    ResolvesWithin s (k + 1) := by
  obtain ⟨t, hst, hpend, hdone, hres⟩ := step_engine_completes ht
  exact ⟨1, t, Nat.le_add_left 1 k, run_succ_of_step (M := core) hst 0, hpend, .inl ⟨hdone, hres⟩⟩

theorem ResolvesWithin.of_step {s t : State} {k : Nat} (h : ResolvesWithin t k) (hst : step s = .next t)
    (hr : t.resets = s.resets) : ResolvesWithin s (k + 1) := by
  obtain ⟨n, u, hn, hrun, hpend, hu⟩ := h
  exact ⟨n + 1, u, Nat.succ_le_succ hn, (run_succ_of_step (M := core) hst n).trans hrun, hpend, hr ▸ hu⟩

/-- The bound of logs 1 and 2, by induction on what is left of the latency: the engine completes the command at 0, or when
the host has ended; else one host statement brings it nearer or is the Reset that abandons it. -/
theorem resolvesWithin_latency {s : State} {w : Word} {d : Nat} (hp : s.pend = some ⟨w, d⟩) :
    ResolvesWithin s (d + 1) := by
  induction d generalizing s with
  | zero => exact resolvesWithin_of_engine ((turn_engine_iff s w).mpr ⟨_, hp, rfl, .inl rfl⟩) 0
  | succ d ih =>
    cases hn : nextStmt s with
    | none => exact resolvesWithin_of_engine ((turn_engine_iff s w).mpr ⟨_, hp, rfl, .inr hn⟩) (d + 1)
    | some st =>
      have ht : turn s = .host st := (turn_host_iff s st).mpr ⟨hn, by simp [hp]⟩
      obtain ⟨t, hst, ⟨htp, htr⟩ | ⟨htp, htr⟩⟩ := step_host_pending hp ht
      · exact (ih htp).of_step hst htr
      · exact ⟨1, t, by omega, run_succ_of_step (M := core) hst 0, htp, .inr htr⟩

end Sys2Proof.Machine
end

section
/-! The statements of 00_scope, settled. -/

namespace Sys2Proof.Machine

open Sys2Proof

/-- Settles O7, by induction on the latency (`resolvesWithin_latency`). -/
theorem commandCompletesWithinLatency : Obligations.CommandCompletesWithinLatency := fun _ p hp =>
  resolvesWithin_latency (w := p.word) hp

/-- Settles O57: each clause is the law of its primitive. -/
theorem memReadAfterMemWrite : Obligations.MemReadAfterMemWrite := by
  intro s a n v
  refine ⟨s.memRead_memWrite a n v, fun x hx => s.msgAt_memWrite_outside hx, rfl, fun i hi => ?_,
    s.memRead_zero a, s.memRead_succ a n, beBytes_length n v, fun i hi => toNat_getD_beBytes v hi,
    be32_eq_extractLsb', rfl, rfl⟩
  rw [s.msgAt_memWrite_inside hi]
  exact toNat_getD_beBytes v hi

/-- Settles O5. -/
theorem stepRunsDecodedCommand : Obligations.StepRunsDecodedCommand := fun s p _ hp hready hd _ =>
  step_engine ((turn_engine_iff s p.word).mpr ⟨p, hp, rfl, hready⟩) hd

/-- Settles O6: each clause reads off whose turn it is. -/
theorem stepRunsHostStatement : Obligations.StepRunsHostStatement := by
  refine ⟨fun s st hn hp => ?_, fun s hn hp => ?_, nextStmt_eq_some_iff, turn_engine_iff, turn_host_iff⟩
  · exact step_host ((turn_host_iff s st).mpr ⟨hn, hp⟩)
  · exact step_idle ((turn_idle_iff s).mpr ⟨hp, hn⟩)

/-- Settles O58: a branch by the bit its condition tests, the other statements by what they are. -/
theorem hostBranchesTestLastRead : Obligations.HostBranchesTestLastRead := by
  intro s n addr size d
  refine ⟨hostExec_branch .bnz0 n s, hostExec_branch .bmatch n s, ?_, hostExec_branch .berr n s, rfl, rfl, rfl⟩
  have hbit : (branchTaken .bnmatch s.lastRead = true) = (s.lastRead.getLsbD 3 = false) := by simp [branchTaken]
  simp only [hostExec_branch, hbit]

end Sys2Proof.Machine
end

section
/-! SUPPORT. The laws behind the state's statements: single bits and the STATUS word, register accesses at their offsets,
what a successful command can write, who writes TSTATE, the parts of the invariant, and states that differ in KEY alone. -/

namespace Sys2Proof.Machine

open Sys2Proof

/-! ### Single bits, narrow registers and the STATUS word (10_state R32, R33, 60_exceptions R230) -/

theorem getLsbD_bitAt (n : Nat) (b : Bool) {i : Nat} (hi : i < 32) :
    (bitAt n b).getLsbD i = (b && decide (i = n)) := by
  cases b with
  | false => simp [bitAt]
  | true =>
    simp only [bitAt, if_true, BitVec.getLsbD_ofNat, hi, Nat.testBit_two_pow, eq_comm, decide_true, Bool.true_and]

theorem bitAt_zero_getLsbD_zero (d : Word) : bitAt 0 (d.getLsbD 0) = d &&& 0x00000001 := by
  apply BitVec.eq_of_getLsbD_eq
  intro i hi
  rw [getLsbD_bitAt 0 _ hi, BitVec.getLsbD_and]
  rcases i with _ | i <;> simp

/-- A register that keeps the low n bits of the data reads them back. -/
theorem setWidth_setWidth_eq_and (n : Nat) (d : Word) :
    (d.setWidth n).setWidth 32 = d &&& BitVec.ofNat 32 (2 ^ n - 1) := by
  apply BitVec.eq_of_getLsbD_eq
  intro i hi
  rw [BitVec.getLsbD_and, BitVec.getLsbD_ofNat, Nat.testBit_two_pow_sub_one]
  simp [hi, Bool.and_comm]

/-- Each bit of STATUS comes from one field or is 0. -/
theorem State.getLsbD_status (s : State) {i : Nat} (hi : i < 32) :
    s.status.getLsbD i =
      (s.busy && decide (i = 0) || s.done && decide (i = 1) || s.err && decide (i = 2) || s.matched && decide (i = 3) ||
        s.werr && decide (i = 4) || s.aerr && decide (i = 5) || (decide (8 ≤ i) && s.errcode.code.getLsbD (i - 8)) ||
        (decide (16 ≤ i) && s.tstate.code.getLsbD (i - 16))) := by
  have h8 : i - 8 < 32 := by omega
  have h16 : i - 16 < 32 := by omega
  simp only [State.status, BitVec.getLsbD_or, getLsbD_bitAt _ _ hi, BitVec.getLsbD_shiftLeft, BitVec.getLsbD_setWidth,
    hi, h8, h16, decide_true, Bool.true_and, ← not_le, decide_not, Bool.not_not]

/-- Above the single bits of STATUS come ERRCODE and TSTATE. -/
theorem State.getLsbD_status_add_eight (s : State) {i : Nat} (hi : i < 24) :
    s.status.getLsbD (8 + i) = (s.errcode.code.getLsbD i || decide (8 ≤ i) && s.tstate.code.getLsbD (i - 8)) := by
  have above (k : Nat) (hk : k < 8) : decide (8 + i = k) = false := by simp only [decide_eq_false_iff_not]; omega
  have h16 : 16 ≤ 8 + i ↔ 8 ≤ i := by omega
  have hsub : 8 + i - 16 = i - 8 := by omega
  rw [s.getLsbD_status (by omega), above 0 (by decide), above 1 (by decide), above 2 (by decide), above 3 (by decide),
    above 4 (by decide), above 5 (by decide)]
  simp only [h16, hsub, Nat.add_sub_cancel_left, Nat.le_add_right, decide_true, Bool.and_false, Bool.false_or,
    Bool.true_and]

/-- Bits 7:6 are reserved. -/
theorem State.status_bits_6_7 (s : State) : s.status.extractLsb' 6 2 = 0 := by
  apply BitVec.eq_of_getLsbD_eq
  intro i hi
  rw [BitVec.getLsbD_extractLsb', s.getLsbD_status (by omega)]
  obtain rfl | rfl : i = 0 ∨ i = 1 := by omega
  · simp
  · simp

theorem State.status_errcode (s : State) : s.status.extractLsb' 8 8 = s.errcode.code := by
  apply BitVec.eq_of_getLsbD_eq
  intro i hi
  rw [BitVec.getLsbD_extractLsb', s.getLsbD_status_add_eight (by omega)]
  simp [hi]

theorem State.status_tstate (s : State) : s.status.extractLsb' 16 2 = s.tstate.code := by
  apply BitVec.eq_of_getLsbD_eq
  intro i hi
  have herr : s.errcode.code.getLsbD (8 + i) = false := BitVec.getLsbD_of_ge _ _ (by omega)
  rw [BitVec.getLsbD_extractLsb', show 16 + i = 8 + (8 + i) by omega, s.getLsbD_status_add_eight (by omega), herr]
  simp [hi]

/-- Bits 31:18 are reserved. -/
theorem State.status_bits_18_31 (s : State) : s.status.extractLsb' 18 14 = 0 := by
  apply BitVec.eq_of_getLsbD_eq
  intro i hi
  have herr : s.errcode.code.getLsbD (10 + i) = false := BitVec.getLsbD_of_ge _ _ (by omega)
  have htst : s.tstate.code.getLsbD (10 + i - 8) = false := BitVec.getLsbD_of_ge _ _ (by omega)
  rw [BitVec.getLsbD_extractLsb', show 18 + i = 8 + (10 + i) by omega, s.getLsbD_status_add_eight (by omega), herr, htst]
  simp

theorem ErrCode.code_eq_zero_iff (c : ErrCode) : c.code = 0x00 ↔ c = .ok := by cases c <;> decide

theorem ErrCode.code_le (c : ErrCode) : c.code.toNat ≤ 0x0C := by cases c <;> decide

theorem TState.code_ne_three (t : TState) : t.code ≠ 3 := by cases t <;> decide

/-! ### Accesses of registers at their offsets (10_state R30) -/

theorem decodeAccess_offset (r : Reg) : decodeAccess (BitVec.ofNat 17 r.offset) 4 = some (.reg r) := by
  cases r <;> rfl

/-- A decoded write of a register is `writeReg`. -/
theorem State.busWrite_reg {addr : BitVec 17} {size : Nat} {r : Reg} (h : decodeAccess addr size = some (.reg r))
    (s : State) (d : Word) : s.busWrite addr size d = s.writeReg r d := by simp [State.busWrite, h]

theorem State.busWrite_offset (s : State) (r : Reg) (d : Word) :
    s.busWrite (BitVec.ofNat 17 r.offset) 4 d = s.writeReg r d := State.busWrite_reg (decodeAccess_offset r) s d

theorem State.busRead_offset (s : State) (r : Reg) :
    s.busRead (BitVec.ofNat 17 r.offset) 4 = (s, s.readReg r) := by simp [State.busRead, decodeAccess_offset]

/-- A bus write and then a bus read of one register: what is read after `writeReg`. -/
theorem State.busRead_busWrite_offset (s : State) (r : Reg) (d : Word) :
    ((s.busWrite (BitVec.ofNat 17 r.offset) 4 d).busRead (BitVec.ofNat 17 r.offset) 4).2 =
      (s.writeReg r d).readReg r := by rw [State.busWrite_offset, State.busRead_offset]

/-! ### The writers of TSTATE, FP_VALUE and MAC0..4 (10_state R39, R50, R51) -/

/-- MAC0..4 hold the same in both states. -/
def SameMac (s t : State) : Prop :=
  t.mac0 = s.mac0 ∧ t.mac1 = s.mac1 ∧ t.mac2 = s.mac2 ∧ t.mac3 = s.mac3 ∧ t.mac4 = s.mac4

theorem SameMac.refl (s : State) : SameMac s s := ⟨rfl, rfl, rfl, rfl, rfl⟩

/-- A successful command leaves each of TSTATE, FP_VALUE and MAC0..4 as it was, or is one of the field's writers. -/
theorem cmdResult_ok_writers {i : Instr} {s u : State} {m : Bool} (h : cmdResult i s = .ok (u, m)) :
    (u.tstate = s.tstate ∨ i = .miGen ∨ i = .fpGen ∨ i = .srst) ∧
      (u.fpValue = s.fpValue ∨ i = .fpGen ∨ i = .fpChk ∨ i = .srst) ∧
      (SameMac s u ∨ i = .miGen ∨ i = .miChk ∨ i = .srst) := by
  cases i with
  | nop => cases h; exact ⟨.inl rfl, .inl rfl, .inl (SameMac.refl s)⟩
  | srst => simp
  | xaMask =>
    obtain ⟨-, -, -, hu⟩ := (xaMask_ok_iff _ s _).mp h
    cases hu
    split <;> exact ⟨.inl rfl, .inl rfl, .inl (SameMac.refl s)⟩
  | xaEnc x =>
    obtain ⟨-, -, -, -, hu⟩ := (xaEnc_ok_iff _ x s _).mp h
    cases hu; exact ⟨.inl rfl, .inl rfl, .inl (SameMac.refl s)⟩
  | xaDec x =>
    obtain ⟨-, -, -, -, -, -, hu⟩ := (xaDec_ok_iff _ x s _).mp h
    cases hu; exact ⟨.inl rfl, .inl rfl, .inl (SameMac.refl s)⟩
  | fpGen =>
    obtain ⟨-, -, -, hu⟩ := (fpGen_ok_iff s _).mp h
    obtain ⟨rfl, -⟩ := Prod.mk.inj hu
    exact ⟨by simp, by simp, .inl (by simp [SameMac, fpGenState])⟩
  | fpChk =>
    obtain ⟨-, -, hu⟩ := (fpChk_ok_iff s _).mp h
    cases hu; exact ⟨.inl rfl, by simp, .inl (SameMac.refl s)⟩
  | miGen =>
    obtain ⟨-, -, -, -, hu⟩ := (miGen_ok_iff s _).mp h
    obtain ⟨rfl, -⟩ := Prod.mk.inj hu
    exact ⟨by simp, .inl (by simp [miGenState]), by simp⟩
  | miChk =>
    obtain ⟨-, -, -, hu⟩ := (miChk_ok_iff s _).mp h
    cases hu; exact ⟨.inl rfl, .inl rfl, by simp⟩
  | locate =>
    obtain ⟨-, ⟨pos, -, hu⟩ | ⟨-, hu⟩⟩ := (locate_ok_iff s _).mp h <;> cases hu <;>
      exact ⟨.inl rfl, .inl rfl, .inl (SameMac.refl s)⟩

theorem State.unlessBusy_tstate {s t : State} (h : t.tstate = s.tstate) : (s.unlessBusy t).tstate = s.tstate := by
  cases hb : s.busy <;> simp [hb, h]

/-- The only register write that changes TSTATE is that of MSG_LEN while idle (10_state R42, R58). -/
theorem State.writeReg_tstate (s : State) (r : Reg) (d : Word) :
    (s.writeReg r d).tstate = s.tstate ∨ (r = .msgLen ∧ s.busy = false) := by
  cases r with
  | msgLen =>
    cases hb : s.busy with
    | false => exact .inr ⟨rfl, rfl⟩
    | true => exact .inl (by rw [State.writeReg, State.unlessBusy_busy hb]; rfl)
  | id | ctrl | status | fpValue | mac0 | mac1 | mac2 | mac3 | mac4 => exact .inl rfl
  | _ => exact .inl (State.unlessBusy_tstate rfl)

theorem State.busWrite_tstate (s : State) (addr : BitVec 17) (size : Nat) (d : Word) :
    (s.busWrite addr size d).tstate = s.tstate ∨ (addr = 0x00010 ∧ size = 4 ∧ s.busy = false) := by
  rcases s.busWrite_cases addr size d with ⟨-, h⟩ | ⟨r, hr, h⟩ | ⟨k, -, h⟩ | ⟨k, -, h⟩ <;> rw [h]
  · exact .inl rfl
  · obtain hsame | ⟨rfl, hidle⟩ := s.writeReg_tstate r d
    · exact .inl hsame
    · obtain ⟨hsize, haddr⟩ := decodeAccess_reg hr
      exact .inr ⟨BitVec.eq_of_toNat_eq haddr, hsize, hidle⟩
  · exact .inl (State.unlessBusy_tstate rfl)
  · exact .inl (State.unlessBusy_tstate rfl)

/-- The host changes TSTATE by a write of MSG_LEN while idle or by Reset only. -/
theorem hostExec_tstate (st : HostStmt) (s : State) :
    (hostExec st s).tstate = s.tstate ∨ (∃ d, st = .write 0x00010 4 d ∧ s.busy = false) ∨ st = .reset := by
  cases st with
  | read a n =>
    left
    rw [hostExec, State.setHostPc_tstate, State.setLastRead_tstate, State.busRead_state]
    split <;> rfl
  | write a n d =>
    obtain hsame | ⟨rfl, rfl, hidle⟩ := s.busWrite_tstate a n d
    · exact .inl hsame
    · exact .inr (.inl ⟨d, rfl, hidle⟩)
  | reset => exact .inr (.inr rfl)
  | branch c t => exact .inl rfl
  | halt => exact .inl rfl

theorem State.tick_eq_of_pend {s : State} {p : Pending} (h : s.pend = some p) :
    s.tick = { s with pend := some ⟨p.word, p.delay - 1⟩ } := by rw [State.tick, h]; rfl

/-! ### The lengths of what the commands store -/

@[simp] theorem hmac_length (k s : List Byte) : (hmac k s).length = 20 := by rw [hmac, sha1_length]

theorem addrTLV_length_le (xm : BitVec 16) (x : Bool) (s : State) :
    (addrTLV xm x s).length ≤ 4 + (4 + addrLen s.xaFamily) := by
  have hlen : (addrTLV xm x s).length = 8 + (if x then xorb (addrBytes s s.xaFamily) (xmask s (addrLen s.xaFamily))
      else addrBytes s s.xaFamily).length := by simp [addrTLV]; omega
  have haddr : (addrBytes s s.xaFamily).length ≤ addrLen s.xaFamily := List.length_take_le _ _
  rw [hlen]
  split
  · rw [xorb_length]; omega
  · omega

/-! ### The invariant and the engine's step -/

/-- The part of the invariant a completion takes over from what the command has written: the buffers, and MSG_LEN with
TSTATE. The rest speaks of the STATUS fields the completion itself sets (10_state R60). -/
structure State.DataInv (s : State) : Prop where
  msgWf : Memory.wf Config.bufBytes s.msg
  keyWf : Memory.wf Config.keyBufBytes s.key
  trailerLen : s.tstate ≠ .opened → msgLenOK s
  miLen : s.tstate = .miDone → 44 ≤ s.msgLen.toNat
  fpLen : s.tstate = .fpDone → 28 ≤ s.msgLen.toNat

theorem State.Inv.dataInv {s : State} (h : s.Inv) : s.DataInv := { h with }

theorem State.DataInv.finish {s : State} (h : s.DataInv) (m : Bool) : (s.finish m).Inv :=
  { h with pendClear := by simp [State.busy], errCode := by simp, matchOk := by simp }

theorem State.DataInv.fail {s : State} (h : s.DataInv) {c : ErrCode} (hc : c ≠ .ok) : (s.fail c).Inv :=
  { h with pendClear := by simp [State.busy], errCode := fun _ => hc, matchOk := by simp }

theorem State.DataInv.resetRegs {s : State} (h : s.DataInv) : s.resetRegs.DataInv :=
  { h with trailerLen := by simp, miLen := by simp, fpLen := by simp }

theorem State.DataInv.storeMsg {s : State} (h : s.DataInv) {a : Nat} {bs : List Byte}
    (hfit : a + bs.length ≤ Config.bufBytes) : (s.storeMsg a bs).DataInv :=
  { h with msgWf := Memory.putBytes_wf h.msgWf hfit }

theorem State.DataInv.memWrite {s : State} (h : s.DataInv) {a n : Nat} (v : Nat) (hfit : a + n ≤ Config.bufBytes) :
    (s.memWrite a n v).DataInv := h.storeMsg (by simpa using hfit)

/-- A new TSTATE with a legal MSG_LEN that covers the header and the trailer it tells of. -/
theorem State.DataInv.setMsgLen {s : State} (h : s.DataInv) {n : Nat} {t : TState} (h4 : n % 4 = 0) (hfp : 28 ≤ n)
    (hmax : n ≤ 4096) (hmi : t = .miDone → 44 ≤ n) : (s.setMsgLen (BitVec.ofNat 32 n) t).DataInv := by
  have hnat : (BitVec.ofNat 32 n).toNat = n := by rw [BitVec.toNat_ofNat]; omega
  exact { h with
    trailerLen := fun _ => by simp only [msgLenOK, State.setMsgLen_msgLen, hnat, bufBytes_eq]; omega
    miLen := fun ht => by simpa [hnat] using hmi ht
    fpLen := fun _ => by simpa [hnat] using hfp }

/-- FP.GEN stores inside MSG and adds 8 to a legal MSG_LEN (41_fingerprint R163). -/
theorem State.DataInv.fpGenState {s : State} (h : s.DataInv) (hlen : msgLenOK s) (hfit : s.msgLen.toNat + 8 ≤ 4096) :
    (fpGenState s).DataInv := by
  obtain ⟨hmin, -, h4⟩ := hlen
  have hbuf := bufBytes_eq
  have hfp : (s.setFp (fpValueOf s (s.msgLen.toNat - 20 + 8) s.msgLen.toNat)).DataInv := { h with }
  refine State.DataInv.setMsgLen (State.DataInv.memWrite (State.DataInv.memWrite (State.DataInv.memWrite
    (hfp.memWrite _ ?_) _ ?_) _ ?_) _ (by decide)) ?_ ?_ hfit (by simp)
  all_goals omega

/-- MI.GEN stores inside MSG and adds 24 to a legal MSG_LEN (42_message_integrity R186). -/
theorem State.DataInv.miGenState {s : State} (h : s.DataInv) (hlen : msgLenOK s) (hfit : s.msgLen.toNat + 24 ≤ 4096) :
    (miGenState s).DataInv := by
  obtain ⟨hmin, -, h4⟩ := hlen
  have hbuf := bufBytes_eq
  have hmac : (s.setMac (miGenMac s)).DataInv := { h with }
  have hmacLen : (miGenMac s).length = 20 := hmac_length _ _
  refine State.DataInv.setMsgLen (State.DataInv.memWrite (State.DataInv.storeMsg (State.DataInv.memWrite
    (hmac.memWrite _ ?_) _ ?_) ?_) _ (by decide)) ?_ ?_ hfit ?_
  all_goals omega

theorem cmdResult_ok_dataInv {i : Instr} {s u : State} {m : Bool} (hs : s.DataInv) (h : cmdResult i s = .ok (u, m)) :
    u.DataInv := by
  cases i with
  | nop => cases h; exact hs
  | srst => cases h; exact hs.resetRegs
  | xaMask =>
    obtain ⟨-, -, -, hu⟩ := (xaMask_ok_iff _ s _).mp h
    cases hu
    split <;> exact { hs with }
  | xaEnc x =>
    obtain ⟨⟨-, hmax, -⟩, -, -, ⟨-, -, hfit⟩, hu⟩ := (xaEnc_ok_iff _ x s _).mp h
    cases hu
    have htlv := addrTLV_length_le Config.xportMask x s
    exact hs.storeMsg (by omega)
  | xaDec x =>
    obtain ⟨-, -, -, -, -, -, hu⟩ := (xaDec_ok_iff _ x s _).mp h
    cases hu; exact { hs with }
  | fpGen =>
    obtain ⟨hlen, -, hfit, hu⟩ := (fpGen_ok_iff s _).mp h
    obtain ⟨rfl, -⟩ := Prod.mk.inj hu
    exact hs.fpGenState hlen hfit
  | fpChk =>
    obtain ⟨-, -, hu⟩ := (fpChk_ok_iff s _).mp h
    cases hu; exact { hs with }
  | miGen =>
    obtain ⟨hlen, -, -, hfit, hu⟩ := (miGen_ok_iff s _).mp h
    obtain ⟨rfl, -⟩ := Prod.mk.inj hu
    exact hs.miGenState hlen hfit
  | miChk =>
    obtain ⟨-, -, -, hu⟩ := (miChk_ok_iff s _).mp h
    cases hu; exact { hs with }
  | locate =>
    obtain ⟨-, ⟨pos, -, hu⟩ | ⟨-, hu⟩⟩ := (locate_ok_iff s _).mp h <;> cases hu <;> exact { hs with }

theorem exec_keeps_inv {i : Instr} {s t : State} (hs : s.Inv) (h : exec i s = .next t) : t.Inv := by
  rcases exec_cases h with ⟨u, m, hr, rfl⟩ | ⟨c, hr, rfl⟩
  · exact (cmdResult_ok_dataInv hs.dataInv hr).finish m
  · exact hs.dataInv.fail (cmdResult_error_ne_ok hr)

/-! ### The invariant and the host's statements -/

theorem State.Inv.unlessBusy {s t : State} (hs : s.Inv) (ht : t.Inv) : (s.unlessBusy t).Inv := by
  cases hb : s.busy with
  | false => rwa [State.unlessBusy_idle hb]
  | true => rw [State.unlessBusy_busy hb]; exact { hs with }

theorem State.Inv.issue {s : State} (h : s.Inv) (w : Word) : (s.issue w).Inv :=
  { h with pendClear := by simp, errCode := by simp, matchOk := by simp }

theorem State.Inv.acknowledge {s : State} (h : s.Inv) (d : Word) : (s.acknowledge d).Inv :=
  { h with
    pendClear := fun hb => by
      obtain ⟨hdone, herr, hcode, hmatch⟩ := h.pendClear hb
      simp [hdone, herr, hcode, hmatch]
    errCode := fun herr => h.errCode (Bool.and_eq_true_iff.mp herr).1 }

theorem State.Inv.setMsgLen {s : State} (h : s.Inv) (v : Word) : (s.setMsgLen v .opened).Inv :=
  { h with trailerLen := by simp, miLen := by simp, fpLen := by simp }

theorem State.Inv.writeReg {s : State} (h : s.Inv) (r : Reg) (d : Word) : (s.writeReg r d).Inv := by
  cases r with
  | status => exact h.acknowledge d
  | cmd => exact h.unlessBusy (h.issue d)
  | msgLen => exact h.unlessBusy (h.setMsgLen d)
  | ctrl => exact { h with }
  | id | fpValue | mac0 | mac1 | mac2 | mac3 | mac4 => exact h
  | _ => exact h.unlessBusy { h with }

theorem State.Inv.busWrite {s : State} (h : s.Inv) (addr : BitVec 17) (size : Nat) (d : Word) :
    (s.busWrite addr size d).Inv := by
  rcases s.busWrite_cases addr size d with ⟨-, hw⟩ | ⟨r, -, hw⟩ | ⟨k, hk, hw⟩ | ⟨k, hk, hw⟩ <;> rw [hw]
  · exact { h with }
  · exact h.writeReg r d
  · obtain ⟨-, -, -, hfit⟩ := decodeAccess_key hk
    exact h.unlessBusy { h with keyWf := Memory.putBytes_wf h.keyWf (by simpa using hfit) }
  · obtain ⟨-, -, -, hfit⟩ := decodeAccess_msg hk
    exact h.unlessBusy { h with msgWf := Memory.putBytes_wf h.msgWf (by simpa using hfit) }

theorem State.Inv.busRead {s : State} (h : s.Inv) (addr : BitVec 17) (size : Nat) : (s.busRead addr size).1.Inv := by
  rw [State.busRead_state]
  split
  · exact { h with }
  · exact h

theorem State.Inv.tick {s : State} (h : s.Inv) : s.tick.Inv :=
  { h with pendClear := fun hb => h.pendClear (s.busy_tick ▸ hb) }

theorem State.Inv.setHostPc {s : State} (h : s.Inv) (n : Nat) : (s.setHostPc n).Inv := { h with }

theorem State.Inv.setLastRead {s : State} (h : s.Inv) (v : Word) : (s.setLastRead v).Inv := { h with }

/-- Hardware reset brings the invariant about from any state. -/
theorem State.hwReset_inv (s : State) : s.hwReset.Inv where
  msgWf := Memory.nil_wf _
  keyWf := Memory.nil_wf _
  pendClear := by simp [State.busy]
  errCode := by simp
  matchOk := by simp
  trailerLen := by simp
  miLen := by simp
  fpLen := by simp

theorem State.Inv.hostExec {s : State} (h : s.Inv) (st : HostStmt) : (hostExec st s).Inv := by
  cases st with
  | read a n => exact ((h.busRead a n).setLastRead _).setHostPc _
  | write a n d => exact (h.busWrite a n d).setHostPc _
  | reset => exact s.hwReset_inv.setHostPc _
  | branch c t => exact h.setHostPc _
  | halt => exact h

/-! ### States that differ in KEY alone (10_state R62) -/

/-- The state with other contents of KEY. -/
def State.withKey (s : State) (k : Memory) : State := { s with key := k }

/-- A command's outcome with other contents of KEY in the state it answers. -/
def withKeyResult (k : Memory) (r : Except ErrCode (State × Bool)) : Except ErrCode (State × Bool) :=
  r.map fun p => (p.1.withKey k, p.2)

theorem withKeyResult_ok (k : Memory) (t : State) (m : Bool) : withKeyResult k (.ok (t, m)) = .ok (t.withKey k, m) := rfl

theorem turn_withKey (s : State) (k : Memory) : turn (s.withKey k) = turn s := rfl

theorem locateWalk_withKey (s : State) (k : Memory) (n want fuel pos : Nat) :
    locateWalk (s.withKey k) n want fuel pos = locateWalk s n want fuel pos := by
  induction fuel generalizing pos with
  | zero => rfl
  | succ fuel ih => rw [locateWalk_succ, locateWalk_succ, ih]; rfl

/-- A command other than MI.GEN and MI.CHK neither reads nor writes KEY: pushed into the branches of the command,
`withKeyResult` leaves every check and every write as it was. -/
theorem cmdResult_withKey {i : Instr} (hgen : i ≠ .miGen) (hchk : i ≠ .miChk) (s : State) (k : Memory) :
    cmdResult i (s.withKey k) = withKeyResult k (cmdResult i s) := by
  cases i with
  | nop => rfl
  | srst => rfl
  | xaMask =>
    simp only [cmdResult, xaMask, apply_ite (withKeyResult k), withKeyResult_ok, apply_ite (State.withKey · k)]
    rfl
  | xaEnc x =>
    simp only [cmdResult, xaEnc, apply_ite (withKeyResult k)]
    rfl
  | xaDec x =>
    simp only [cmdResult, xaDec, apply_ite (withKeyResult k)]
    rfl
  | fpGen =>
    simp only [cmdResult, fpGen, apply_ite (withKeyResult k)]
    rfl
  | fpChk =>
    simp only [cmdResult, fpChk, apply_ite (withKeyResult k)]
    rfl
  | miGen => exact absurd rfl hgen
  | miChk => exact absurd rfl hchk
  | locate =>
    have hwalk : locateWalk (s.withKey k) (s.withKey k).msgLen.toNat (s.withKey k).attrType.toNat
        ((s.withKey k).msgLen.toNat / 4) 20 =
        locateWalk s s.msgLen.toNat s.attrType.toNat (s.msgLen.toNat / 4) 20 := locateWalk_withKey s k _ _ _ _
    simp only [cmdResult, locate, apply_ite (withKeyResult k), hwalk]
    cases locateWalk s s.msgLen.toNat s.attrType.toNat (s.msgLen.toNat / 4) 20 <;> rfl

theorem exec_withKey {i : Instr} (hgen : i ≠ .miGen) (hchk : i ≠ .miChk) {s t : State} (h : exec i s = .next t)
    (k : Memory) : exec i (s.withKey k) = .next (t.withKey k) := by
  rw [exec_eq, cmdResult_withKey hgen hchk]
  rcases exec_cases h with ⟨u, m, hr, rfl⟩ | ⟨c, hr, rfl⟩ <;> rw [hr] <;> rfl

theorem State.unlessBusy_withKey {s t t' : State} {k : Memory} (h : t' = t.withKey k) :
    (s.withKey k).unlessBusy t' = (s.unlessBusy t).withKey k := by
  rw [h]
  exact (apply_ite (fun u : State => u.withKey k) (s.busy = true) s.flagDropped t).symm

/-- A write of KEY, performed or dropped, makes no other field depend on KEY. -/
theorem State.unlessBusy_storeKey_withKey (s : State) (k : Memory) (a : Nat) (bs : List Byte) :
    ∃ k', (s.withKey k).unlessBusy ((s.withKey k).storeKey a bs) = (s.unlessBusy (s.storeKey a bs)).withKey k' := by
  cases hb : s.busy with
  | true =>
    have hbk : (s.withKey k).busy = true := hb
    exact ⟨k, by rw [State.unlessBusy_busy hbk, State.unlessBusy_busy hb]; rfl⟩
  | false =>
    have hbk : (s.withKey k).busy = false := hb
    exact ⟨Memory.putBytes k a bs, by rw [State.unlessBusy_idle hbk, State.unlessBusy_idle hb]; rfl⟩

theorem State.writeReg_withKey (s : State) (k : Memory) (r : Reg) (d : Word) :
    (s.withKey k).writeReg r d = (s.writeReg r d).withKey k := by
  cases r with
  | id | ctrl | status | fpValue | mac0 | mac1 | mac2 | mac3 | mac4 => rfl
  | _ => exact State.unlessBusy_withKey rfl

/-- A read of KEY returns 0, and no other read looks at KEY (20_memory R90). -/
theorem State.busRead_withKey (s : State) (k : Memory) (addr : BitVec 17) (size : Nat) :
    (s.withKey k).busRead addr size = ((s.busRead addr size).1.withKey k, (s.busRead addr size).2) := by
  simp only [State.busRead]
  cases decodeAccess addr size with
  | none => rfl
  | some tg => cases tg <;> rfl

theorem State.busWrite_withKey (s : State) (k : Memory) (addr : BitVec 17) (size : Nat) (d : Word) :
    ∃ k', (s.withKey k).busWrite addr size d = (s.busWrite addr size d).withKey k' := by
  simp only [State.busWrite]
  cases decodeAccess addr size with
  | none => exact ⟨k, rfl⟩
  | some tg =>
    cases tg with
    | reg r => exact ⟨k, s.writeReg_withKey k r d⟩
    | key a => exact s.unlessBusy_storeKey_withKey k a (beBytes size d.toNat)
    | msg a => exact ⟨k, State.unlessBusy_withKey rfl⟩

theorem hostExec_withKey (st : HostStmt) (s : State) (k : Memory) :
    ∃ k', hostExec st (s.withKey k) = (hostExec st s).withKey k' := by
  cases st with
  | read a n => exact ⟨k, by rw [hostExec, State.busRead_withKey]; rfl⟩
  | write a n d =>
    obtain ⟨k', hk⟩ := s.busWrite_withKey k a n d
    exact ⟨k', by rw [hostExec, hk]; rfl⟩
  | reset => exact ⟨[], rfl⟩
  | branch c n => exact ⟨k, rfl⟩
  | halt => exact ⟨k, rfl⟩

end Sys2Proof.Machine
end

section
/-! The statements of 10_state, settled. -/

namespace Sys2Proof.Machine

open Sys2Proof

/-- Settles O9, by who moves: a command's writes keep the data part and its completion sets the rest, and each host
statement keeps the whole. -/
theorem stepKeepsInvariant : Obligations.StepKeepsInvariant := by
  intro s t hs hst
  rcases step_cases hst with ⟨w, i, -, -, hex⟩ | ⟨w, e, -, -, rfl⟩ | ⟨st, -, rfl⟩ | ⟨-, rfl⟩
  · exact exec_keeps_inv hs hex
  · exact hs.dataInv.fail (by decide)
  · exact hs.tick.hostExec st
  · exact hs

/-- Settles O12, by who moves: the turn does not look at KEY, nor does any command but the two excluded, and a host
statement carries it over into KEY only. -/
theorem keyReachesOnlyTheMac : Obligations.KeyReachesOnlyTheMac := by
  intro s t k hst hmi
  change ∃ k', step (s.withKey k) = .next (t.withKey k')
  have hturn := turn_withKey s k
  rcases step_cases hst with ⟨w, i, ht, hd, hex⟩ | ⟨w, e, ht, hd, rfl⟩ | ⟨st, ht, rfl⟩ | ⟨ht, rfl⟩ <;> rw [ht] at hturn
  · obtain ⟨hgen, hchk⟩ := hmi w ht
    have hexk := exec_withKey (fun h => hgen (h ▸ hd)) (fun h => hchk (h ▸ hd)) hex k
    exact ⟨k, (step_engine hturn hd).trans hexk⟩
  · exact ⟨k, step_illegal hturn hd⟩
  · obtain ⟨k', hk⟩ := hostExec_withKey st s.tick k
    exact ⟨k', (step_host hturn).trans (congrArg _ hk)⟩
  · exact ⟨k, step_idle hturn⟩

/-- Settles O10, by the host's statement and the five things a write can do while BUSY (`State.busWrite_busy`). -/
theorem busyFreezesInputs : Obligations.BusyFreezesInputs := by
  intro s t p st hp ht hne hst
  rw [step_host ht] at hst
  injection hst with hst
  subst hst
  have htick := State.tick_eq_of_pend hp
  have hb : s.tick.busy = true := by rw [htick]; rfl
  rw [hostTurn]
  cases st with
  | read a n =>
    rw [hostExec, State.busRead_state, htick]
    split <;> rfl
  | write a n d =>
    rw [hostExec]
    rcases s.tick.busWrite_busy hb a n d with h | h | h | h | h <;> rw [h, htick] <;> rfl
  | reset => exact absurd rfl hne
  | branch c n => rw [htick]; rfl
  | halt => rw [htick]; rfl

/-- Settles O11, by who moves. -/
theorem trailerStateWriters : Obligations.TrailerStateWriters := by
  intro s t hst hne
  rcases step_cases hst with ⟨w, i, ht, hd, hex⟩ | ⟨w, e, -, -, rfl⟩ | ⟨st, ht, rfl⟩ | ⟨-, rfl⟩
  · rcases exec_cases hex with ⟨u, m, hr, rfl⟩ | ⟨c, -, rfl⟩
    · obtain ⟨hsame | hi, -, -⟩ := cmdResult_ok_writers hr
      · exact absurd hsame hne
      · exact .inl ⟨w, i, ht, hd, hi⟩
    · exact absurd rfl hne
  · exact absurd rfl hne
  · obtain hsame | ⟨d, rfl, hidle⟩ | rfl := hostExec_tstate st s.tick
    · exact absurd hsame hne
    · exact .inr (.inl ⟨d, ht, s.busy_tick ▸ hidle⟩)
    · exact .inr (.inr ht)
  · exact absurd rfl hne

/-- Settles O13, by the two ways a command completes. -/
theorem everyCommandCompletes : Obligations.EveryCommandCompletes := by
  refine ⟨fun i s _ => ⟨_, exec_eq i s, ?_⟩, fun _ _ => rfl, fun _ _ => rfl⟩
  rcases s.complete_cases (cmdResult i s) with ⟨u, m, -, hc⟩ | ⟨c, hr, hc⟩ <;> rw [hc]
  · exact ⟨rfl, rfl, by simp [ErrCode.code], by simp⟩
  · have hcode : c.code ≠ 0x00 := fun h => cmdResult_error_ne_ok hr (c.code_eq_zero_iff.mp h)
    exact ⟨rfl, rfl, iff_of_true rfl hcode, fun _ => rfl⟩

/-- Settles O19: a success ends without error, and a failure writes neither. -/
theorem resultRegisterWriters : Obligations.ResultRegisterWriters := by
  intro i s t hex
  rcases exec_cases hex with ⟨u, m, hr, rfl⟩ | ⟨c, -, rfl⟩
  · obtain ⟨-, hfp, hmac⟩ := cmdResult_ok_writers hr
    exact ⟨fun hne => ⟨rfl, hfp.resolve_left hne⟩, fun hne => ⟨rfl, hmac.resolve_left hne⟩⟩
  · exact ⟨fun hne => absurd rfl hne, fun hne => absurd (SameMac.refl s) hne⟩

/-- Settles O45: each clause is `writeReg` followed by `readReg` of one register. -/
theorem registerReadBack : Obligations.RegisterReadBack := by
  intro s d hidle
  have readBack (r : Reg) {t : State} {v : Word} (ht : s.writeReg r d = s.unlessBusy t) (hv : t.readReg r = v) :
      ((s.busWrite (BitVec.ofNat 17 r.offset) 4 d).busRead (BitVec.ofNat 17 r.offset) 4).2 = v := by
    rw [State.busRead_busWrite_offset, ht, State.unlessBusy_idle hidle, hv]
  refine ⟨(s.busRead_busWrite_offset .ctrl d).trans (bitAt_zero_getLsbD_zero d), readBack .msgLen rfl rfl, ?_,
    readBack .attrType rfl (setWidth_setWidth_eq_and 16 d), readBack .attrOff rfl rfl, readBack .keyLen rfl rfl,
    readBack .xaFamily rfl (setWidth_setWidth_eq_and 8 d), readBack .xaPort rfl rfl, readBack .xaAddr0 rfl rfl,
    readBack .xaAddr1 rfl rfl, readBack .xaAddr2 rfl rfl, readBack .xaAddr3 rfl rfl, readBack .xaOff rfl rfl⟩
  have h : s.busWrite 0x00010 4 d = s.unlessBusy (s.setMsgLen d .opened) := s.busWrite_offset .msgLen d
  rw [h, State.unlessBusy_idle hidle, State.setMsgLen_tstate]

/-- Settles O49, by the target of the write. -/
theorem busyDropsWrites : Obligations.BusyDropsWrites := by
  intro s addr size d hb
  have dropped (t : State) : s.unlessBusy t = { s with werr := true } := State.unlessBusy_busy hb t
  refine ⟨fun r hr => ?_, fun k hk => ?_, fun k hk => ?_⟩
  · rw [State.busWrite_reg hr]
    refine ⟨?_, ?_, ?_, ?_⟩
    · rintro (rfl | rfl | rfl | rfl | rfl | rfl | rfl | rfl | rfl | rfl | rfl | rfl) <;> exact dropped _
    · rintro rfl; rfl
    · rintro rfl; rfl
    · rintro (rfl | rfl | rfl | rfl | rfl | rfl | rfl) <;> rfl
  · simp only [State.busWrite, hk, dropped]
  · simp only [State.busWrite, hk, dropped]

/-- Settles O51: STATUS bit by bit (`State.getLsbD_status`), and the two tables of numbers. -/
theorem statusLayout : Obligations.StatusLayout := by
  refine ⟨fun s => ?_, rfl, rfl, rfl, rfl, rfl, rfl, rfl, rfl, rfl, rfl, rfl, rfl, rfl, rfl, rfl, rfl⟩
  have bit {i : Nat} (hi : i < 8) := s.getLsbD_status (i := i) (by omega)
  refine ⟨(bit (by decide)).trans ?_, (bit (by decide)).trans ?_, (bit (by decide)).trans ?_,
    (bit (by decide)).trans ?_, (bit (by decide)).trans ?_, (bit (by decide)).trans ?_, s.status_bits_6_7,
    s.status_errcode, s.status_tstate, s.status_bits_18_31, s.status_tstate ▸ s.tstate.code_ne_three,
    s.status_errcode ▸ s.errcode.code_le, rfl⟩ <;> simp

/-- Settles O47: at each of the seven offsets `writeReg` leaves the state. -/
theorem readOnlyRegistersIgnoreWrites : Obligations.ReadOnlyRegistersIgnoreWrites := by
  intro s d
  refine ⟨fun addr size r hr hro => ?_, s.busWrite_offset .id d, s.busWrite_offset .fpValue d, s.busWrite_offset .mac0 d,
    s.busWrite_offset .mac1 d, s.busWrite_offset .mac2 d, s.busWrite_offset .mac3 d, s.busWrite_offset .mac4 d,
    s.busRead_offset .id, s.busRead_offset .cmd⟩
  rw [State.busWrite_reg hr]
  rcases hro with rfl | rfl | rfl | rfl | rfl | rfl | rfl <;> rfl

/-- Settles O48: the write is the acknowledgement. -/
theorem statusWriteOneToClear : Obligations.StatusWriteOneToClear := by
  intro s d
  have clears (x b : Bool) : (x && !b) = if b then false else x := by cases b <;> simp
  have h : s.busWrite 0x00008 4 d = s.acknowledge d := s.busWrite_offset .status d
  simp only [h, State.acknowledge, clears]

/-- Settles O50: the write is the issue, with the head of the latencies. -/
theorem issueLatchesCommand : Obligations.IssueLatchesCommand := by
  intro s w hidle
  have h : s.busWrite 0x0000C 4 w = s.unlessBusy (s.issue w) := s.busWrite_offset .cmd w
  rw [h, State.unlessBusy_idle hidle]
  exact ⟨nextLatency s.latencies, rfl, fun h => by rw [h]; rfl, fun m ms h => by rw [h]; rfl⟩

end Sys2Proof.Machine
end

section
/-! SUPPORT. The laws behind the statements about memory: the address map as equivalences, what an access of each target
does, and the bytes of MSG and KEY after a store. -/

namespace Sys2Proof.Machine

open Sys2Proof

/-! ### The address map (20_memory R80 to R84) -/

/-- Only a 4-byte access at a register's own offset reaches it (20_memory R81). -/
theorem decodeAccess_eq_reg_iff (addr : BitVec 17) (size : Nat) (r : Reg) :
    decodeAccess addr size = some (.reg r) ↔ size = 4 ∧ addr.toNat = r.offset := by
  refine ⟨decodeAccess_reg, fun ⟨hsize, haddr⟩ => ?_⟩
  have hoffset : addr = BitVec.ofNat 17 r.offset := by rw [← haddr, BitVec.ofNat_toNat, BitVec.setWidth_eq]
  rw [hsize, hoffset]
  exact decodeAccess_offset r

/-- An access inside the key buffer meets every check of the map, and the buffer ends before the region does (20_memory
R82). -/
theorem decodeAccess_eq_key_iff (addr : BitVec 17) (size k : Nat) :
    decodeAccess addr size = some (.key k) ↔
      (size = 1 ∨ size = 2 ∨ size = 4) ∧ addr.toNat % size = 0 ∧ addr.toNat = 0x400 + k ∧ k + size ≤ 128 := by
  refine ⟨decodeAccess_key, fun ⟨hsize, halign, haddr, hfit⟩ => ?_⟩
  have hlegal : size ≠ 1 → size ≠ 2 → size = 4 := by omega
  have hreg : ¬ addr.toNat < 0x100 := by omega
  have hregion : 0x400 ≤ addr.toNat ∧ addr.toNat < 0x800 := by omega
  have hend : addr.toNat + size ≤ 0x480 := by omega
  have hindex : addr.toNat - 0x400 = k := by omega
  simpa [decodeAccess, halign, hreg, hregion, hend, hindex] using hlegal

/-- An access inside the message buffer meets every check of the map (20_memory R83). -/
theorem decodeAccess_eq_msg_iff (addr : BitVec 17) (size k : Nat) :
    decodeAccess addr size = some (.msg k) ↔
      (size = 1 ∨ size = 2 ∨ size = 4) ∧ addr.toNat % size = 0 ∧ addr.toNat = 0x10000 + k ∧ k + size ≤ 4096 := by
  refine ⟨decodeAccess_msg, fun ⟨hsize, halign, haddr, hfit⟩ => ?_⟩
  have hlegal : size ≠ 1 → size ≠ 2 → size = 4 := by omega
  have hreg : ¬ addr.toNat < 0x100 := by omega
  have hkey : ¬ addr.toNat < 0x800 := by omega
  have hregion : 0x10000 ≤ addr.toNat := by omega
  have hend : addr.toNat + size ≤ 0x11000 := by omega
  have hindex : addr.toNat - 0x10000 = k := by omega
  simpa [decodeAccess, halign, hreg, hkey, hregion, hend, hindex] using hlegal

/-! ### What an access of each target does (20_memory R85, R87, R88, R90) -/

section
variable {addr : BitVec 17} {size : Nat} (s : State)

theorem State.busRead_undecoded (h : decodeAccess addr size = none) : s.busRead addr size = (s.flagAccess, 0) := by
  rw [State.busRead, h]

theorem State.busRead_reg {r : Reg} (h : decodeAccess addr size = some (.reg r)) :
    s.busRead addr size = (s, s.readReg r) := by rw [State.busRead, h]

theorem State.busRead_key {k : Nat} (h : decodeAccess addr size = some (.key k)) : s.busRead addr size = (s, 0) := by
  rw [State.busRead, h]

theorem State.busRead_msg {k : Nat} (h : decodeAccess addr size = some (.msg k)) :
    s.busRead addr size = (s, BitVec.ofNat 32 (s.memRead k size)) := by rw [State.busRead, h]

theorem State.busWrite_undecoded (h : decodeAccess addr size = none) (d : Word) :
    s.busWrite addr size d = s.flagAccess := by rw [State.busWrite, h]

theorem State.busWrite_key_idle {k : Nat} (h : decodeAccess addr size = some (.key k))
    (hidle : s.busy = false) (d : Word) : s.busWrite addr size d = s.storeKey k (beBytes size d.toNat) := by
  rw [State.busWrite, h]
  exact State.unlessBusy_idle hidle _

theorem State.busWrite_msg_idle {k : Nat} (h : decodeAccess addr size = some (.msg k))
    (hidle : s.busy = false) (d : Word) : s.busWrite addr size d = s.memWrite k size d.toNat := by
  rw [State.busWrite, h]
  exact State.unlessBusy_idle hidle _

/-- The value of at most four bytes fits the data bits, so a read of MSG returns all of it. -/
theorem State.toNat_busRead_msg {k : Nat} (h : decodeAccess addr size = some (.msg k)) :
    (s.busRead addr size).2.toNat = s.memRead k size := by
  obtain ⟨hsize, -⟩ := decodeAccess_msg h
  have hle : size ≤ 4 := by omega
  have hlt : s.memRead k size < 256 ^ 4 := (s.memRead_lt k size).trans_le (Nat.pow_le_pow_right (by decide) hle)
  rw [s.busRead_msg h, BitVec.toNat_ofNat]
  exact Nat.mod_eq_of_lt hlt

end

/-- A decoded write of an operand register while idle is performed (10_state R58). -/
theorem State.busWrite_offset_idle {s t : State} {r : Reg} {d : Word} (hidle : s.busy = false)
    (h : s.writeReg r d = s.unlessBusy t) : s.busWrite (BitVec.ofNat 17 r.offset) 4 d = t := by
  rw [State.busWrite_offset, h, State.unlessBusy_idle hidle]

/-! ### Bytes read and stored -/

theorem State.memRead_one (s : State) (a : Nat) : s.memRead a 1 = (s.msgAt a).toNat := by
  rw [State.memRead_succ, State.memRead_zero, Nat.zero_mul, Nat.zero_add, Nat.add_zero]

theorem State.memRead_two (s : State) (a : Nat) :
    s.memRead a 2 = (s.msgAt a).toNat * 2 ^ 8 + (s.msgAt (a + 1)).toNat := by
  rw [State.memRead_succ, State.memRead_one]; rfl

theorem State.memRead_four (s : State) (a : Nat) :
    s.memRead a 4 = (s.msgAt a).toNat * 2 ^ 24 + (s.msgAt (a + 1)).toNat * 2 ^ 16 + (s.msgAt (a + 2)).toNat * 2 ^ 8 +
      (s.msgAt (a + 3)).toNat := by
  rw [State.memRead_succ, State.memRead_succ, State.memRead_two]
  omega

/-- Byte i of the low n bytes of a word, in network order (00_scope R16). -/
theorem getD_beBytes_toNat (d : Word) {n i : Nat} (h : i < n) :
    (beBytes n d.toNat).getD i 0 = d.extractLsb' (8 * (n - 1 - i)) 8 := by
  apply BitVec.eq_of_toNat_eq
  rw [toNat_getD_beBytes _ h, BitVec.extractLsb'_toNat, Nat.shiftRight_eq_div_pow]

/-- KEY after a store: the stored bytes where they went, the old bytes elsewhere. -/
theorem State.keyAt_storeKey (s : State) (k x : Nat) (bs : List Byte) :
    (s.storeKey k bs).keyAt x = if k ≤ x then (bs[x - k]?).getD (s.keyAt x) else s.keyAt x := by
  rw [State.keyAt, State.storeKey_key, State.storeKey_resets, Memory.find_putBytes]
  split
  · rw [State.keyAt]
    cases bs[x - k]? <;> simp
  · rfl

theorem State.keyAt_storeKey_inside (s : State) {k i : Nat} {bs : List Byte} (h : i < bs.length) :
    (s.storeKey k bs).keyAt (k + i) = bs.getD i 0 := by
  rw [State.keyAt_storeKey, if_pos (Nat.le_add_right k i), Nat.add_sub_cancel_left, List.getElem?_eq_getElem h,
    List.getD_eq_getElem _ _ h, Option.getD_some]

theorem State.keyAt_storeKey_outside (s : State) {k x : Nat} {bs : List Byte} (h : x < k ∨ k + bs.length ≤ x) :
    (s.storeKey k bs).keyAt x = s.keyAt x := by
  rw [State.keyAt_storeKey]
  split
  · rw [List.getElem?_eq_none (by omega)]; rfl
  · rfl

/-! ### What a register write leaves as it was (10_state R40 to R58) -/

theorem State.readReg_unlessBusy {s t : State} {q : Reg} (hq : q ≠ .status) (h : t.readReg q = s.readReg q) :
    (s.unlessBusy t).readReg q = s.readReg q := by
  cases hb : s.busy with
  | false => rwa [State.unlessBusy_idle hb]
  | true =>
    rw [State.unlessBusy_busy hb]
    cases q with
    | status => exact absurd rfl hq
    | _ => rfl

/-- By the register written: the read-only ones leave the state, STATUS and CTRL have their own write, the others a write
that BUSY drops. In each the register read is one of the two excluded or reads a field that was not written. -/
theorem State.readReg_writeReg_ne (s : State) {r q : Reg} (d : Word) (hne : q ≠ r) (hq : q ≠ .status) :
    (s.writeReg r d).readReg q = s.readReg q := by
  cases r with
  | id | fpValue | mac0 | mac1 | mac2 | mac3 | mac4 => rfl
  | ctrl | status => cases q <;> trivial
  | _ => exact State.readReg_unlessBusy hq (by cases q <;> trivial)

end Sys2Proof.Machine
end

section
/-! The statements of 20_memory, settled. -/

namespace Sys2Proof.Machine

open Sys2Proof

/-- Settles O41: the three equivalences of the address map. -/
theorem decodedAccesses : Obligations.DecodedAccesses := fun addr size =>
  ⟨decodeAccess_eq_reg_iff addr size, decodeAccess_eq_key_iff addr size, decodeAccess_eq_msg_iff addr size⟩

/-- Settles O42. -/
theorem undecodedAccessSetsAerr : Obligations.UndecodedAccessSetsAerr := fun s _ _ d h =>
  ⟨s.busRead_undecoded h, s.busWrite_undecoded h d⟩

/-- Settles O43, by the target of the read, and register by register. -/
theorem decodedReads : Obligations.DecodedReads := by
  refine ⟨fun s addr size tg h => ⟨?_, ?_, ?_, ?_⟩, fun s => ?_⟩
  · rw [State.busRead_state, h]; rfl
  · rintro r rfl
    rw [s.busRead_reg h]
  · rintro k rfl
    rw [s.busRead_key h]
  · rintro k rfl
    rw [s.toNat_busRead_msg h]
    refine ⟨?_, ?_, ?_⟩ <;> rintro rfl
    · exact s.memRead_four k
    · exact s.memRead_two k
    · exact s.memRead_one k
  · exact ⟨s.busRead_offset .id, s.busRead_offset .ctrl, s.busRead_offset .status, s.busRead_offset .cmd,
      s.busRead_offset .msgLen, s.busRead_offset .attrType, s.busRead_offset .attrOff, s.busRead_offset .keyLen,
      s.busRead_offset .xaFamily, s.busRead_offset .xaPort, s.busRead_offset .xaAddr0, s.busRead_offset .xaAddr1,
      s.busRead_offset .xaAddr2, s.busRead_offset .xaAddr3, s.busRead_offset .xaOff, s.busRead_offset .fpValue,
      s.busRead_offset .mac0, s.busRead_offset .mac1, s.busRead_offset .mac2, s.busRead_offset .mac3,
      s.busRead_offset .mac4⟩

/-- Settles O44: an idle write is the store of the bytes of its low 8n bits. -/
theorem bufferWrites : Obligations.BufferWrites := by
  intro s addr size k d hidle
  constructor <;> intro h
  · rw [s.busWrite_msg_idle h hidle]
    refine ⟨rfl, fun i hi => ?_, fun a ha => s.msgAt_memWrite_outside ha, ?_⟩
    · rw [s.msgAt_memWrite_inside hi, getD_beBytes_toNat d hi]
    · rw [State.toNat_busRead_msg _ h, State.memRead_memWrite, two_pow_eight_mul]
  · rw [s.busWrite_key_idle h hidle]
    refine ⟨rfl, fun i hi => ?_, fun a ha => s.keyAt_storeKey_outside (by simpa using ha)⟩
    rw [s.keyAt_storeKey_inside (by simpa using hi), getD_beBytes_toNat d hi]

/-- Settles O46: the frame of `writeReg`, and each offset's write as its one field. -/
theorem registerWriteFrame : Obligations.RegisterWriteFrame := by
  refine ⟨fun s _ _ d _ h => State.busWrite_reg h s d, fun s _ _ d hne hq => s.readReg_writeReg_ne d hne hq,
    fun s d => s.busWrite_offset .ctrl d, fun s d hidle => ?_⟩
  have write (r : Reg) {t : State} (h : s.writeReg r d = s.unlessBusy t) :
      s.busWrite (BitVec.ofNat 17 r.offset) 4 d = t := State.busWrite_offset_idle hidle h
  have low16 : d.setWidth 16 = d.extractLsb' 0 16 := BitVec.setWidth_eq_extractLsb' (by decide)
  have low8 : d.setWidth 8 = d.extractLsb' 0 8 := BitVec.setWidth_eq_extractLsb' (by decide)
  exact ⟨write .msgLen rfl, low16 ▸ write .attrType rfl, write .attrOff rfl, write .keyLen rfl,
    low8 ▸ write .xaFamily rfl, write .xaPort rfl, write .xaAddr0 rfl, write .xaAddr1 rfl, write .xaAddr2 rfl,
    write .xaAddr3 rfl, write .xaOff rfl⟩

end Sys2Proof.Machine
end

section
/-! SUPPORT. The laws behind the encoding's statements: the rows of the opcode table as words, decoding as the inverse of
encoding, the place of the length check, and which bytes of MSG the storing commands reach. -/

namespace Sys2Proof

/-! ### Masks (30_encoding R110, R112) -/

/-- X as a word: bit 8, and no other. -/
def xWord (x : Bool) : Word := if x then 0x100 else 0

theorem and_fullMask (w : Word) : w &&& 0xFFFFFFFF = w := BitVec.and_allOnes

/-- A word is what the mask of XA.ENC and XA.DEC keeps of it, and its X. -/
theorem eq_masked_or_xWord (w : Word) : w = (w &&& 0xFFFFFEFF) ||| xWord (w.getLsbD 8) := by
  have hx : w &&& 0x100 = xWord (w.getLsbD 8) := BitVec.and_twoPow w 8
  rw [← hx, ← BitVec.and_or_distrib_left]
  exact (and_fullMask w).symm

/-- A pattern under the mask that leaves X free, and the value of X, stand for one word. -/
theorem and_mask_eq_iff {p : Word} (hp : p &&& 0xFFFFFEFF = p) (w : Word) (x : Bool) :
    w &&& 0xFFFFFEFF = p ∧ w.getLsbD 8 = x ↔ w = p ||| xWord x := by
  constructor
  · rintro ⟨rfl, rfl⟩
    exact eq_masked_or_xWord w
  · rintro rfl
    have hx : xWord x &&& 0xFFFFFEFF = 0 ∧ (xWord x).getLsbD 8 = x := by cases x <;> decide
    have hp8 : p.getLsbD 8 = false := by rw [← hp, BitVec.getLsbD_and]; exact Bool.and_false (p.getLsbD 8)
    constructor
    · rw [BitVec.and_or_distrib_right, hp, hx.1]; exact BitVec.or_zero
    · rw [BitVec.getLsbD_or, hp8, hx.2, Bool.false_or]

/-! ### Decoding and encoding (30_encoding R111, R112) -/

theorem decode_encode (i : Instr) : decode (encode i) = .ok i := by
  cases i with
  | xaEnc x | xaDec x => cases x <;> decide
  | _ => decide

/-- The two kinds of row: one whose mask takes every bit, and whose command has the pattern as its word; and one whose
mask leaves X free, and whose command has the pattern and X. -/
theorem OpRow.mask_cases {r : OpRow} (hr : r ∈ opTable) :
    (r.mask = 0xFFFFFFFF ∧ ∀ x, encode (r.build x) = r.pattern) ∨
      (r.mask = 0xFFFFFEFF ∧ ∀ x, encode (r.build x) = r.pattern ||| xWord x) := by
  revert r
  decide

/-- A row selects no word but those of its commands. -/
theorem OpRow.eq_encode_of_selects {r : OpRow} (hr : r ∈ opTable) {w : Word} (h : r.selects w = true) :
    w = encode (r.build (w.getLsbD 8)) := by
  have h : w &&& r.mask = r.pattern := eq_of_beq h
  rcases OpRow.mask_cases hr with ⟨hmask, henc⟩ | ⟨hmask, henc⟩ <;> rw [hmask] at h <;> rw [henc, ← h]
  · exact (and_fullMask w).symm
  · exact eq_masked_or_xWord w

theorem decode_eq_ok_iff (w : Word) (i : Instr) : decode w = .ok i ↔ w = encode i := by
  constructor
  · intro h
    rw [decode] at h
    split at h
    · next r hr =>
      cases h
      have hsel := List.find?_some hr
      exact OpRow.eq_encode_of_selects (List.mem_of_find?_eq_some hr) hsel
    · cases h
  · rintro rfl
    exact decode_encode i

/-- A command without X has the one word its row's pattern is. -/
theorem decode_eq_ok_iff_masked {i : Instr} {p : Word} (hp : encode i = p) (w : Word) :
    decode w = .ok i ↔ w &&& 0xFFFFFFFF = p := by rw [and_fullMask, decode_eq_ok_iff, hp]

/-- A command with X has the word of its row's pattern and its X. -/
theorem decode_eq_ok_iff_masked_x {i : Bool → Instr} {p : Word} (hi : ∀ x, encode (i x) = p ||| xWord x)
    (hp : p &&& 0xFFFFFEFF = p) (w : Word) (x : Bool) :
    decode w = .ok (i x) ↔ w &&& 0xFFFFFEFF = p ∧ w.getLsbD 8 = x := by
  rw [and_mask_eq_iff hp, decode_eq_ok_iff, hi]

end Sys2Proof

namespace Sys2Proof.Machine

open Sys2Proof

/-! ### The length check comes first (30_encoding R125) -/

theorem cmdResult_of_not_msgLenOK {i : Instr} {s : State} (hnop : i ≠ .nop) (hsrst : i ≠ .srst) (h : ¬ msgLenOK s) :
    cmdResult i s = .error .badlen := by
  cases i with
  | nop => exact absurd rfl hnop
  | srst => exact absurd rfl hsrst
  | _ => exact if_pos h

/-! ### The bytes of MSG the storing commands reach (30_encoding R117) -/

@[simp] theorem State.msgAt_finish (s : State) (m : Bool) (a : Nat) : (s.finish m).msgAt a = s.msgAt a := rfl

@[simp] theorem State.msgAt_setMsgLen (s : State) (v : Word) (t : TState) (a : Nat) :
    (s.setMsgLen v t).msgAt a = s.msgAt a := rfl

@[simp] theorem State.msgAt_setFp (s : State) (v : Word) (a : Nat) : (s.setFp v).msgAt a = s.msgAt a := rfl

@[simp] theorem State.msgAt_setMac (s : State) (h : List Byte) (a : Nat) : (s.setMac h).msgAt a = s.msgAt a := rfl

/-- FP.GEN stores in the header's length field and in the 8 bytes of its trailer (41_fingerprint R163). -/
theorem msgAt_fpGenState_outside (s : State) {a : Nat} (h2 : a ≠ 2) (h3 : a ≠ 3)
    (ha : a < s.msgLen.toNat ∨ s.msgLen.toNat + 8 ≤ a) : (fpGenState s).msgAt a = s.msgAt a := by
  simp (disch := omega) only [fpGenState, State.msgAt_setMsgLen, State.msgAt_memWrite_outside, State.msgAt_setFp]

/-- MI.GEN stores in the header's length field and in the 24 bytes of its trailer (42_message_integrity R186). -/
theorem msgAt_miGenState_outside (s : State) {a : Nat} (h2 : a ≠ 2) (h3 : a ≠ 3)
    (ha : a < s.msgLen.toNat ∨ s.msgLen.toNat + 24 ≤ a) : (miGenState s).msgAt a = s.msgAt a := by
  have hmac : (miGenMac s).length = 20 := hmac_length _ _
  simp (disch := omega) only [miGenState, State.msgAt_setMsgLen, State.msgAt_memWrite_outside,
    State.msgAt_storeMsg_outside, State.msgAt_setMac]

/-! ### What else the generators write (30_encoding R117) -/

theorem fpGenState_frame (s : State) :
    fpGenState s = { s with
      fpValue := (fpGenState s).fpValue, msgLen := (fpGenState s).msgLen, tstate := (fpGenState s).tstate,
      msg := (fpGenState s).msg } := by
  simp only [fpGenState, State.setMsgLen, State.memWrite, State.storeMsg, State.setFp]

theorem miGenState_frame (s : State) :
    miGenState s = { s with
      mac0 := (miGenState s).mac0, mac1 := (miGenState s).mac1, mac2 := (miGenState s).mac2,
      mac3 := (miGenState s).mac3, mac4 := (miGenState s).mac4, msgLen := (miGenState s).msgLen,
      tstate := (miGenState s).tstate, msg := (miGenState s).msg } := by
  simp only [miGenState, State.setMsgLen, State.memWrite, State.storeMsg, State.setMac]

end Sys2Proof.Machine
end

section
/-! The statements of 30_encoding, settled. -/

namespace Sys2Proof.Machine

open Sys2Proof

/-- Settles O2: a command's own word decodes to it, and the row that selects a word fixes all its bits but X. -/
theorem decodeInvertsEncode : Obligations.DecodeInvertsEncode := fun w i _ => decode_eq_ok_iff w i

/-- Settles O3: decoding is the inverse of encoding, and a row's match and mask stand for the words of its commands. -/
theorem matchAndMaskSelectCommands : Obligations.MatchAndMaskSelectCommands := fun w =>
  ⟨decode_eq_ok_iff_masked (by decide) w, decode_eq_ok_iff_masked (by decide) w, decode_eq_ok_iff_masked (by decide) w,
    decode_eq_ok_iff_masked_x (by decide) (by decide) w, decode_eq_ok_iff_masked_x (by decide) (by decide) w,
    decode_eq_ok_iff_masked (by decide) w, decode_eq_ok_iff_masked (by decide) w,
    decode_eq_ok_iff_masked (by decide) w, decode_eq_ok_iff_masked (by decide) w,
    decode_eq_ok_iff_masked (by decide) w⟩

/-- Settles O15: the length check is the first of every command that has one, and an error changes STATUS alone. -/
theorem badLengthFailsFirst : Obligations.BadLengthFailsFirst := by
  intro i s hnop hsrst h
  rw [exec_eq, cmdResult_of_not_msgLenOK hnop hsrst h]
  rfl

/-- Settles O17: an error changes STATUS alone, and a success writes what the command's law says. -/
theorem registerCommandsFrame : Obligations.RegisterCommandsFrame := by
  intro s t
  refine ⟨fun h => ?nop, fun h => ?xaMask, fun x h => ?xaDec, fun h => ?fpChk, fun h => ?miChk, fun h => ?locate⟩ <;>
    obtain ⟨u, m, hr, rfl⟩ | ⟨c, -, rfl⟩ := exec_cases h
  case nop.inl => cases hr; rfl
  case xaMask.inl =>
    obtain ⟨-, -, -, hu⟩ := (xaMask_ok_iff _ s _).mp hr
    cases hu
    refine ⟨?_, fun hfam => ?_⟩
    · split <;> rfl
    · rw [if_pos hfam]; exact ⟨rfl, rfl, rfl⟩
  case xaDec.inl =>
    obtain ⟨-, -, -, -, -, -, hu⟩ := (xaDec_ok_iff _ x s _).mp hr
    cases hu; rfl
  case fpChk.inl =>
    obtain ⟨-, -, hu⟩ := (fpChk_ok_iff s _).mp hr
    cases hu; rfl
  case miChk.inl =>
    obtain ⟨-, -, -, hu⟩ := (miChk_ok_iff s _).mp hr
    cases hu; rfl
  case locate.inl =>
    obtain ⟨-, ⟨pos, -, hu⟩ | ⟨-, hu⟩⟩ := (locate_ok_iff s _).mp hr <;> cases hu
    · exact ⟨rfl, nofun⟩
    · exact ⟨rfl, fun _ => rfl⟩
  case xaMask.inr => exact ⟨rfl, fun _ => ⟨rfl, rfl, rfl⟩⟩
  case locate.inr => exact ⟨rfl, fun _ => rfl⟩
  all_goals rfl

/-- Settles O18: an error stores nothing, and a success stores in the bytes its law names. -/
theorem storingCommandsFrame : Obligations.StoringCommandsFrame := by
  intro s t
  refine ⟨fun x h => ?xaEnc, fun h => ?fpGen, fun h => ?miGen⟩ <;>
    obtain ⟨u, m, hr, rfl⟩ | ⟨c, -, rfl⟩ := exec_cases h
  case xaEnc.inl =>
    obtain ⟨-, -, -, -, hu⟩ := (xaEnc_ok_iff _ x s _).mp hr
    cases hu
    have hlen := addrTLV_length_le Config.xportMask x s
    refine ⟨rfl, fun a ha => ?_⟩
    rw [State.msgAt_finish, State.msgAt_storeMsg_outside s (by omega)]
  case fpGen.inl =>
    obtain ⟨-, -, -, hu⟩ := (fpGen_ok_iff s _).mp hr
    obtain ⟨rfl, rfl⟩ := Prod.mk.inj hu
    refine ⟨congrArg (·.finish false) (fpGenState_frame s), fun a h2 h3 ha => ?_⟩
    rw [State.msgAt_finish, msgAt_fpGenState_outside s h2 h3 ha]
  case miGen.inl =>
    obtain ⟨-, -, -, -, hu⟩ := (miGen_ok_iff s _).mp hr
    obtain ⟨rfl, rfl⟩ := Prod.mk.inj hu
    refine ⟨congrArg (·.finish false) (miGenState_frame s), fun a h2 h3 ha => ?_⟩
    rw [State.msgAt_finish, msgAt_miGenState_outside s h2 h3 ha]
  case xaEnc.inr => exact ⟨rfl, fun _ _ => rfl⟩
  case fpGen.inr | miGen.inr => exact ⟨rfl, fun _ _ _ _ => rfl⟩

/-- Settles O16: each command but SRST keeps the narrower frame of O17 or O18. -/
theorem commandFrame : Obligations.CommandFrame := by
  intro i s t hne h
  obtain ⟨hnop, hmask, hdec, hfpChk, hmiChk, hlocate⟩ := registerCommandsFrame s t
  obtain ⟨henc, hfpGen, hmiGen⟩ := storingCommandsFrame s t
  cases i with
  | nop => rw [hnop h]
  | srst => exact absurd rfl hne
  | xaMask => rw [(hmask h).1]
  | xaEnc x => rw [(henc x h).1]
  | xaDec x => rw [hdec x h]
  | fpGen => rw [(hfpGen h).1]
  | fpChk => rw [hfpChk h]
  | miGen => rw [(hmiGen h).1]
  | miChk => rw [hmiChk h]
  | locate => rw [(hlocate h).1]

/-- Settles O1: each of the twelve words is the word of its command. -/
theorem legalWordsDecode : Obligations.LegalWordsDecode :=
  ⟨decode_encode .nop, decode_encode .srst, decode_encode .xaMask, decode_encode (.xaEnc false),
    decode_encode (.xaEnc true), decode_encode (.xaDec false), decode_encode (.xaDec true), decode_encode .fpGen,
    decode_encode .fpChk, decode_encode .miGen, decode_encode .miChk, decode_encode .locate,
    fun i => by cases i <;> rfl⟩

end Sys2Proof.Machine
end

section
/-! SUPPORT. The laws behind the masker's statements: a byte string that stands in MSG and its parts, the mask of a variant
on a word and on an address, and what the masker, the encoder and the decoder do in words. -/

namespace Sys2Proof.Machine

open Sys2Proof

/-! ### A command's answer (10_state R60) -/

theorem exec_of_ok {i : Instr} {s t : State} {m : Bool} (h : cmdResult i s = .ok (t, m)) :
    exec i s = .next (t.finish m) := by rw [exec_eq, h, State.complete_ok]

theorem exec_of_error {i : Instr} {s : State} {c : ErrCode} (h : cmdResult i s = .error c) :
    exec i s = .next (s.fail c) := by rw [exec_eq, h, State.complete_error]

/-- A check that holds leaves the outcome to those after it. -/
theorem check_passes {p : Prop} [Decidable p] {r r' : Except ErrCode (State × Bool)} (h : p) :
    (if ¬ p then r else r') = r' := if_neg (not_not_intro h)

/-! ### A byte string that stands in MSG (00_scope R16) -/

/-- MSG holds the byte string from offset `a` on. -/
def State.HoldsAt (s : State) (a : Nat) (bs : List Byte) : Prop := s.memBytes a bs.length = bs

theorem State.holdsAt_storeMsg (s : State) (a : Nat) (bs : List Byte) : (s.storeMsg a bs).HoldsAt a bs :=
  s.memBytes_storeMsg a bs

theorem State.HoldsAt.congr {s t : State} {a : Nat} {bs : List Byte} (h : s.HoldsAt a bs)
    (ht : ∀ x, t.msgAt x = s.msgAt x) : t.HoldsAt a bs :=
  (State.memBytes_congr fun x _ _ => ht x).trans h

/-- A string stands in MSG where its first part does and the rest follows. -/
theorem State.holdsAt_append (s : State) (a : Nat) (bs cs : List Byte) :
    s.HoldsAt a (bs ++ cs) ↔ s.HoldsAt a bs ∧ s.HoldsAt (a + bs.length) cs := by
  rw [State.HoldsAt, List.length_append, State.memBytes_add]
  constructor
  · intro h
    exact List.append_inj h (by simp)
  · rintro ⟨hbs, hcs⟩
    rw [hbs, hcs]

theorem State.holdsAt_singleton (s : State) (a : Nat) (b : Byte) : s.HoldsAt a [b] ↔ s.msgAt a = b := by
  simp [State.HoldsAt, State.memBytes]

theorem State.HoldsAt.memRead_beBytes {s : State} {a n v : Nat} (h : s.HoldsAt a (beBytes n v)) (hv : v < 256 ^ n) :
    s.memRead a n = v := by
  rw [State.HoldsAt, beBytes_length] at h
  rw [State.memRead, h, beNat_beBytes, Nat.mod_eq_of_lt hv]

theorem State.HoldsAt.memRead_be32 {s : State} {a : Nat} {w : Word} (h : s.HoldsAt a (be32 w)) :
    s.memRead a 4 = w.toNat :=
  State.HoldsAt.memRead_beBytes h w.isLt

/-! ### Address strings in words (40_xor_address R144) -/

/-- The word at an offset of MSG. -/
def State.msgWord (s : State) (a : Nat) : Word := BitVec.ofNat 32 (s.memRead a 4)

/-- An address string of family 2, from its four words. -/
def be128 (a b c d : Word) : List Byte := be32 a ++ be32 b ++ be32 c ++ be32 d

@[simp] theorem be128_length (a b c d : Word) : (be128 a b c d).length = 16 := by simp [be128]

theorem be32_msgWord (s : State) (a : Nat) : be32 (s.msgWord a) = s.memBytes a 4 := s.be32_memRead a

theorem be128_msgWord (s : State) (a : Nat) :
    be128 (s.msgWord a) (s.msgWord (a + 4)) (s.msgWord (a + 8)) (s.msgWord (a + 12)) = s.memBytes a 16 := by
  simp only [be128, be32_msgWord, ← State.memBytes_add]

theorem addrLen_le (fam : Byte) : addrLen fam ≤ 16 := by
  rw [addrLen]
  split <;> decide

theorem addrBytes_one {s : State} {fam : Byte} (h : fam = 1) : addrBytes s fam = be32 s.xaAddr0 := by
  subst h
  simp [addrBytes, addrLen]

theorem addrBytes_two {s : State} {fam : Byte} (h : fam = 2) :
    addrBytes s fam = be128 s.xaAddr0 s.xaAddr1 s.xaAddr2 s.xaAddr3 := by
  subst h
  exact List.take_of_length_le (by simp [addrLen])

theorem addrBytes_length (s : State) {fam : Byte} (h : famOK fam) : (addrBytes s fam).length = addrLen fam := by
  obtain rfl | rfl := h
  · rw [addrBytes_one rfl]; rfl
  · rw [addrBytes_two rfl]; rfl

theorem State.setAddr_be32 (s : State) (a : Word) :
    s.setAddr (be32 a) = { s with xaAddr0 := a, xaAddr1 := 0, xaAddr2 := 0, xaAddr3 := 0 } := by
  have hpad : be32 a ++ zeros (16 - (be32 a).length) = be32 a ++ be32 0 ++ be32 0 ++ be32 0 ++ [] := by
    simp only [be32_length, List.append_assoc]; rfl
  obtain ⟨h0, h1, h2, h3⟩ := wordAt_be32 a 0 0 0 []
  simp only [State.setAddr, hpad, h0, h1, h2, h3]

theorem State.setAddr_be128 (s : State) (a b c d : Word) :
    s.setAddr (be128 a b c d) = { s with xaAddr0 := a, xaAddr1 := b, xaAddr2 := c, xaAddr3 := d } := by
  have hpad : be128 a b c d ++ zeros (16 - (be128 a b c d).length) = be32 a ++ be32 b ++ be32 c ++ be32 d ++ [] := by
    rw [be128_length]; rfl
  obtain ⟨h0, h1, h2, h3⟩ := wordAt_be32 a b c d []
  simp only [State.setAddr, hpad, h0, h1, h2, h3]

theorem State.HoldsAt.memRead_be128 {s : State} {a : Nat} {w0 w1 w2 w3 : Word} (h : s.HoldsAt a (be128 w0 w1 w2 w3)) :
    s.memRead a 4 = w0.toNat ∧ s.memRead (a + 4) 4 = w1.toNat ∧ s.memRead (a + 8) 4 = w2.toNat ∧
      s.memRead (a + 12) 4 = w3.toNat := by
  simp only [be128, State.holdsAt_append, List.length_append, be32_length, Nat.reduceAdd] at h
  obtain ⟨⟨⟨h0, h1⟩, h2⟩, h3⟩ := h
  exact ⟨h0.memRead_be32, h1.memRead_be32, h2.memRead_be32, h3.memRead_be32⟩

/-! ### The mask of a variant (40_xor_address R142, R143) -/

/-- A word in the variant X names: masked in the XOR variant, itself in the plain one. -/
def maskIf (x : Bool) (w m : Word) : Word := if x then w ^^^ m else w

theorem maskIf_maskIf (x : Bool) (w m : Word) : maskIf x (maskIf x w m) m = w := by
  cases x with
  | false => rfl
  | true => simp [maskIf]

/-- The port in either variant keeps its bits 31:16 at 0. -/
theorem maskIf_port_lt (x : Bool) (xm : BitVec 16) {p : Word} (hp : p.toNat ≤ 0xFFFF) :
    (maskIf x p (xm.setWidth 32)).toNat < 2 ^ 16 := by
  have hp : p.toNat < 2 ^ 16 := by omega
  cases x with
  | false => exact hp
  | true =>
    have hm : (xm.setWidth 32).toNat < 2 ^ 16 := by
      rw [BitVec.toNat_setWidth_of_le (by decide)]; exact xm.isLt
    rw [maskIf, if_pos rfl, BitVec.toNat_xor]
    exact Nat.xor_lt_two_pow hp hm

/-- An address string of `n` bytes in the variant X names. -/
def maskAddr (x : Bool) (s : State) (n : Nat) (a : List Byte) : List Byte := if x then xorb a (xmask s n) else a

theorem xmask_length (s : State) {n : Nat} (h : n ≤ 16) : (xmask s n).length = n := by
  simp [xmask, h]

/-- The mask is its own inverse on an address (40_xor_address R149). -/
theorem maskAddr_maskAddr (x : Bool) (s : State) {n : Nat} {a : List Byte} (ha : a.length = n) (hn : n ≤ 16) :
    maskAddr x s n (maskAddr x s n a) = a := by
  cases x with
  | false => rfl
  | true => exact xorb_xorb a _ (by rw [ha, xmask_length s hn])

theorem maskAddr_length (x : Bool) (s : State) {n : Nat} {a : List Byte} (ha : a.length = n) (hn : n ≤ 16) :
    (maskAddr x s n a).length = n := by
  cases x with
  | false => exact ha
  | true => simp [maskAddr, ha, xmask_length s hn]

theorem xorb_append {s t : List Byte} (h : s.length = t.length) (s' t' : List Byte) :
    xorb (s ++ s') (t ++ t') = xorb s t ++ xorb s' t' :=
  List.zipWith_append h

theorem xorb_be32 (a b : Word) : xorb (be32 a) (be32 b) = be32 (a ^^^ b) := by
  rw [← be32_wordOf (xorb (be32 a) (be32 b)) (by simp), wordOf_xorb _ _ (by simp), wordOf_be32, wordOf_be32]

theorem xorb_be128 (a b c d a' b' c' d' : Word) :
    xorb (be128 a b c d) (be128 a' b' c' d') = be128 (a ^^^ a') (b ^^^ b') (c ^^^ c') (d ^^^ d') := by
  simp [be128, xorb_append, xorb_be32]

theorem xmask_four (s : State) : xmask s 4 = be32 0x2112A442 := List.take_left' (be32_length _)

theorem xmask_sixteen (s : State) :
    xmask s 16 = be128 0x2112A442 (s.msgWord 8) (s.msgWord 12) (s.msgWord 16) := by
  rw [xmask, List.take_of_length_le (by simp), txId_words]
  simp only [be128, List.append_assoc]
  rfl

theorem maskAddr_be32 (x : Bool) (s : State) (a : Word) :
    maskAddr x s 4 (be32 a) = be32 (maskIf x a 0x2112A442) := by
  cases x with
  | false => rfl
  | true => rw [maskAddr, if_pos rfl, xmask_four, xorb_be32]; rfl

theorem maskAddr_be128 (x : Bool) (s : State) (a b c d : Word) :
    maskAddr x s 16 (be128 a b c d) =
      be128 (maskIf x a 0x2112A442) (maskIf x b (s.msgWord 8)) (maskIf x c (s.msgWord 12)) (maskIf x d (s.msgWord 16)) := by
  cases x with
  | false => rfl
  | true => rw [maskAddr, if_pos rfl, xmask_sixteen, xorb_be128]; rfl

theorem maskAddr_addrBytes_one (x : Bool) (s : State) {fam : Byte} (h : fam = 1) :
    maskAddr x s (addrLen fam) (addrBytes s fam) = be32 (maskIf x s.xaAddr0 0x2112A442) := by
  rw [addrBytes_one h, h]
  exact maskAddr_be32 x s s.xaAddr0

theorem maskAddr_addrBytes_two (x : Bool) (s : State) {fam : Byte} (h : fam = 2) :
    maskAddr x s (addrLen fam) (addrBytes s fam) =
      be128 (maskIf x s.xaAddr0 0x2112A442) (maskIf x s.xaAddr1 (s.msgWord 8)) (maskIf x s.xaAddr2 (s.msgWord 12))
        (maskIf x s.xaAddr3 (s.msgWord 16)) := by
  rw [addrBytes_two h, h]
  exact maskAddr_be128 x s s.xaAddr0 s.xaAddr1 s.xaAddr2 s.xaAddr3

/-- The mask reads the transaction id of MSG and nothing else. -/
theorem maskAddr_congr (x : Bool) {s t : State} (h : ∀ y, y < 20 → t.msgAt y = s.msgAt y) (n : Nat) (a : List Byte) :
    maskAddr x t n a = maskAddr x s n a := by
  have htx : txId t = txId s := State.memBytes_congr fun y _ hy => h y hy
  rw [maskAddr, xmask, htx]; rfl

/-! ### The masker in words (40_xor_address R146) -/

/-- The state XA.MASK leaves when its checks pass. -/
def maskedRegs (xm : BitVec 16) (s : State) : State :=
  if s.xaFamily = 1 then
    { s with xaPort := xorPort xm s.xaPort, xaAddr0 := s.xaAddr0 ^^^ 0x2112A442 }
  else
    { s with xaPort := xorPort xm s.xaPort, xaAddr0 := s.xaAddr0 ^^^ 0x2112A442, xaAddr1 := s.xaAddr1 ^^^ s.msgWord 8,
             xaAddr2 := s.xaAddr2 ^^^ s.msgWord 12, xaAddr3 := s.xaAddr3 ^^^ s.msgWord 16 }

theorem xaMask_eq (xm : BitVec 16) (s : State) :
    xaMask xm s =
      if ¬ msgLenOK s then .error .badlen
      else if ¬ famOK s.xaFamily then .error .badfam
      else if ¬ portOK s then .error .portrange
      else .ok (maskedRegs xm s, false) := by
  refine ite_congr rfl (fun _ => rfl) fun _ => ite_congr rfl (fun _ => rfl) fun hfam =>
    ite_congr rfl (fun _ => rfl) fun _ => congrArg (fun t => Except.ok (t, false)) ?_
  obtain h | h := not_not.mp hfam
  · have haddr : xorb (addrBytes s s.xaFamily) (xmask s (addrLen s.xaFamily)) = _ := maskAddr_addrBytes_one true s h
    rw [maskedRegs, if_pos h, if_pos h, haddr, wordOf_be32]; rfl
  · have haddr : xorb (addrBytes s s.xaFamily) (xmask s (addrLen s.xaFamily)) = _ := maskAddr_addrBytes_two true s h
    have hne : s.xaFamily ≠ 1 := by rw [h]; decide
    rw [maskedRegs, if_neg hne, if_neg hne, haddr, State.setAddr_be128]; rfl

theorem maskedRegs_maskedRegs (xm : BitVec 16) (s : State) : maskedRegs xm (maskedRegs xm s) = s := by
  by_cases h : s.xaFamily = 1
  · rw [maskedRegs.eq_def xm s, if_pos h]
    refine (if_pos h).trans ?_
    simp only [xorPort_xorPort, BitVec.xor_assoc, BitVec.xor_self, BitVec.xor_zero]
  · rw [maskedRegs.eq_def xm s, if_neg h]
    refine (if_neg h).trans ?_
    change ({ s with
      xaPort := xorPort xm (xorPort xm s.xaPort), xaAddr0 := s.xaAddr0 ^^^ 0x2112A442 ^^^ 0x2112A442,
      xaAddr1 := s.xaAddr1 ^^^ s.msgWord 8 ^^^ s.msgWord 8, xaAddr2 := s.xaAddr2 ^^^ s.msgWord 12 ^^^ s.msgWord 12,
      xaAddr3 := s.xaAddr3 ^^^ s.msgWord 16 ^^^ s.msgWord 16 } : State) = s
    simp only [xorPort_xorPort, BitVec.xor_assoc, BitVec.xor_self, BitVec.xor_zero]

/-- What XA.MASK's checks look at is as it was once it has run. -/
theorem checks_maskedRegs (xm : BitVec 16) (s : State) :
    (maskedRegs xm s).msgLen = s.msgLen ∧ (maskedRegs xm s).xaFamily = s.xaFamily ∧
      (maskedRegs xm s).xaPort = xorPort xm s.xaPort := by
  unfold maskedRegs
  split <;> exact ⟨rfl, rfl, rfl⟩

/-- When XA.MASK succeeds, and what it then answers, in words. -/
theorem xaMask_ok_iff_maskedRegs (xm : BitVec 16) (s : State) (r : State × Bool) :
    xaMask xm s = .ok r ↔ msgLenOK s ∧ famOK s.xaFamily ∧ portOK s ∧ r = (maskedRegs xm s, false) := by
  rw [xaMask_eq]
  split_ifs with hlen hfam hport <;> grind

/-! ### The TLV of the encoder (40_xor_address R147) -/

theorem addrTLV_eq (xm : BitVec 16) (x : Bool) (s : State) :
    addrTLV xm x s = beBytes 2 (addrType x) ++ beBytes 2 (4 + addrLen s.xaFamily) ++ [0x00] ++ [s.xaFamily] ++
      beBytes 2 (maskIf x s.xaPort (xm.setWidth 32)).toNat ++
      maskAddr x s (addrLen s.xaFamily) (addrBytes s s.xaFamily) := rfl

/-- The fields of the TLV, read where it stands in MSG. -/
theorem State.HoldsAt.addrTLV {xm : BitVec 16} {x : Bool} {s u : State} {off : Nat}
    (h : u.HoldsAt off (addrTLV xm x s)) (hport : portOK s) :
    u.memRead off 2 = addrType x ∧ u.memRead (off + 2) 2 = 4 + addrLen s.xaFamily ∧ u.msgAt (off + 4) = 0x00 ∧
      u.msgAt (off + 5) = s.xaFamily ∧ u.memRead (off + 6) 2 = (maskIf x s.xaPort (xm.setWidth 32)).toNat ∧
      u.HoldsAt (off + 8) (maskAddr x s (addrLen s.xaFamily) (addrBytes s s.xaFamily)) := by
  simp only [addrTLV_eq, State.holdsAt_append, State.holdsAt_singleton, List.length_append, beBytes_length,
    List.length_singleton, Nat.reduceAdd] at h
  obtain ⟨⟨⟨⟨⟨htype, hlen⟩, hzero⟩, hfam⟩, hport'⟩, haddr⟩ := h
  have htype_lt : addrType x < 256 ^ 2 := by cases x <;> decide
  have hlen_lt : 4 + addrLen s.xaFamily < 256 ^ 2 := by have := addrLen_le s.xaFamily; omega
  exact ⟨htype.memRead_beBytes htype_lt, hlen.memRead_beBytes hlen_lt, hzero, hfam,
    hport'.memRead_beBytes (maskIf_port_lt x xm hport), haddr⟩

/-! ### The decoder (40_xor_address R148) -/

theorem maskAddr_memBytes_one (x : Bool) (s : State) (a : Nat) {fam : Byte} (h : fam = 1) :
    maskAddr x s (addrLen fam) (s.memBytes a (addrLen fam)) = be32 (maskIf x (s.msgWord a) 0x2112A442) := by
  rw [h, show addrLen 1 = 4 from rfl, ← be32_msgWord, maskAddr_be32]

theorem maskAddr_memBytes_two (x : Bool) (s : State) (a : Nat) {fam : Byte} (h : fam = 2) :
    maskAddr x s (addrLen fam) (s.memBytes a (addrLen fam)) =
      be128 (maskIf x (s.msgWord a) 0x2112A442) (maskIf x (s.msgWord (a + 4)) (s.msgWord 8))
        (maskIf x (s.msgWord (a + 8)) (s.msgWord 12)) (maskIf x (s.msgWord (a + 12)) (s.msgWord 16)) := by
  rw [h, show addrLen 2 = 16 from rfl, ← be128_msgWord, maskAddr_be128]

/-- Where the encoder's TLV stands at XA_OFF over the same transaction id, the decoder gives back the family, the port and
the address that were encoded (40_xor_address R149). -/
theorem xaDec_of_holdsAt_addrTLV {xm : BitVec 16} {x : Bool} {s u : State} {r : State × Bool}
    (henc : xaEnc xm x s = .ok r) (hlen : u.msgLen = s.msgLen) (hoff : u.xaOff = s.xaOff)
    (hholds : u.HoldsAt s.xaOff.toNat (addrTLV xm x s)) (htx : ∀ y, y < 20 → u.msgAt y = s.msgAt y) :
    xaDec xm x u =
      .ok (((u.setFamily s.xaFamily).setPort s.xaPort).setAddr (addrBytes s s.xaFamily), false) := by
  obtain ⟨hlenOK, hfamOK, hportOK, ⟨hoff20, hoff4, hfit⟩, -⟩ := (xaEnc_ok_iff xm x s r).mp henc
  obtain ⟨htype, hl, -, hfam, hport, haddr⟩ := hholds.addrTLV hportOK
  have hn := addrLen_le s.xaFamily
  have hbytes := addrBytes_length s hfamOK
  have haddr : u.memBytes (s.xaOff.toNat + 8) (addrLen s.xaFamily) =
      maskAddr x s (addrLen s.xaFamily) (addrBytes s s.xaFamily) := by
    rwa [State.HoldsAt, maskAddr_length x s hbytes hn] at haddr
  have hport : wordOf (u.memBytes (s.xaOff.toNat + 6) 2) = maskIf x s.xaPort (xm.setWidth 32) := by
    rw [wordOf, ← State.memRead, hport, BitVec.ofNat_toNat, BitVec.setWidth_eq]
  refine (xaDec_ok_iff xm x u _).mpr ?_
  rw [msgLenOK, hlen, hoff, htype, hl, hfam, haddr, hport]
  refine ⟨hlenOK, ⟨hoff20, hoff4, by omega⟩, rfl, hfit, hfamOK, rfl, ?_⟩
  change _ = (((u.setFamily s.xaFamily).setPort (maskIf x (maskIf x s.xaPort (xm.setWidth 32)) (xm.setWidth 32))).setAddr
    (maskAddr x u (addrLen s.xaFamily) (maskAddr x s (addrLen s.xaFamily) (addrBytes s s.xaFamily))), false)
  rw [maskIf_maskIf, maskAddr_congr x htx, maskAddr_maskAddr x s hbytes hn]

end Sys2Proof.Machine
end

section
/-! The statements of 40_xor_address, settled. -/

namespace Sys2Proof.Machine

open Sys2Proof

/-- Settles O22: the masker in words, completed. -/
theorem xaMaskOutcome : Obligations.XaMaskOutcome := by
  intro s
  rw [exec_eq, cmdResult, xaMask_eq]
  simp only [apply_ite s.complete, State.complete_error, State.complete_ok, maskedRegs, apply_ite (State.finish · false)]
  rfl

/-- Settles O23: the masked registers pass the same checks, and the mask is its own inverse. -/
theorem xaMaskTwiceRestores : Obligations.XaMaskTwiceRestores := by
  refine ⟨fun xm s t m h => ?_, fun s =>
    ⟨fun _ _ => exec_of_ok (i := .xaMask), fun _ => exec_of_error (i := .xaMask)⟩⟩
  obtain ⟨hlen, hfam, hport, ht⟩ := (xaMask_ok_iff_maskedRegs xm s _).mp h
  cases ht
  obtain ⟨hlen', hfam', hport'⟩ := checks_maskedRegs xm s
  refine (xaMask_ok_iff_maskedRegs xm _ _).mpr ⟨?_, ?_, ?_, ?_⟩
  · rwa [msgLenOK, hlen']
  · rwa [hfam']
  · rw [portOK, hport']
    exact Nat.le_of_lt_succ (maskIf_port_lt true xm hport)
  · rw [maskedRegs_maskedRegs]

/-- Settles O24: the checks in turn, and the fields of the TLV that stands at XA_OFF. -/
theorem xaEncOutcome : Obligations.XaEncOutcome := by
  intro x s n off len lenOk famOk portOk offOk
  refine ⟨fun hlen => exec_of_error (if_pos hlen),
    fun hlen hfam => exec_of_error ((check_passes hlen).trans (if_pos hfam)),
    fun hlen hfam hport => exec_of_error ((check_passes hlen).trans ((check_passes hfam).trans (if_pos hport))),
    fun hlen hfam hport hoff => exec_of_error
      ((check_passes hlen).trans ((check_passes hfam).trans ((check_passes hport).trans (if_pos hoff)))),
    fun hlen hfam hport hoff => ?_⟩
  have hok := (xaEnc_ok_iff Config.xportMask x s _).mpr ⟨hlen, hfam, hport, hoff, rfl⟩
  refine ⟨_, exec_of_ok hok, rfl, ?_⟩
  have hholds : (State.finish (s.storeMsg off (addrTLV Config.xportMask x s)) false).HoldsAt off
      (addrTLV Config.xportMask x s) := s.holdsAt_storeMsg off _
  obtain ⟨htype, hl, hzero, hfam', hport', haddr⟩ := hholds.addrTLV hport
  refine ⟨htype, hl, hzero, hfam', hport', ?_, fun h2 => ?_, fun a ha => ?_⟩
  · obtain h | h := hfam
    · rw [maskAddr_addrBytes_one x s h] at haddr
      exact haddr.memRead_be32
    · rw [maskAddr_addrBytes_two x s h] at haddr
      exact haddr.memRead_be128.1
  · rw [maskAddr_addrBytes_two x s h2] at haddr
    exact haddr.memRead_be128.2
  · have hle : _ ≤ 4 + (4 + len) := addrTLV_length_le Config.xportMask x s
    rw [State.msgAt_finish, State.msgAt_storeMsg_outside s (by omega)]

/-- Settles O25: each check in turn, and the registers set by the family of the TLV. -/
theorem xaDecOutcome : Obligations.XaDecOutcome := by
  intro x s n off l fam port a0 a1 a2 a3
  rw [exec_eq]
  refine congrArg Host.Outcome.next ?_
  rw [cmdResult, xaDec]
  simp only [apply_ite s.complete, State.complete_error, State.complete_ok]
  refine ite_congr rfl (fun _ => rfl) fun _ => ite_congr rfl (fun _ => rfl) fun _ => ite_congr rfl (fun _ => rfl) fun _ =>
    ite_congr (propext Nat.not_le.symm) (fun _ => rfl) fun _ => ite_congr rfl (fun _ => rfl) fun _ =>
    ite_congr rfl (fun _ => rfl) fun hfam => ite_congr ?_ (fun _ => rfl) fun _ => ?_
  · rw [addrLen, apply_ite (4 + ·)]
  · change (((s.setFamily fam).setPort (maskIf x port 0x0000A442)).setAddr
      (maskAddr x s (addrLen fam) (s.memBytes (off + 8) (addrLen fam)))).finish false = _
    obtain h | h := not_not.mp hfam
    · rw [if_pos h, maskAddr_memBytes_one x s _ h, State.setAddr_be32, h]; rfl
    · have hne : fam ≠ 1 := by rw [h]; decide
      rw [if_neg hne, maskAddr_memBytes_two x s _ h, State.setAddr_be128, h]; rfl

/-- Settles O26: the decoder finds the fields the encoder stored, and each variant's mask is its own inverse. -/
theorem xaEncDecRoundTrip : Obligations.XaEncDecRoundTrip := by
  refine ⟨fun xm x s t u m henc hlen hoff hu => ?_,
    fun x s => ⟨fun _ _ => exec_of_ok (i := .xaEnc x), fun _ => exec_of_error (i := .xaEnc x),
      fun _ _ => exec_of_ok (i := .xaDec x), fun _ => exec_of_error (i := .xaDec x)⟩⟩
  obtain ⟨-, hfam, -, ⟨hoff20, -⟩, ht⟩ := (xaEnc_ok_iff xm x s _).mp henc
  cases ht
  have htx (y : Nat) (hy : y < 20) : u.msgAt y = s.msgAt y :=
    (hu y).trans (s.msgAt_storeMsg_outside (.inl (by omega)))
  have hholds := (s.holdsAt_storeMsg s.xaOff.toNat (addrTLV xm x s)).congr hu
  refine ⟨_, xaDec_of_holdsAt_addrTLV henc hlen hoff hholds htx, rfl, rfl, ?_, fun h => ?_, fun h => ?_⟩
  · obtain h | h := hfam
    · rw [addrBytes_one h, State.setAddr_be32]
    · rw [addrBytes_two h, State.setAddr_be128]
  · rw [addrBytes_one h, State.setAddr_be32]; exact ⟨rfl, rfl, rfl⟩
  · rw [addrBytes_two h, State.setAddr_be128]; exact ⟨rfl, rfl, rfl⟩

end Sys2Proof.Machine
end

section
/-! SUPPORT. The laws behind the fingerprint's statements: CRC-32 tells strings apart that differ in one byte, what a
changed byte does to the reads of MSG and to the value over the span, the message FP.GEN leaves and what FP.CHK makes of
it, the trailers' order, and SHA-1's schedule in bytes. -/

namespace Sys2Proof.Machine

open Sys2Proof

/-! ### CRC-32 and single bytes (41_fingerprint R160) -/

/-- The polynomial has bit 31 set and a shifted word has not, so bit 31 of a step's result tells which way it went. -/
theorem getLsbD_crcBit_top (c : Word) : (crcBit c).getLsbD 31 = c.getLsbD 0 := by
  rw [crcBit]
  cases h : c.getLsbD 0 <;> simp

/-- One step loses nothing: bit 0 is told by bit 31 of the result, and the other bits are shifted. -/
theorem crcBit_injective : Function.Injective crcBit := by
  intro c d h
  have hbit : c.getLsbD 0 = d.getLsbD 0 := by rw [← getLsbD_crcBit_top, h, getLsbD_crcBit_top]
  have hshift : c >>> 1 = d >>> 1 := by
    rw [crcBit, crcBit, hbit] at h
    split at h
    · exact (BitVec.xor_left_inj _).mp h
    · exact h
  apply BitVec.eq_of_getLsbD_eq
  intro i hi
  cases i with
  | zero => exact hbit
  | succ i => simpa [Nat.add_comm] using congrArg (BitVec.getLsbD · i) hshift

theorem crcBits_injective (n : Nat) : Function.Injective (crcBits n) := by
  induction n with
  | zero => exact fun _ _ h => h
  | succ n ih => exact ih.comp crcBit_injective

theorem crcByte_left_injective (b : Byte) : Function.Injective (crcByte · b) := fun _ _ h =>
  (BitVec.xor_left_inj _).mp (crcBits_injective 8 h)

theorem crcByte_right_injective (c : Word) : Function.Injective (crcByte c) := by
  intro a b h
  have hwide : a.setWidth 32 = b.setWidth 32 := (BitVec.xor_right_inj c).mp (crcBits_injective 8 h)
  simpa using congrArg (BitVec.setWidth 8) hwide

/-- The bytes that follow keep two states apart. -/
theorem foldl_crcByte_injective (bs : List Byte) : Function.Injective (fun c => bs.foldl crcByte c) := by
  induction bs with
  | nil => exact fun _ _ h => h
  | cons b bs ih => exact ih.comp (crcByte_left_injective b)

/-- CRC-32 detects a changed byte at any place (41_fingerprint R165). -/
theorem crc32_append_cons_inj (pre post : List Byte) (a b : Byte) :
    crc32 (pre ++ a :: post) = crc32 (pre ++ b :: post) ↔ a = b := by
  refine ⟨fun h => ?_, fun h => by rw [h]⟩
  have hfold := (BitVec.xor_left_inj _).mp h
  rw [List.foldl_append, List.foldl_append] at hfold
  exact crcByte_right_injective _ (foldl_crcByte_injective post hfold)

/-! ### A changed byte in MSG (41_fingerprint R165) -/

/-- A string of MSG around one of its bytes. -/
theorem State.memBytes_split (s : State) {a n b : Nat} (ha : a ≤ b) (hb : b < a + n) :
    s.memBytes a n = s.memBytes a (b - a) ++ s.msgAt b :: s.memBytes (b + 1) (a + n - (b + 1)) := by
  obtain ⟨k, rfl⟩ := Nat.exists_eq_add_of_le ha
  obtain ⟨m, rfl⟩ := Nat.exists_eq_add_of_lt (Nat.lt_of_add_lt_add_left hb)
  rw [Nat.add_sub_cancel_left, show a + (k + m + 1) - (a + k + 1) = m by omega,
    show k + m + 1 = k + (1 + m) by omega, State.memBytes_add, State.memBytes_add]
  simp [State.memBytes]

/-- A read tells every byte of its span. -/
theorem State.msgAt_eq_of_memRead_eq {s t : State} {a n b : Nat} (h : t.memRead a n = s.memRead a n) (ha : a ≤ b)
    (hb : b < a + n) : t.msgAt b = s.msgAt b := by
  have hbytes (u : State) : u.memBytes a n = beBytes n (u.memRead a n) := by
    simpa [State.memRead] using (beBytes_beNat (u.memBytes a n)).symm
  have heq : t.memBytes a n = s.memBytes a n := by rw [hbytes, hbytes, h]
  rw [t.memBytes_split ha hb, s.memBytes_split ha hb] at heq
  exact (List.cons.inj (List.append_inj_right heq (by simp))).1

/-- Where two states' MSG differ in one byte of a string at most, the strings are the same before and after it. -/
theorem State.memBytes_differ_at {s t : State} {a n b : Nat} (ha : a ≤ b) (hb : b < a + n)
    (heq : ∀ x, x < a + n → x ≠ b → t.msgAt x = s.msgAt x) :
    ∃ pre post, t.memBytes a n = pre ++ t.msgAt b :: post ∧ s.memBytes a n = pre ++ s.msgAt b :: post := by
  refine ⟨_, _, t.memBytes_split ha hb, ?_⟩
  have hpre : t.memBytes a (b - a) = s.memBytes a (b - a) :=
    State.memBytes_congr fun x _ _ => heq x (by omega) (by omega)
  have hpost : t.memBytes (b + 1) (a + n - (b + 1)) = s.memBytes (b + 1) (a + n - (b + 1)) :=
    State.memBytes_congr fun x _ _ => heq x (by omega) (by omega)
  rw [s.memBytes_split ha hb, hpre, hpost]

/-- The same of the span a fingerprint covers, for a byte outside the header's length field. -/
theorem span_differ_at {s t : State} {len e b : Nat} (he : 4 ≤ e) (hb : b < e) (h2 : b ≠ 2) (h3 : b ≠ 3)
    (heq : ∀ x, x < e → x ≠ b → t.msgAt x = s.msgAt x) :
    ∃ pre post, span t len e = pre ++ t.msgAt b :: post ∧ span s len e = pre ++ s.msgAt b :: post := by
  obtain hlow | hhigh : b < 2 ∨ 4 ≤ b := by omega
  · have htail : t.memBytes 4 (e - 4) = s.memBytes 4 (e - 4) :=
      State.memBytes_congr fun x _ _ => heq x (by omega) (by omega)
    obtain ⟨pre, post, ht, hs⟩ := State.memBytes_differ_at (a := 0) (n := 2) (Nat.zero_le b) (by omega)
      fun x hx => heq x (by omega)
    exact ⟨pre, post ++ beBytes 2 len ++ s.memBytes 4 (e - 4), by simp [span, ht, htail], by simp [span, hs]⟩
  · have hhead : t.memBytes 0 2 = s.memBytes 0 2 := State.memBytes_congr fun x _ _ => heq x (by omega) (by omega)
    obtain ⟨pre, post, ht, hs⟩ := State.memBytes_differ_at (a := 4) (n := e - 4) hhigh (by omega)
      fun x hx => heq x (by omega)
    exact ⟨s.memBytes 0 2 ++ beBytes 2 len ++ pre, post, by simp [span, ht, hhead], by simp [span, hs]⟩

/-- A changed byte of the span, outside the header's length field, changes the value computed over it. -/
theorem fpValueOf_ne_of_msgAt_ne {s t : State} {len e b : Nat} (he : 4 ≤ e) (hb : b < e) (h2 : b ≠ 2) (h3 : b ≠ 3)
    (hne : t.msgAt b ≠ s.msgAt b) (heq : ∀ x, x < e → x ≠ b → t.msgAt x = s.msgAt x) :
    fpValueOf t len e ≠ fpValueOf s len e := by
  intro h
  obtain ⟨pre, post, ht, hs⟩ := span_differ_at (len := len) he hb h2 h3 heq
  rw [fpValueOf, fpValueOf, ht, hs, BitVec.xor_left_inj, crc32_append_cons_inj] at h
  exact hne h

theorem fpValueOf_congr {s t : State} {len e : Nat} (h : ∀ x, x < e → x ≠ 2 → x ≠ 3 → t.msgAt x = s.msgAt x)
    (he : 4 ≤ e) : fpValueOf t len e = fpValueOf s len e := by rw [fpValueOf, span_congr h he, ← fpValueOf]

/-! ### Reads of MSG after the engine's writes -/

@[simp] theorem State.memRead_setMsgLen (s : State) (v : Word) (t : TState) (a n : Nat) :
    (s.setMsgLen v t).memRead a n = s.memRead a n := rfl

theorem State.memRead_memWrite_outside (s : State) {a n v b k : Nat} (h : b + k ≤ a ∨ a + n ≤ b) :
    (s.memWrite a n v).memRead b k = s.memRead b k :=
  State.memRead_congr fun x _ _ => s.msgAt_memWrite_outside (by omega)

/-! ### The message FP.GEN leaves (41_fingerprint R163) -/

/-- The message ends with a FINGERPRINT trailer at `p`: MSG_LEN just covers it, the header's length counts it, and its
value is FP_VALUE, which is the value over the message before it. -/
structure State.SealedAt (t : State) (p : Nat) : Prop where
  header : 20 ≤ p
  aligned : p % 4 = 0
  fits : p + 8 ≤ 4096
  msgLen : t.msgLen.toNat = p + 8
  type : t.memRead p 2 = 0x8028
  len : t.memRead (p + 2) 2 = 0x0004
  headerLen : t.memRead 2 2 = p - 12
  value : t.memRead (p + 4) 4 = t.fpValue.toNat
  fpValue : t.fpValue = fpValueOf t (p - 12) p

theorem fpGenState_fpValue {s : State} (hmin : 20 ≤ s.msgLen.toNat) :
    (fpGenState s).fpValue = fpValueOf s (s.msgLen.toNat - 12) s.msgLen.toNat := by
  rw [show s.msgLen.toNat - 12 = s.msgLen.toNat - 20 + 8 by omega]; rfl

theorem fpGenState_sealedAt {s : State} (hlen : msgLenOK s) (hfit : s.msgLen.toNat + 8 ≤ 4096) :
    (fpGenState s).SealedAt s.msgLen.toNat := by
  obtain ⟨hmin, -, h4⟩ := hlen
  have hL : s.msgLen.toNat - 20 + 8 = s.msgLen.toNat - 12 := by omega
  refine ⟨hmin, h4, hfit, ?msgLen, ?type, ?len, ?headerLen, ?value, ?fpValue⟩
  case msgLen => simp (disch := omega) only [fpGenState, State.setMsgLen_msgLen, BitVec.toNat_ofNat, Nat.mod_eq_of_lt]
  case fpValue =>
    rw [fpGenState_fpValue hmin]
    exact (fpValueOf_congr (fun x hx h2 h3 => msgAt_fpGenState_outside s h2 h3 (.inl hx)) (by omega)).symm
  case type | len | headerLen | value =>
    simp (disch := omega) only [↓fpGenState_fpValue hmin, fpGenState, State.memRead_setMsgLen,
      State.memRead_memWrite_outside, State.memRead_memWrite, Nat.mod_eq_of_lt, hL]

/-- What a successful FP.GEN has checked, and what it leaves. -/
theorem exec_fpGen_success {s t : State} (h : exec .fpGen s = .next t) (herr : t.err = false) :
    msgLenOK s ∧ s.tstate ≠ .fpDone ∧ s.msgLen.toNat + 8 ≤ 4096 ∧ t = (fpGenState s).finish false := by
  obtain ⟨u, m, hr, rfl⟩ | ⟨c, -, rfl⟩ := exec_cases h
  · obtain ⟨hlen, hord, hfit, hu⟩ := (fpGen_ok_iff s _).mp hr
    obtain ⟨rfl, rfl⟩ := Prod.mk.inj hu
    exact ⟨hlen, hord, hfit, rfl⟩
  · cases herr

theorem exec_fpGen_sealedAt {s t : State} (h : exec .fpGen s = .next t) (herr : t.err = false) :
    t.SealedAt s.msgLen.toNat := by
  obtain ⟨hlen, -, hfit, rfl⟩ := exec_fpGen_success h herr
  exact { fpGenState_sealedAt hlen hfit with }

theorem State.SealedAt.msgLenOK {t u : State} {p : Nat} (ht : t.SealedAt p) (hlen : u.msgLen = t.msgLen) :
    msgLenOK u := by
  obtain ⟨hmin, h4, hfit, hmsg, -⟩ := ht
  rw [Machine.msgLenOK, hlen, hmsg, bufBytes_eq]
  omega

/-! ### FP.CHK of a sealed message (41_fingerprint R164) -/

/-- With MSG_LEN and the trailer's head as FP.GEN left them, FP.CHK completes and compares length and value. -/
theorem State.SealedAt.exec_fpChk {t u : State} {p : Nat} (ht : t.SealedAt p) (hlen : u.msgLen = t.msgLen)
    (hoff : u.attrOff.toNat = p) (hhead : ∀ a, p ≤ a → a < p + 4 → u.msgAt a = t.msgAt a) :
    exec .fpChk u = .next ((u.setFp (fpValueOf u (p - 12) p)).finish
      (decide (u.memRead 2 2 = p - 12 ∧ u.memRead (p + 4) 4 = (fpValueOf u (p - 12) p).toNat))) := by
  have htype : u.memRead p 2 = 0x8028 := (State.memRead_congr fun x _ _ => hhead x (by omega) (by omega)).trans ht.type
  have hl : u.memRead (p + 2) 2 = 0x0004 :=
    (State.memRead_congr fun x _ _ => hhead x (by omega) (by omega)).trans ht.len
  have hmsg : p + (4 + 0x0004) ≤ u.msgLen.toNat := by rw [hlen, ht.msgLen]
  have hL : p - 20 + 8 = p - 12 := by have := ht.header; omega
  refine exec_of_ok ((fpChk_ok_iff u _).mpr ⟨ht.msgLenOK hlen, ?_, ?_⟩)
  · rw [hoff]; exact ⟨ht.header, ht.aligned, hmsg, htype, hl⟩
  · rw [hoff, hL]

/-! ### The trailers' order (41_fingerprint R166, 42_message_integrity R186) -/

theorem msgLenOK_finish (s : State) (m : Bool) : msgLenOK (s.finish m) ↔ msgLenOK s := Iff.rfl

theorem keyLenOK_finish (s : State) (m : Bool) : keyLenOK (s.finish m) ↔ keyLenOK s := Iff.rfl

theorem exec_fpGen_of_fpDone {s : State} (hlen : msgLenOK s) (hord : s.tstate = .fpDone) :
    exec .fpGen s = .next (s.fail .order) := exec_of_error ((check_passes hlen).trans (if_pos hord))

theorem exec_miGen_of_not_opened {s : State} (hlen : msgLenOK s) (hkey : keyLenOK s) (hord : s.tstate ≠ .opened) :
    exec .miGen s = .next (s.fail .order) :=
  exec_of_error ((check_passes hlen).trans ((check_passes hkey).trans (if_pos hord)))

/-- What a successful MI.GEN has checked, and what it leaves. -/
theorem exec_miGen_success {s t : State} (h : exec .miGen s = .next t) (herr : t.err = false) :
    msgLenOK s ∧ keyLenOK s ∧ s.tstate = .opened ∧ s.msgLen.toNat + 24 ≤ 4096 ∧
      t = (miGenState s).finish false := by
  obtain ⟨u, m, hr, rfl⟩ | ⟨c, -, rfl⟩ := exec_cases h
  · obtain ⟨hlen, hkey, hord, hfit, hu⟩ := (miGen_ok_iff s _).mp hr
    obtain ⟨rfl, rfl⟩ := Prod.mk.inj hu
    exact ⟨hlen, hkey, hord, hfit, rfl⟩
  · cases herr

theorem msgLenOK_miGenState {s : State} (hlen : msgLenOK s) (hfit : s.msgLen.toNat + 24 ≤ 4096) :
    msgLenOK (miGenState s) := by
  obtain ⟨hmin, -, h4⟩ := hlen
  simp only [msgLenOK, miGenState, State.setMsgLen_msgLen, BitVec.toNat_ofNat, bufBytes_eq]
  omega

theorem keyLenOK_miGenState {s : State} (hkey : keyLenOK s) : keyLenOK (miGenState s) := by
  rwa [keyLenOK, miGenState_frame]

/-! ### The words of SHA-1's schedule (42_message_integrity R181) -/

theorem shaSchedule_length (m : List Byte) : (shaSchedule m).length = 80 := by simp [shaSchedule]

theorem shaSchedule_first {m : List Byte} {t : Nat} (ht : t < 16) : (shaSchedule m).getD t 0 = wordAt m t := by
  rw [shaSchedule, shaExtend_old _ _ (by simpa using ht)]
  simp [ht]

theorem take_four_drop {m : List Byte} {k : Nat} (h : k + 4 ≤ m.length) :
    (m.drop k).take 4 = [m.getD k 0, m.getD (k + 1) 0, m.getD (k + 2) 0, m.getD (k + 3) 0] := by
  rw [List.drop_eq_getElem_cons (by omega), List.drop_eq_getElem_cons (by omega), List.drop_eq_getElem_cons (by omega),
    List.drop_eq_getElem_cons (by omega)]
  simp (disch := omega) only [List.getD_eq_getElem, List.take_succ_cons, List.take_zero]

/-- A word of a block from its four bytes, the most significant first. -/
theorem wordAt_toNat {m : List Byte} {t : Nat} (h : 4 * t + 4 ≤ m.length) :
    (wordAt m t).toNat = (m.getD (4 * t) 0).toNat * 2 ^ 24 + (m.getD (4 * t + 1) 0).toNat * 2 ^ 16 +
      (m.getD (4 * t + 2) 0).toNat * 2 ^ 8 + (m.getD (4 * t + 3) 0).toNat := by
  rw [wordAt, wordOf, take_four_drop h]
  simp only [beNat, List.foldl_cons, List.foldl_nil, BitVec.toNat_ofNat]
  omega

end Sys2Proof.Machine
end

section
/-! The statements of 41_fingerprint, settled. -/

namespace Sys2Proof.Machine

open Sys2Proof

/-- Settles O27: the checks in turn, and the message FP.GEN leaves. -/
theorem fpGenOutcome : Obligations.FpGenOutcome := by
  intro s n lenOk v
  refine ⟨fun hlen => exec_of_error (if_pos hlen), exec_fpGen_of_fpDone,
    fun hlen hord hfit => exec_of_error ((check_passes hlen).trans ((if_neg hord).trans (if_pos ?_))),
    fun hlen hord hfit => ⟨_, exec_of_ok ((fpGen_ok_iff s _).mpr ⟨hlen, hord, hfit, rfl⟩), ?_, ?_⟩⟩
  · exact fun h => hfit h.1
  · have hv : (fpGenState s).fpValue = v := fpGenState_fpValue hlen.1
    rw [← hv, fpGenState_frame]; rfl
  · have ht := fpGenState_sealedAt hlen hfit
    refine ⟨ht.type, ht.len, ?_, ht.headerLen, fun a h2 h3 ha => msgAt_fpGenState_outside s h2 h3 ha⟩
    exact ht.value.trans (congrArg BitVec.toNat (fpGenState_fpValue hlen.1))

/-- Settles O29: the length and the value that FP.CHK compares are those FP.GEN stored. -/
theorem fpGenThenChkMatches : Obligations.FpGenThenChkMatches := by
  intro s t u h herr hlen hoff hsame
  have ht := exec_fpGen_sealedAt h herr
  have hp := ht.header
  have hv : fpValueOf u (s.msgLen.toNat - 12) s.msgLen.toNat = t.fpValue :=
    (fpValueOf_congr (fun x _ _ _ => hsame x (by omega)) (by omega)).trans ht.fpValue.symm
  have hl : u.memRead 2 2 = t.memRead 2 2 := State.memRead_congr fun x _ _ => hsame x (by omega)
  have hval : u.memRead (s.msgLen.toNat + 4) 4 = t.memRead (s.msgLen.toNat + 4) 4 :=
    State.memRead_congr fun x _ _ => hsame x (by omega)
  refine ⟨_, ht.exec_fpChk hlen (congrArg _ hoff) fun a _ _ => hsame a (by omega), rfl, ?_, hv⟩
  exact decide_eq_true ⟨hl.trans ht.headerLen, by rw [hv, hval, ht.value]⟩

/-- Settles O30: a changed byte of the header's length field fails the length comparison, any other the value's. -/
theorem fpDetectsChangedByte : Obligations.FpDetectsChangedByte := by
  intro s t u b h herr hlen hoff hb hne hsame
  have ht := exec_fpGen_sealedAt h herr
  have hp := ht.header
  refine ⟨_, ht.exec_fpChk hlen (congrArg _ hoff) fun a _ _ => hsame a (by omega) (by omega), rfl, ?_⟩
  refine decide_eq_false ?_
  rintro ⟨hl, hval⟩
  obtain hfield | ⟨h2, h3⟩ : (2 ≤ b ∧ b < 2 + 2) ∨ (b ≠ 2 ∧ b ≠ 3) := by omega
  · exact hne (State.msgAt_eq_of_memRead_eq (hl.trans ht.headerLen.symm) hfield.1 hfield.2)
  · have hstored : u.memRead (s.msgLen.toNat + 4) 4 = t.memRead (s.msgLen.toNat + 4) 4 :=
      State.memRead_congr fun x _ _ => hsame x (by omega) (by omega)
    have hv : fpValueOf u (s.msgLen.toNat - 12) s.msgLen.toNat = fpValueOf t (s.msgLen.toNat - 12) s.msgLen.toNat := by
      apply BitVec.eq_of_toNat_eq
      rw [← hval, hstored, ht.value, ht.fpValue]
    exact fpValueOf_ne_of_msgAt_ne (by omega) hb h2 h3 hne (fun x hx => hsame x (by omega)) hv

/-- Settles O31: a changed byte of the stored value fails its comparison, one of the head the check for the trailer. -/
theorem fpTrailerChangesDetected : Obligations.FpTrailerChangesDetected := by
  intro s t u b h herr hlen hoff hne hsame
  have ht := exec_fpGen_sealedAt h herr
  have hp := ht.header
  refine ⟨fun hlo hhi => ?_, fun hlo hhi => ?_⟩
  · refine ⟨_, ht.exec_fpChk hlen (congrArg _ hoff) fun a _ _ => hsame a (by omega) (by omega), rfl, ?_⟩
    have hv : fpValueOf u (s.msgLen.toNat - 12) s.msgLen.toNat = t.fpValue :=
      (fpValueOf_congr (fun x _ _ _ => hsame x (by omega) (by omega)) (by omega)).trans ht.fpValue.symm
    rw [hv]
    exact decide_eq_false fun ⟨_, hval⟩ =>
      hne (State.msgAt_eq_of_memRead_eq (hval.trans ht.value.symm) hlo (by omega))
  · refine exec_of_error ((check_passes (ht.msgLenOK hlen)).trans (if_pos ?_))
    rw [hoff]
    rintro ⟨-, -, -, htype, hl⟩
    obtain hlow | hhigh : b < s.msgLen.toNat + 2 ∨ s.msgLen.toNat + 2 ≤ b := by omega
    · exact hne (State.msgAt_eq_of_memRead_eq (htype.trans ht.type.symm) hlo hlow)
    · exact hne (State.msgAt_eq_of_memRead_eq (hl.trans ht.len.symm) hhigh (by omega))

/-- Settles O32: each generator leaves a legal MSG_LEN and a TSTATE that the next one's check refuses. -/
theorem trailerOrderEnforced : Obligations.TrailerOrderEnforced := by
  refine ⟨fun s t h herr => ?_, fun s t h herr => ?_⟩
  · have hlen := (exec_fpGen_sealedAt h herr).msgLenOK (u := t) rfl
    obtain ⟨-, hord, -, rfl⟩ := exec_fpGen_success h herr
    refine ⟨?_, rfl, exec_fpGen_of_fpDone hlen rfl, fun hkey => exec_miGen_of_not_opened hlen hkey nofun⟩
    cases hs : s.tstate with
    | opened => exact .inl rfl
    | miDone => exact .inr rfl
    | fpDone => exact absurd hs hord
  · obtain ⟨hlen, hkey, hord, hfit, rfl⟩ := exec_miGen_success h herr
    have hlen' := (msgLenOK_finish _ false).mpr (msgLenOK_miGenState hlen hfit)
    have hkey' := (keyLenOK_finish _ false).mpr (keyLenOK_miGenState hkey)
    exact ⟨hord, rfl, exec_miGen_of_not_opened hlen' hkey' nofun⟩

/-- Settles O59: each recursion is the fold the rules write, and the check values are evaluated. -/
theorem crc32AndSha1AsSpecified : Obligations.Crc32AndSha1AsSpecified := by
  refine ⟨fun s => ?crc, ?crcDigits, ?crcEmpty, fun s => ?pad, fun m hm => ?schedule, fun h m => ?block,
    fun s => ?sha1, ?abc, ?empty, ?twoBlocks⟩
  case crcDigits | crcEmpty | abc | empty | twoBlocks => decide +kernel
  case crc =>
    have hbyte : crcByte = fun c b => (List.range 8).foldl (fun c _ => crcBit c) (c ^^^ b.setWidth 32) :=
      funext fun c => funext fun b => crcBits_eq_foldl 8 _
    rw [crc32, hbyte]; rfl
  case pad =>
    refine ⟨(119 - s.length % 64) % 64, rfl, ?_, fun j hj => ?_⟩ <;> omega
  case schedule =>
    refine ⟨shaSchedule_length m, fun t ht => ?_, fun t h16 h80 => ?_⟩
    · rw [shaSchedule_first ht, wordAt_toNat (by omega)]
    · exact shaExtend_new 64 _ (by simp) (by simpa using h16) (by simpa using h80)
  case block =>
    rw [shaBlock, shaRounds_eq_foldl, shaSchedule_length]
    simp only [Nat.zero_add]
    rfl
  case sha1 => rw [sha1, shaBlocks_eq_foldl]; rfl

/-- Settles O28: the checks in turn, and what the completion then answers. -/
theorem fpChkOutcome : Obligations.FpChkOutcome := by
  intro s n p v
  rw [exec_eq, cmdResult, fpChk]
  simp only [apply_ite s.complete, State.complete_error, State.complete_ok]
  refine congrArg Host.Outcome.next ?_
  refine ite_congr rfl (fun _ => rfl) fun _ => ite_congr rfl (fun _ => rfl) fun htrailer => ?_
  have hL : p - 20 + 8 = p - 12 := by have := (not_not.mp htrailer).1; omega
  change (s.setFp (fpValueOf s (p - 20 + 8) p)).finish _ = _
  rw [hL]; rfl

end Sys2Proof.Machine
end

section
/-! SUPPORT. The laws behind the statements of the message-integrity engine: the length of the prepared key, MAC0..4 as a
string, the MAC over the message before a trailer, the message MI.GEN leaves, what the generators leave alone, and what
MI.CHK makes of a signed message. -/

namespace Sys2Proof.Machine

open Sys2Proof

/-! ### The prepared key (42_message_integrity R184) -/

/-- Only a key of more than 64 bytes is hashed. -/
theorem hmacKey_of_le {k : List Byte} (h : k.length ≤ 64) : hmacKey k = k ++ zeros (64 - k.length) := by
  rw [hmacKey, if_neg (Nat.not_lt.mpr h)]

theorem hmacKey_length (k : List Byte) : (hmacKey k).length = 64 := by
  have pad {j : List Byte} (hj : j.length ≤ 64) : (j ++ zeros (64 - j.length)).length = 64 := by simp [hj]
  rw [hmacKey]
  split
  · exact pad (by simp)
  · exact pad (by omega)

/-- Zeros at a short key's end are padding that is written out (42_message_integrity R188). -/
theorem hmacKey_append_zeros {k : List Byte} {n : Nat} (h : k.length + n ≤ 64) : hmacKey (k ++ zeros n) = hmacKey k := by
  rw [hmacKey_of_le (by simpa using h), hmacKey_of_le (by omega), List.append_assoc, List.length_append, zeros_length,
    zeros, zeros, zeros, ← List.replicate_add, show n + (64 - (k.length + n)) = 64 - k.length by omega]

/-- A key enters the HMAC only through its prepared form. -/
theorem hmac_congr_hmacKey {k k' : List Byte} (h : hmacKey k' = hmacKey k) (s : List Byte) : hmac k' s = hmac k s := by
  rw [hmac, hmac, h]

/-! ### MAC0..4 (10_state R51) -/

/-- MAC0..4 as one string of 20 bytes. -/
def State.macBytes (s : State) : List Byte :=
  be32 s.mac0 ++ be32 s.mac1 ++ be32 s.mac2 ++ be32 s.mac3 ++ be32 s.mac4

@[simp] theorem State.macBytes_finish (s : State) (m : Bool) : (s.finish m).macBytes = s.macBytes := rfl

@[simp] theorem State.macBytes_setMsgLen (s : State) (v : Word) (t : TState) :
    (s.setMsgLen v t).macBytes = s.macBytes := rfl

@[simp] theorem State.macBytes_storeMsg (s : State) (a : Nat) (bs : List Byte) :
    (s.storeMsg a bs).macBytes = s.macBytes := rfl

@[simp] theorem State.macBytes_memWrite (s : State) (a n v : Nat) : (s.memWrite a n v).macBytes = s.macBytes := rfl

theorem be32_wordAt {bs : List Byte} {k : Nat} (h : 4 * k + 4 ≤ bs.length) :
    be32 (wordAt bs k) = (bs.drop (4 * k)).take 4 := be32_wordOf _ (by simp; omega)

/-- MAC0..4 hold the 20 bytes they are set from. -/
theorem State.macBytes_setMac (s : State) {h : List Byte} (hl : h.length = 20) : (s.setMac h).macBytes = h := by
  change be32 (wordAt h 0) ++ be32 (wordAt h 1) ++ be32 (wordAt h 2) ++ be32 (wordAt h 3) ++ be32 (wordAt h 4) = h
  simp (disch := omega) only [be32_wordAt]
  rw [Nat.mul_zero, List.drop_zero, ← List.take_add, ← List.take_add, ← List.take_add, ← List.take_add]
  exact List.take_of_length_le hl.le

/-! ### Reads of the buffers after a store and after a completion -/

theorem State.memRead_storeMsg_outside (s : State) {a b k : Nat} {bs : List Byte} (h : b + k ≤ a ∨ a + bs.length ≤ b) :
    (s.storeMsg a bs).memRead b k = s.memRead b k :=
  State.memRead_congr fun _ _ _ => s.msgAt_storeMsg_outside (by omega)

theorem State.memBytes_memWrite_outside (s : State) {a n v b k : Nat} (h : b + k ≤ a ∨ a + n ≤ b) :
    (s.memWrite a n v).memBytes b k = s.memBytes b k :=
  State.memBytes_congr fun _ _ _ => s.msgAt_memWrite_outside (by omega)

theorem State.memBytes_storeMsg_of_length (s : State) {a n : Nat} {bs : List Byte} (h : bs.length = n) :
    (s.storeMsg a bs).memBytes a n = bs := h ▸ s.memBytes_storeMsg a bs

@[simp] theorem State.memBytes_setMsgLen (s : State) (v : Word) (t : TState) (a n : Nat) :
    (s.setMsgLen v t).memBytes a n = s.memBytes a n := rfl

@[simp] theorem State.memBytes_finish (s : State) (m : Bool) (a n : Nat) :
    (s.finish m).memBytes a n = s.memBytes a n := rfl

@[simp] theorem State.memRead_finish (s : State) (m : Bool) (a n : Nat) :
    (s.finish m).memRead a n = s.memRead a n := rfl

@[simp] theorem State.keyAt_finish (s : State) (m : Bool) (k : Nat) : (s.finish m).keyAt k = s.keyAt k := rfl

/-! ### The MAC over the message before a trailer (42_message_integrity R186, R187) -/

/-- The HMAC over MSG[0..p), its length field read as if the message ended with a MESSAGE-INTEGRITY trailer at `p`. -/
def miMac (s : State) (p : Nat) : List Byte := hmac (macKey s) (span s (p + 4) p)

@[simp] theorem miMac_length (s : State) (p : Nat) : (miMac s p).length = 20 := hmac_length _ _

theorem miGenMac_eq_miMac {s : State} (h : 20 ≤ s.msgLen.toNat) : miGenMac s = miMac s s.msgLen.toNat := by
  rw [miGenMac, miMac, show s.msgLen.toNat - 20 + 24 = s.msgLen.toNat + 4 by omega]

theorem macKey_congr {s t : State} (hlen : t.keyLen = s.keyLen)
    (hkey : ∀ k, k < s.keyLen.toNat → t.keyAt k = s.keyAt k) : macKey t = macKey s := by
  rw [macKey, macKey, hlen, State.keyBytes_congr hkey]

/-- The MAC depends on the key and on the message before the trailer, but not on the header's length field. -/
theorem miMac_congr {s t : State} {p : Nat} (hp : 4 ≤ p) (hkey : macKey t = macKey s)
    (hmsg : ∀ a, a < p → a ≠ 2 → a ≠ 3 → t.msgAt a = s.msgAt a) : miMac t p = miMac s p := by
  rw [miMac, miMac, hkey, span_congr hmsg hp]

/-! ### The message MI.GEN leaves (42_message_integrity R186) -/

/-- A MESSAGE-INTEGRITY trailer at `p` holds the MAC of the message before it, under a key of legal length. -/
structure State.SignedAt (t : State) (p : Nat) : Prop where
  header : 20 ≤ p
  aligned : p % 4 = 0
  keyLen : keyLenOK t
  type : t.memRead p 2 = 0x0008
  len : t.memRead (p + 2) 2 = 0x0014
  mac : t.memBytes (p + 4) 20 = miMac t p

theorem miGenState_macBytes (s : State) : (miGenState s).macBytes = miGenMac s := by
  have hmac : (miGenMac s).length = 20 := hmac_length _ _
  rw [miGenState, State.macBytes_setMsgLen, State.macBytes_memWrite, State.macBytes_storeMsg, State.macBytes_memWrite,
    State.macBytes_memWrite, State.macBytes_setMac _ hmac]

theorem miGenState_msgLen {s : State} (hfit : s.msgLen.toNat + 24 ≤ 4096) :
    (miGenState s).msgLen.toNat = s.msgLen.toNat + 24 := by
  simp (disch := omega) only [miGenState, State.setMsgLen_msgLen, BitVec.toNat_ofNat, Nat.mod_eq_of_lt]

theorem miGenState_headerLen {s : State} (hlen : msgLenOK s) : (miGenState s).memRead 2 2 = s.msgLen.toNat + 4 := by
  obtain ⟨hmin, hmax, -⟩ := hlen
  rw [bufBytes_eq] at hmax
  rw [miGenState, State.memRead_setMsgLen, State.memRead_memWrite]
  omega

/-- The stored MAC stands in the trailer: the header's length field, written after it, lies before it. -/
theorem memBytes_miGenState {s : State} (hmin : 20 ≤ s.msgLen.toNat) :
    (miGenState s).memBytes (s.msgLen.toNat + 4) 20 = miGenMac s := by
  have hmac : (miGenMac s).length = 20 := hmac_length _ _
  simp (disch := omega) only [miGenState, State.memBytes_setMsgLen, State.memBytes_memWrite_outside,
    State.memBytes_storeMsg_of_length _ hmac]

theorem miGenState_keyLen (s : State) : (miGenState s).keyLen = s.keyLen := by simp [miGenState]

theorem keyAt_miGenState (s : State) (k : Nat) : (miGenState s).keyAt k = s.keyAt k :=
  State.keyAt_congr (by simp [miGenState]) (by simp [miGenState]) k

theorem miGenState_signedAt {s : State} (hlen : msgLenOK s) (hkey : keyLenOK s) :
    (miGenState s).SignedAt s.msgLen.toNat := by
  obtain ⟨hmin, -, h4⟩ := hlen
  have hmac : (miGenMac s).length = 20 := hmac_length _ _
  refine ⟨hmin, h4, keyLenOK_miGenState hkey, ?type, ?len, ?mac⟩
  case type | len =>
    simp (disch := omega) only [miGenState, State.memRead_setMsgLen, State.memRead_memWrite_outside,
      State.memRead_storeMsg_outside, State.memRead_memWrite, Nat.mod_eq_of_lt]
  case mac =>
    rw [memBytes_miGenState hmin, miGenMac_eq_miMac hmin]
    exact (miMac_congr (by omega) (macKey_congr (miGenState_keyLen s) fun k _ => keyAt_miGenState s k)
      fun a ha h2 h3 => msgAt_miGenState_outside s h2 h3 (.inl ha)).symm

theorem State.SignedAt.finish {t : State} {p : Nat} (ht : t.SignedAt p) (m : Bool) : (t.finish m).SignedAt p :=
  { ht with }

theorem exec_miGen_signedAt {s t : State} (h : exec .miGen s = .next t) (herr : t.err = false) :
    t.SignedAt s.msgLen.toNat := by
  obtain ⟨hlen, hkey, -, -, rfl⟩ := exec_miGen_success h herr
  exact (miGenState_signedAt hlen hkey).finish false

theorem exec_miGen_msgLen {s t : State} (h : exec .miGen s = .next t) (herr : t.err = false) :
    t.msgLen.toNat = s.msgLen.toNat + 24 := by
  obtain ⟨-, -, -, hfit, rfl⟩ := exec_miGen_success h herr
  rw [State.finish_msgLen, miGenState_msgLen hfit]

/-- A message stays signed as long as the key and MSG[0..p+24) but for the header's length field stay
(42_message_integrity R188). -/
theorem State.SignedAt.congr {t u : State} {p : Nat} (ht : t.SignedAt p) (hlen : u.keyLen = t.keyLen)
    (hkey : ∀ k, k < t.keyLen.toNat → u.keyAt k = t.keyAt k)
    (hmsg : ∀ a, a < p + 24 → a ≠ 2 → a ≠ 3 → u.msgAt a = t.msgAt a) : u.SignedAt p := by
  obtain ⟨hmin, h4, hok, htype, hl, hmac⟩ := ht
  have trailer (a : Nat) (hlo : p ≤ a) (hhi : a < p + 24) : u.msgAt a = t.msgAt a :=
    hmsg a hhi (by omega) (by omega)
  refine ⟨hmin, h4, by rwa [keyLenOK, hlen], ?type, ?len, ?mac⟩
  case type => exact (State.memRead_congr fun a _ _ => trailer a (by omega) (by omega)).trans htype
  case len => exact (State.memRead_congr fun a _ _ => trailer a (by omega) (by omega)).trans hl
  case mac =>
    rw [miMac_congr (by omega) (macKey_congr hlen hkey) fun a ha => hmsg a (by omega), ← hmac]
    exact State.memBytes_congr fun a _ _ => trailer a (by omega) (by omega)

/-! ### What the generators leave alone (41_fingerprint R163, 42_message_integrity R186) -/

theorem exec_miGen_keeps_key {s t : State} (h : exec .miGen s = .next t) (herr : t.err = false) :
    t.keyLen = s.keyLen ∧ ∀ k, t.keyAt k = s.keyAt k := by
  obtain ⟨-, -, -, -, rfl⟩ := exec_miGen_success h herr
  exact ⟨by rw [State.finish_keyLen, miGenState_keyLen], fun k => by rw [State.keyAt_finish, keyAt_miGenState]⟩

/-- FP.GEN leaves the key and the message before its trailer but for the header's length field. -/
theorem exec_fpGen_keeps {s t : State} (h : exec .fpGen s = .next t) (herr : t.err = false) :
    t.keyLen = s.keyLen ∧ (∀ k, t.keyAt k = s.keyAt k) ∧
      ∀ a, a < s.msgLen.toNat → a ≠ 2 → a ≠ 3 → t.msgAt a = s.msgAt a := by
  obtain ⟨-, -, -, rfl⟩ := exec_fpGen_success h herr
  refine ⟨by simp [fpGenState], State.keyAt_congr (by simp [fpGenState]) (by simp [fpGenState]), fun a ha h2 h3 => ?_⟩
  exact msgAt_fpGenState_outside s h2 h3 (.inl ha)

/-! ### MI.CHK (42_message_integrity R187) -/

/-- With a trailer at ATTR_OFF, MI.CHK completes and compares the stored value with the MAC. -/
theorem exec_miChk_of_trailerAt {s : State} (hlen : msgLenOK s) (hkey : keyLenOK s)
    (htrailer : trailerAt s s.attrOff.toNat 0x0008 0x0014) :
    exec .miChk s = .next ((s.setMac (miMac s s.attrOff.toNat)).finish
      (decide (miMac s s.attrOff.toNat = s.memBytes (s.attrOff.toNat + 4) 20))) := by
  refine exec_of_ok ((miChk_ok_iff s _).mpr ⟨hlen, hkey, htrailer, ?_⟩)
  rw [miMac, show s.attrOff.toNat - 20 + 24 = s.attrOff.toNat + 4 by have := htrailer.1; omega]

/-- A signed message verifies wherever MSG_LEN covers its trailer. -/
theorem State.SignedAt.exec_miChk {u : State} {p : Nat} (hu : u.SignedAt p) (hlen : msgLenOK u)
    (hcover : p + 24 ≤ u.msgLen.toNat) (hoff : u.attrOff.toNat = p) :
    exec .miChk u = .next ((u.setMac (miMac u p)).finish true) := by
  subst hoff
  rw [exec_miChk_of_trailerAt hlen hu.keyLen ⟨hu.header, hu.aligned, hcover, hu.type, hu.len⟩,
    decide_eq_true hu.mac.symm]

end Sys2Proof.Machine
end

section
/-! The statements of 42_message_integrity, settled. -/

namespace Sys2Proof.Machine

open Sys2Proof

/-- Settles O33: the checks in turn, and the message MI.GEN leaves. -/
theorem miGenOutcome : Obligations.MiGenOutcome := by
  intro s n lenOk h
  refine ⟨fun hlen => exec_of_error (if_pos hlen),
    fun hlen hkey => exec_of_error ((check_passes hlen).trans (if_pos hkey)),
    exec_miGen_of_not_opened,
    fun hlen hkey hord hfit => exec_of_error ((check_passes hlen).trans ((check_passes hkey).trans
      ((if_neg (not_not_intro hord)).trans (if_pos fun hroom => hfit hroom.1)))),
    fun hlen hkey hord hfit =>
      ⟨_, exec_of_ok ((miGen_ok_iff s _).mpr ⟨hlen, hkey, hord, hfit, rfl⟩), ?_, ?_⟩⟩
  · have hframe := miGenState_frame s
    have hmsgLen : (miGenState s).msgLen = BitVec.ofNat 32 (n + 24) := rfl
    have htstate : (miGenState s).tstate = .miDone := rfl
    -- From here the frame alone counts, and MI.GEN's state need not be computed.
    generalize miGenState s = u at hframe hmsgLen htstate ⊢
    rw [← hmsgLen, ← htstate]
    exact congrArg (State.finish · false) hframe
  · have ht := (miGenState_signedAt hlen hkey).finish false
    have hmac : miGenMac s = h := miGenMac_eq_miMac hlen.1
    refine ⟨?macs, ht.type, ht.len, ?stored, ?headerLen, fun a h2 h3 ha => ?frame⟩
    case macs => exact (State.macBytes_finish _ false).trans ((miGenState_macBytes s).trans hmac)
    case stored => rw [State.memBytes_finish, memBytes_miGenState hlen.1, hmac]
    case headerLen => rw [State.memRead_finish, miGenState_headerLen hlen]
    case frame => rw [State.msgAt_finish, msgAt_miGenState_outside s h2 h3 ha]

/-- Settles O35: what MI.CHK reads, the header's length field not among it, is as MI.GEN left it. -/
theorem miGenThenChkMatches : Obligations.MiGenThenChkMatches := by
  intro s t u h herr ⟨hcover, hmax, h4⟩ hoff hkeyLen hkey hmsg
  obtain ⟨htLen, htKey⟩ := exec_miGen_keeps_key h herr
  have hu : u.SignedAt s.msgLen.toNat := by
    refine (exec_miGen_signedAt h herr).congr (hkeyLen.trans htLen.symm) (fun k hk => ?_) hmsg
    rw [htKey, hkey k (htLen ▸ hk)]
  have hp := hu.header
  rw [exec_miGen_msgLen h herr] at hcover
  have hlen : msgLenOK u := ⟨by omega, hmax, h4⟩
  exact ⟨_, hu.exec_miChk hlen hcover (congrArg _ hoff), rfl, rfl⟩

/-- Settles O36: of what MI.CHK reads FP.GEN writes the header's length field only, and FP.GEN's own message verifies. -/
theorem bothTrailersVerify : Obligations.BothTrailersVerify := by
  intro s t u hmi hmiErr hfp hfpErr
  have hsealed := exec_fpGen_sealedAt hfp hfpErr
  have hmsgLen := exec_miGen_msgLen hmi hmiErr
  obtain ⟨hkeyLen, hkey, hmsg⟩ := exec_fpGen_keeps hfp hfpErr
  constructor
  · have hu : State.SignedAt { u with attrOff := s.msgLen } s.msgLen.toNat :=
      (exec_miGen_signedAt hmi hmiErr).congr hkeyLen (fun k _ => hkey k) fun a ha => hmsg a (by omega)
    have hcover : s.msgLen.toNat + 24 ≤ u.msgLen.toNat := by rw [hsealed.msgLen]; omega
    exact ⟨_, hu.exec_miChk (hsealed.msgLenOK rfl) hcover rfl, rfl, rfl⟩
  · obtain ⟨v, hv, herr, hmatched, -⟩ :=
      fpGenThenChkMatches t u { u with attrOff := t.msgLen } hfp hfpErr rfl rfl fun _ _ => rfl
    exact ⟨v, hv, herr, hmatched⟩

/-- Settles O37: the two keys have one prepared form. -/
theorem trailingZeroKeysCollide : Obligations.TrailingZeroKeysCollide := fun _ s _ h =>
  hmac_congr_hmacKey (hmacKey_append_zeros h) s

/-- Settles O60: the formulas are the definitions, and the check values are evaluated. -/
theorem hmacAsSpecified : Obligations.HmacAsSpecified := by
  refine ⟨fun _ => rfl, hmacKey_of_le (Nat.zero_le 64), fun k s => ⟨rfl, hmacKey_length k, hmac_length k s⟩,
    fun _ => rfl, ?shortKey, ?asciiKey, ?longKey⟩
  case shortKey | asciiKey | longKey => decide +kernel

/-- Settles O34: the checks in turn, and what the completion then answers. -/
theorem miChkOutcome : Obligations.MiChkOutcome := by
  intro s n p h
  refine ⟨fun hlen => exec_of_error (if_pos hlen),
    fun hlen hkey => exec_of_error ((check_passes hlen).trans (if_pos hkey)),
    fun hlen hkey habsent => exec_of_error ((check_passes hlen).trans ((check_passes hkey).trans (if_pos habsent))),
    fun hlen hkey htrailer => ⟨_, exec_miChk_of_trailerAt hlen hkey htrailer, rfl, ?_⟩⟩
  exact s.macBytes_setMac (miMac_length s p)

end Sys2Proof.Machine
end

section
/-! SUPPORT. The laws behind the locator's statements: where the walk over the attributes goes and that it ends, how
LOCATE ends where the walk has reached, and what it leaves when it finds. -/

namespace Sys2Proof.Machine

open Sys2Proof

/-! ### The offsets of the walk (30_encoding R122, 43_locate R210) -/

/-- The next TLV is at the least multiple of 4 from the end of the value on. -/
theorem nextTLV_bounds (p l : Nat) :
    nextTLV p l % 4 = 0 ∧ p + 4 + l ≤ nextTLV p l ∧ nextTLV p l < p + 4 + l + 4 := by rw [nextTLV]; omega

/-- No next TLV starts past an aligned end that the value before it does not pass. -/
theorem nextTLV_le {p l n : Nat} (hfit : p + 4 + l ≤ n) (h4 : n % 4 = 0) : nextTLV p l ≤ n := by
  have := nextTLV_bounds p l
  omega

theorem walkPos_zero (s : State) : walkPos s 0 = 20 := rfl

theorem walkPos_succ (s : State) (k : Nat) :
    walkPos s (k + 1) = nextTLV (walkPos s k) (s.memRead (walkPos s k + 2) 2) := rfl

/-- Every TLV takes 4 bytes at least. -/
theorem le_walkPos (s : State) (k : Nat) : 20 + 4 * k ≤ walkPos s k := by
  induction k with
  | zero => exact Nat.le_refl 20
  | succ k ih =>
    have := nextTLV_bounds (walkPos s k) (s.memRead (walkPos s k + 2) 2)
    rw [walkPos_succ]
    omega

/-- The walk goes on past a TLV: it starts inside the message, lies inside it and is of another type. -/
abbrev walkPasses (s : State) (pos : Nat) : Prop :=
  pos < s.msgLen.toNat ∧ tlvFits s pos ∧ s.memRead pos 2 ≠ s.attrType.toNat

theorem walkReaches_succ_iff (s : State) (k : Nat) :
    walkReaches s (k + 1) ↔ walkReaches s k ∧ walkPasses s (walkPos s k) := Nat.forall_lt_succ_right

/-- An offset the walk reaches is inside the message or exactly its end (43_locate R211). -/
theorem walkPos_le {s : State} {k : Nat} (hlen : msgLenOK s) (hk : walkReaches s k) : walkPos s k ≤ s.msgLen.toNat := by
  obtain ⟨hmin, -, h4⟩ := hlen
  cases k with
  | zero => exact hmin
  | succ k =>
    obtain ⟨-, ⟨-, ⟨-, hfit⟩, -⟩⟩ := (walkReaches_succ_iff s k).mp hk
    exact nextTLV_le hfit h4

/-- The offsets rise, so the walk reaches a TLV it does not pass. -/
theorem exists_walkReaches_not_walkPasses (s : State) : ∃ k, walkReaches s k ∧ ¬ walkPasses s (walkPos s k) := by
  have hex : ∃ k, ¬ walkPasses s (walkPos s k) := by
    refine ⟨s.msgLen.toNat, fun hpass => ?_⟩
    have := le_walkPos s s.msgLen.toNat
    have := hpass.1
    omega
  exact ⟨Nat.find hex, fun j hj => not_not.mp (Nat.find_min hex hj), Nat.find_spec hex⟩

/-! ### LOCATE where the walk has reached (43_locate R210) -/

/-- One TLV of LOCATE's walk, in the terms of the statements. -/
theorem locateWalk_succ_tlvFits (s : State) (fuel pos : Nat) :
    locateWalk s s.msgLen.toNat s.attrType.toNat (fuel + 1) pos =
      if s.msgLen.toNat ≤ pos then .notFound
      else if ¬ tlvFits s pos then .truncated
      else if s.memRead pos 2 = s.attrType.toNat then .found pos
      else locateWalk s s.msgLen.toNat s.attrType.toNat fuel (nextTLV pos (s.memRead (pos + 2) 2)) := by
  rw [locateWalk_succ]
  refine ite_congr rfl (fun _ => rfl) fun _ => ?_
  by_cases hhead : s.msgLen.toNat < pos + 4
  · rw [if_pos hhead, if_pos fun hfit => Nat.not_le.mpr hhead hfit.1]
  · by_cases hvalue : s.msgLen.toNat < pos + 4 + s.memRead (pos + 2) 2
    · rw [if_neg hhead, if_pos hvalue, if_pos fun hfit => Nat.not_le.mpr hvalue hfit.2]
    · rw [if_neg hhead, if_neg hvalue, if_neg (not_not_intro ⟨Nat.not_lt.mp hhead, Nat.not_lt.mp hvalue⟩)]

theorem locateWalk_of_walkPasses {s : State} {pos : Nat} (h : walkPasses s pos) (fuel : Nat) :
    locateWalk s s.msgLen.toNat s.attrType.toNat (fuel + 1) pos =
      locateWalk s s.msgLen.toNat s.attrType.toNat fuel (nextTLV pos (s.memRead (pos + 2) 2)) := by
  obtain ⟨hin, hfit, hother⟩ := h
  rw [locateWalk_succ_tlvFits, if_neg (Nat.not_le.mpr hin), if_neg (not_not_intro hfit), if_neg hother]

/-- A walk from 20 is the walk from any offset it reaches, with the fuel that is left. -/
theorem locateWalk_eq_of_walkReaches {s : State} {k : Nat} (hk : walkReaches s k) (fuel : Nat) :
    locateWalk s s.msgLen.toNat s.attrType.toNat (fuel + k) 20 =
      locateWalk s s.msgLen.toNat s.attrType.toNat fuel (walkPos s k) := by
  induction k generalizing fuel with
  | zero => rfl
  | succ k ih =>
    obtain ⟨hk, hpass⟩ := (walkReaches_succ_iff s k).mp hk
    rw [← Nat.add_assoc, Nat.add_right_comm, ih hk (fuel + 1), locateWalk_of_walkPasses hpass, walkPos_succ]

/-- The state LOCATE leaves, by how its walk ends. -/
def locateEnd (s : State) : WalkEnd → State
  | .found pos => (s.setAttrOff (BitVec.ofNat 32 pos)).finish true
  | .notFound => s.finish false
  | .truncated => s.fail .truncated

theorem exec_locate_eq {s : State} (hlen : msgLenOK s) :
    exec .locate s = .next (locateEnd s
      (locateWalk s s.msgLen.toNat s.attrType.toNat (s.msgLen.toNat / 4) 20)) := by
  rw [exec_eq, cmdResult, locate, check_passes hlen]
  cases locateWalk s s.msgLen.toNat s.attrType.toNat (s.msgLen.toNat / 4) 20 <;> rfl

/-- The fuel never runs out: where the walk has reached, LOCATE looks at the TLV there (43_locate R211, log 11). -/
theorem exec_locate_of_walkReaches {s : State} {k : Nat} (hlen : msgLenOK s) (hk : walkReaches s k) :
    ∃ fuel, exec .locate s = .next (locateEnd s
      (locateWalk s s.msgLen.toNat s.attrType.toNat (fuel + 1) (walkPos s k))) := by
  obtain ⟨fuel, hfuel⟩ : ∃ fuel, s.msgLen.toNat / 4 = fuel + 1 + k := by
    have := le_walkPos s k
    have := walkPos_le hlen hk
    exact ⟨s.msgLen.toNat / 4 - 1 - k, by omega⟩
  exact ⟨fuel, by rw [exec_locate_eq hlen, hfuel, locateWalk_eq_of_walkReaches hk]⟩

/-! ### What LOCATE leaves when it finds (43_locate R211) -/

/-- On MATCH = 1 a TLV of type ATTR_TYPE, of whatever length, stands inside the message at ATTR_OFF. -/
theorem exec_locate_matched {s t : State} (h : exec .locate s = .next t) (hm : t.matched = true) :
    msgLenOK t ∧ trailerAt t t.attrOff.toNat t.attrType.toNat (t.memRead (t.attrOff.toNat + 2) 2) := by
  obtain ⟨u, m, hr, rfl⟩ | ⟨c, -, rfl⟩ := exec_cases h
  · obtain ⟨hlen, ⟨pos, hwalk, hu⟩ | ⟨-, hu⟩⟩ := (locate_ok_iff s _).mp hr <;> cases hu
    · obtain ⟨hmin, h4, hfit, htype⟩ := locateWalk_found hwalk rfl
      have hpos : (BitVec.ofNat 32 pos).toNat = pos := by
        have := s.msgLen.isLt
        exact Nat.mod_eq_of_lt (by omega)
      refine ⟨hlen, ?_⟩
      rw [State.finish_attrOff, State.setAttrOff_attrOff, hpos]
      exact ⟨hmin, h4, Nat.add_assoc pos 4 _ ▸ hfit, htype, rfl⟩
    · cases hm
  · cases hm

/-! ### ABSENT needs that there is no trailer (41_fingerprint R164, 42_message_integrity R187) -/

/-- An error code other than 0 is that of the command's failed check. -/
theorem cmdResult_eq_error {i : Instr} {s t : State} {c : ErrCode} (h : exec i s = .next t) (hc : t.errcode = c)
    (hne : c ≠ .ok) : cmdResult i s = .error c := by
  obtain ⟨u, m, -, rfl⟩ | ⟨c', hr, rfl⟩ := exec_cases h
  · exact absurd hc.symm hne
  · cases hc; exact hr

theorem not_trailerAt_of_fpChk_absent {t u : State} (hlen : msgLenOK t) (h : exec .fpChk t = .next u)
    (habsent : u.errcode = .absent) : ¬ trailerAt t t.attrOff.toNat 0x8028 0x0004 := by
  intro htrailer
  have herr : fpChk t = .error .absent := cmdResult_eq_error h habsent nofun
  exact nomatch herr.symm.trans ((fpChk_ok_iff t _).mpr ⟨hlen, htrailer, rfl⟩)

theorem not_trailerAt_of_miChk_absent {t u : State} (hlen : msgLenOK t) (h : exec .miChk t = .next u)
    (habsent : u.errcode = .absent) : ¬ trailerAt t t.attrOff.toNat 0x0008 0x0014 := by
  intro htrailer
  have herr : miChk t = .error .absent := cmdResult_eq_error h habsent nofun
  by_cases hkey : keyLenOK t
  · exact nomatch herr.symm.trans ((miChk_ok_iff t _).mpr ⟨hlen, hkey, htrailer, rfl⟩)
  · exact nomatch herr.symm.trans ((check_passes hlen).trans (if_pos hkey))

end Sys2Proof.Machine
end

section
/-! The statements of 43_locate, settled. -/

namespace Sys2Proof.Machine

open Sys2Proof

/-- Settles O38: LOCATE looks at the TLV the walk has reached, and the walk reaches one it does not pass. -/
theorem locateOutcome : Obligations.LocateOutcome := by
  refine ⟨fun s hlen => ⟨fun k hk hin hfit htype => ?found, fun k hk hend => ?notFound, fun k hk hin hrun => ?truncated,
    ?ends⟩, fun s k => ⟨walkPos_zero s, walkPos_succ s k⟩, nextTLV_bounds⟩
  case found =>
    obtain ⟨fuel, h⟩ := exec_locate_of_walkReaches hlen hk
    rw [h, locateWalk_succ_tlvFits, if_neg (Nat.not_le.mpr hin), if_neg (not_not_intro hfit), if_pos htype]
    rfl
  case notFound =>
    obtain ⟨fuel, h⟩ := exec_locate_of_walkReaches hlen hk
    rw [h, locateWalk_succ_tlvFits, if_pos hend]
    rfl
  case truncated =>
    obtain ⟨fuel, h⟩ := exec_locate_of_walkReaches hlen hk
    rw [h, locateWalk_succ_tlvFits, if_neg (Nat.not_le.mpr hin), if_pos hrun]
    rfl
  case ends =>
    obtain ⟨k, hk, hstop⟩ := exists_walkReaches_not_walkPasses s
    have hlo := le_walkPos s k
    have hhi := walkPos_le hlen hk
    refine ⟨k, by omega, hk, ?_⟩
    obtain hend | hin := hhi.eq_or_lt
    · exact .inr (.inl hend.symm)
    · by_cases hfit : tlvFits s (walkPos s k)
      · exact .inl ⟨hin, hfit, not_not.mp fun hother => hstop ⟨hin, hfit, hother⟩⟩
      · exact .inr (.inr ⟨hin, hfit⟩)

/-- Settles O39: by what the walk has checked where it finds. -/
theorem locateFindsInsideMessage : Obligations.LocateFindsInsideMessage := by
  intro s t h hm
  obtain ⟨-, hmin, h4, hfit, htype, -⟩ := exec_locate_matched h hm
  exact ⟨hmin, h4, by omega, htype⟩

/-- Settles O40: what was found is a trailer once its length is right. -/
theorem locatedTrailerAbsentOnlyByLength : Obligations.LocatedTrailerAbsentOnlyByLength := by
  intro s t u h hm
  obtain ⟨hlen, htrailer⟩ := exec_locate_matched h hm
  refine ⟨fun htype hchk habsent hl => ?fp, fun htype hchk habsent hl => ?mi⟩ <;> rw [htype, hl] at htrailer
  case fp => exact not_trailerAt_of_fpChk_absent hlen hchk habsent htrailer
  case mi => exact not_trailerAt_of_miChk_absent hlen hchk habsent htrailer

end Sys2Proof.Machine
end

section
/-! SUPPORT. The laws behind the control statements: the words of the commands are the legal ones, and what a register
reads after a completion and after SRST's reset. -/

namespace Sys2Proof

/-! ### The legal words (30_encoding R111) -/

/-- The three checks as equations on the fields. -/
theorem CmdWord.wellFormed_iff (f : CmdWord) :
    f.wellFormed = true ↔ f.rsvd = 0 ∧ f.op ∈ opcodes ∧ (f.x = true → f.op = 0x11 ∨ f.op = 0x12) := by
  have hx : f.xOk = true ↔ (f.x = true → f.op = 0x11 ∨ f.op = 0x12) := by
    cases hfx : f.x <;> simp [CmdWord.xOk, hfx]
  rw [CmdWord.wellFormed, Bool.and_eq_true, Bool.and_eq_true, hx, and_assoc]
  simp [CmdWord.rsvdOk, CmdWord.opOk]

theorem encode_wellFormed (i : Instr) : (CmdWord.ofWord (encode i)).wellFormed = true := by
  cases i with
  | nop => exact Laws.WordLegal.nop.1
  | srst => exact Laws.WordLegal.srst.1
  | xaMask => exact Laws.WordLegal.xaMask.1
  | xaEnc x => exact (Laws.WordLegal.xaEnc x).1
  | xaDec x => exact (Laws.WordLegal.xaDec x).1
  | fpGen => exact Laws.WordLegal.fpGen.1
  | fpChk => exact Laws.WordLegal.fpChk.1
  | miGen => exact Laws.WordLegal.miGen.1
  | miChk => exact Laws.WordLegal.miChk.1
  | locate => exact Laws.WordLegal.locate.1

/-- A word that fails a check is no command's word, so decoding rejects it. -/
theorem decode_error_of_not_wellFormed {w : Word} (h : ¬ (CmdWord.ofWord w).wellFormed = true) :
    ∃ e, decode w = .error e := by
  cases hd : decode w with
  | error e => exact ⟨e, rfl⟩
  | ok i =>
    obtain rfl := (decode_eq_ok_iff w i).mp hd
    exact absurd (encode_wellFormed i) h

end Sys2Proof

namespace Sys2Proof.Machine

open Sys2Proof

/-! ### The registers after a completion and after SRST's reset (10_state R60, 44_control R221) -/

/-- A completion changes STATUS and no other register. -/
theorem State.readReg_finish (s : State) (m : Bool) {r : Reg} (h : r ≠ .status) :
    (s.finish m).readReg r = s.readReg r := by
  cases r with
  | status => exact absurd rfl h
  | _ => rfl

@[simp] theorem State.readReg_resetRegs (s : State) (r : Reg) : s.resetRegs.readReg r = State.reset.readReg r := by
  cases r <;> rfl

/-- The reset values of 70_reset R261: 0 in every register but ID. -/
theorem State.readReg_reset {r : Reg} (h : r ≠ .id) : State.reset.readReg r = 0 := by
  cases r with
  | id => exact absurd rfl h
  | _ => rfl

/-- STATUS after SRST: DONE is the one field that is not 0. -/
theorem State.status_finish_resetRegs (s : State) : (s.resetRegs.finish false).status = 0x00000002 := by
  change (State.reset.finish false).status = 0x00000002
  decide

@[simp] theorem State.msgAt_resetRegs (s : State) (a : Nat) : s.resetRegs.msgAt a = s.msgAt a := rfl

@[simp] theorem State.keyAt_resetRegs (s : State) (k : Nat) : s.resetRegs.keyAt k = s.keyAt k := rfl

end Sys2Proof.Machine
end

section
/-! The statements of 44_control, settled. -/

namespace Sys2Proof.Machine

open Sys2Proof

/-- Settles O4: decoding answers the words of the commands only, and those pass the three checks. -/
theorem illegalWordCompletes : Obligations.IllegalWordCompletes := by
  intro s w ht hbad
  have hillegal : ¬ (CmdWord.ofWord w).wellFormed = true := by
    rw [CmdWord.wellFormed_iff]
    rintro ⟨hrsvd, hop, hx⟩
    rcases hbad with h | h | ⟨h, h11, h12⟩
    · exact h hrsvd
    · exact h hop
    · exact (hx h).elim h11 h12
  obtain ⟨e, he⟩ := decode_error_of_not_wellFormed hillegal
  exact ⟨step_illegal ht he, rfl⟩

/-- Settles O20: NOP is its completion alone. -/
theorem nopCompletes : Obligations.NopCompletes := fun s => exec_of_ok (i := .nop) (s := s) rfl

/-- Settles O21: SRST is the reset of the registers and then its completion, which changes STATUS alone. -/
theorem srstCompletes : Obligations.SrstCompletes := by
  intro s
  refine ⟨s.resetRegs.finish false, exec_of_ok rfl, rfl, s.status_finish_resetRegs, rfl, fun r hid hstatus => ?_, rfl,
    fun a => ?_, fun k => ?_, rfl, rfl, rfl, rfl⟩
  · rw [State.readReg_finish _ _ hstatus, State.readReg_resetRegs, State.readReg_reset hid]
  · rw [State.msgAt_finish, State.msgAt_resetRegs]
  · rw [State.keyAt_finish, State.keyAt_resetRegs]

end Sys2Proof.Machine
end

section
/-! SUPPORT. The laws behind the statements about exceptions: the two bits IRQ is made of, and the platform inputs. -/

namespace Sys2Proof.Machine

open Sys2Proof

/-! ### The IRQ level (60_exceptions R241) -/

theorem State.irq_of_not_irqEn {s : State} (h : s.irqEn = false) : s.irq = false := by simp [State.irq, h]

theorem State.irq_of_not_done {s : State} (h : s.done = false) : s.irq = false := by simp [State.irq, h]

theorem State.irq_of_irqEn_done {s : State} (hen : s.irqEn = true) (hdone : s.done = true) : s.irq = true := by
  simp [State.irq, hen, hdone]

theorem State.getLsbD_ctrl_zero (s : State) : s.ctrl.getLsbD 0 = s.irqEn :=
  (getLsbD_bitAt 0 s.irqEn (by decide)).trans (by simp)

theorem State.getLsbD_status_one (s : State) : s.status.getLsbD 1 = s.done :=
  (s.getLsbD_status (by decide)).trans (by simp)

theorem State.irqLine_pIrq (s : State) : s.irqLine Config.pIrq = s.irq := by simp [State.irqLine]

theorem State.irqLine_of_ne (s : State) {n : Nat} (h : n ≠ Config.pIrq) : s.irqLine n = false := by
  simp [State.irqLine, h]

end Sys2Proof.Machine
end

section
/-! The statements of 60_exceptions, settled. -/

namespace Sys2Proof.Machine

open Sys2Proof

/-- Settles O14: a success has ERR = 0, so the command failed, and a failure is `State.fail` alone. -/
theorem errorsArePrecise : Obligations.ErrorsArePrecise := by
  intro i s t hex herr
  obtain ⟨u, m, -, rfl⟩ | ⟨c, -, rfl⟩ := exec_cases hex
  · rw [State.finish_err] at herr
    cases herr
  · rfl

/-- Settles O53: each way to clear IRQ clears DONE or IRQ_EN, and a CTRL write is `setIrqEn` whether or not BUSY. -/
theorem irqClearedAndSet : Obligations.IrqClearedAndSet := by
  intro s t d
  refine ⟨fun hbit => ?_, fun hidle => ?_, fun hbit => ?_, fun hex => ?_, ?_, s.setIrqEn_done _, fun hbit hdone => ?_⟩
  · have hdone : (s.acknowledge d).done = false := by simp [hbit]
    exact State.irq_of_not_done hdone
  · have hissue : s.writeReg .cmd d = s.issue d := State.unlessBusy_idle hidle _
    rw [hissue]
    exact State.irq_of_not_done (s.issue_done d)
  · exact State.irq_of_not_irqEn (s := s.setIrqEn (d.getLsbD 0)) hbit
  · have hsrst : exec .srst s = .next (s.resetRegs.finish false) := exec_of_ok rfl
    cases hsrst.symm.trans hex
    exact State.irq_of_not_irqEn rfl
  · exact State.irq_of_not_irqEn (s := s.hwReset.setHostPc (s.hostPc + 1)) s.hwReset_irqEn
  · exact State.irq_of_irqEn_done (s := s.setIrqEn (d.getLsbD 0)) hbit hdone

/-- Settles O52: bit 0 of CTRL is IRQ_EN and bit 1 of STATUS is DONE. -/
theorem irqLevel : Obligations.IrqLevel := by
  intro s
  refine ⟨?_, s.irqLine_pIrq, fun n => s.irqLine_of_ne⟩
  calc s.irq = (s.irqEn && s.done) := rfl
    _ = (s.ctrl.getLsbD 0 && s.status.getLsbD 1) := by rw [s.getLsbD_ctrl_zero, s.getLsbD_status_one]

end Sys2Proof.Machine
end

section
/-! SUPPORT. The laws behind the statements about reset: what the registers and the buffers read after a hardware reset,
and what the host's Reset statement leaves. -/

namespace Sys2Proof.Machine

open Sys2Proof

variable (s : State)

/-! ### The registers after a hardware reset (70_reset R260, R261) -/

theorem State.readReg_id : s.readReg .id = 0x53494201 := rfl

theorem State.readReg_setHostPc (n : Nat) (r : Reg) : (s.setHostPc n).readReg r = s.readReg r := by
  cases r <;> rfl

@[simp] theorem State.readReg_hwReset (r : Reg) : s.hwReset.readReg r = State.reset.readReg r := by
  cases r <;> rfl

/-! ### The buffers after a hardware reset (70_reset R262) -/

theorem State.msgAt_of_unwritten {s : State} {a : Nat} (h : Memory.find s.msg a = none) :
    s.msgAt a = Config.unwrittenMsg s.resets a := by rw [State.msgAt, h, Option.getD_none]

theorem State.keyAt_of_unwritten {s : State} {i : Nat} (h : Memory.find s.key i = none) :
    s.keyAt i = Config.unwrittenKey s.resets i := by rw [State.keyAt, h, Option.getD_none]

/-! ### The host's Reset -/

theorem hostExec_reset : hostExec .reset s = s.hwReset.setHostPc (s.hostPc + 1) := rfl

/-- The pending command's clock does not matter to a Reset, which discards the command. -/
theorem hostTurn_reset : hostTurn .reset s = s.hwReset.setHostPc (s.hostPc + 1) := rfl

theorem step_reset {s t : State} (ht : turn s = .host .reset) (hst : step s = .next t) :
    t = s.hwReset.setHostPc (s.hostPc + 1) := by
  rw [step_host ht, hostTurn_reset] at hst
  injection hst with hst
  exact hst.symm

end Sys2Proof.Machine
end

section
/-! The statements of 70_reset_and_hazards, settled. -/

namespace Sys2Proof.Machine

open Sys2Proof

/-- Settles O8: the invariant reads no field in which a machine after a hardware reset differs from `State.reset`. -/
theorem resetMeetsInvariant : Obligations.ResetMeetsInvariant := { State.reset.hwReset_inv with }

/-- Settles O54: busy or not, the step leaves the hardware reset with the host one statement further. -/
theorem hardwareResetClears : Obligations.HardwareResetClears := by
  intro s t ht hst
  obtain rfl := step_reset ht hst
  refine ⟨s.hwReset_pend, rfl, State.readReg_id _, fun r hid => ?_, State.irq_of_not_irqEn s.hwReset_irqEn⟩
  rw [State.readReg_setHostPc, State.readReg_hwReset, State.readReg_reset hid]

/-- Settles O55. -/
theorem resetState : Obligations.ResetState :=
  ⟨State.reset.readReg_id, fun _ => State.readReg_reset, State.reset_pend, State.irq_of_not_irqEn State.reset_irqEn⟩

/-- Settles O56: the reset empties both buffers and counts one draw more. -/
theorem buffersUnspecifiedAfterReset : Obligations.BuffersUnspecifiedAfterReset := by
  intro s a
  rw [hostExec_reset]
  exact ⟨State.msgAt_of_unwritten rfl, State.keyAt_of_unwritten rfl⟩

end Sys2Proof.Machine
end
